-- ==== Sys2Proof/Word.lean ====
section
/-! DEFINITION. The word types of the CHIP-8 engine (spec/00_scope.md R8, spec/10_state.md R21, R24, R26): bytes,
16-bit words, the 4-bit and 12-bit instruction fields, register numbers and key values. -/

namespace Sys2Proof

/-- A general register, a timer, a memory cell or an immediate byte (R21, R29, R31, R94). -/
abbrev Byte := BitVec 8

/-- An instruction word, `pc`, `i` or a stack entry (R24, R26, R27, R90). -/
abbrev Word := BitVec 16

/-- A 4-bit field of the instruction word that is a count or a selector (R92). -/
abbrev Nibble := BitVec 4

/-- The 12-bit address field `NNN` (R92). -/
abbrev Addr12 := BitVec 12

/-- The number of a general register: all 16 values of a register field are legal (R21, R94). -/
abbrev Reg := Fin 16

/-- A key value of 8 bits, or `none` for the spec's `NOKEY`, which equals no byte (R33, R190). -/
abbrev Key := Option Byte

/-- `VF`, this spec's name for `v[15]` (R10, R22). -/
abbrev VF : Reg := 15

end Sys2Proof
end

