-- ==== Sys2Proof/Syntax.lean ====
section
/-! DEFINITION. The 35 instructions, one constructor for each row of spec/opcode_table.json, in the order of the table of
spec/30_encoding.md R99. An operand is already a register number, an immediate or an address (R92, R94). -/

namespace Sys2Proof

/-- An instruction; the comment gives its pattern and mnemonic (R99). -/
inductive Instr where
  /-- 0NNN, `SYS NNN` -/
  | sys (nnn : Addr12)
  /-- 00E0, `CLS` -/
  | cls
  /-- 00EE, `RET` -/
  | ret
  /-- 1NNN, `JP NNN` -/
  | jp (nnn : Addr12)
  /-- 2NNN, `CALL NNN` -/
  | call (nnn : Addr12)
  /-- 3XNN, `SE VX, NN` -/
  | seImm (x : Reg) (nn : Byte)
  /-- 4XNN, `SNE VX, NN` -/
  | sneImm (x : Reg) (nn : Byte)
  /-- 5XY0, `SE VX, VY` -/
  | seReg (x y : Reg)
  /-- 6XNN, `LD VX, NN` -/
  | ldImm (x : Reg) (nn : Byte)
  /-- 7XNN, `ADD VX, NN` -/
  | addImm (x : Reg) (nn : Byte)
  /-- 8XY0, `LD VX, VY` -/
  | ldReg (x y : Reg)
  /-- 8XY1, `OR VX, VY` -/
  | orReg (x y : Reg)
  /-- 8XY2, `AND VX, VY` -/
  | andReg (x y : Reg)
  /-- 8XY3, `XOR VX, VY` -/
  | xorReg (x y : Reg)
  /-- 8XY4, `ADD VX, VY` -/
  | addReg (x y : Reg)
  /-- 8XY5, `SUB VX, VY` -/
  | subReg (x y : Reg)
  /-- 8XY6, `SHR VX, VY` -/
  | shr (x y : Reg)
  /-- 8XY7, `SUBN VX, VY` -/
  | subn (x y : Reg)
  /-- 8XYE, `SHL VX, VY` -/
  | shl (x y : Reg)
  /-- 9XY0, `SNE VX, VY` -/
  | sneReg (x y : Reg)
  /-- ANNN, `LD I, NNN` -/
  | ldI (nnn : Addr12)
  /-- BNNN, `JP V0, NNN` -/
  | jpV0 (nnn : Addr12)
  /-- CXNN, `RND VX, NN` -/
  | rnd (x : Reg) (nn : Byte)
  /-- DXYN, `DRW VX, VY, N` -/
  | drw (x y : Reg) (n : Nibble)
  /-- EX9E, `SKP VX` -/
  | skp (x : Reg)
  /-- EXA1, `SKNP VX` -/
  | sknp (x : Reg)
  /-- FX07, `LD VX, DT` -/
  | ldFromDt (x : Reg)
  /-- FX0A, `LD VX, K` -/
  | ldKey (x : Reg)
  /-- FX15, `LD DT, VX` -/
  | ldDt (x : Reg)
  /-- FX18, `LD ST, VX` -/
  | ldSt (x : Reg)
  /-- FX1E, `ADD I, VX` -/
  | addI (x : Reg)
  /-- FX29, `LD F, VX` -/
  | ldFont (x : Reg)
  /-- FX33, `LD B, VX` -/
  | ldBcd (x : Reg)
  /-- FX55, `LD [I], VX` -/
  | storeRegs (x : Reg)
  /-- FX65, `LD VX, [I]` -/
  | loadRegs (x : Reg)
  deriving DecidableEq, Repr

end Sys2Proof
end

