-- ==== Sys2Proof/WellFormed.lean ====
section
/-! DEFINITION. Which instructions have an encoding of their own (spec/30_encoding.md R96, R100). Every field value is legal
(R94), so the one check is on 0NNN: a word of family 0 whose low byte is 0xE0 or 0xEE is 00E0 or 00EE. -/

namespace Sys2Proof

/-- The low byte of a 12-bit address field. -/
def lowByte (nnn : Addr12) : Byte := nnn.extractLsb' 0 8

/-- `i` is the instruction some word encodes: 0NNN only with a low byte that is neither 0xE0 nor 0xEE (R121). -/
def Instr.wellFormed : Instr → Bool
  | .sys nnn => lowByte nnn != 0xE0#8 && lowByte nnn != 0xEE#8
  | .cls => true
  | .ret => true
  | .jp _ => true
  | .call _ => true
  | .seImm _ _ => true
  | .sneImm _ _ => true
  | .seReg _ _ => true
  | .ldImm _ _ => true
  | .addImm _ _ => true
  | .ldReg _ _ => true
  | .orReg _ _ => true
  | .andReg _ _ => true
  | .xorReg _ _ => true
  | .addReg _ _ => true
  | .subReg _ _ => true
  | .shr _ _ => true
  | .subn _ _ => true
  | .shl _ _ => true
  | .sneReg _ _ => true
  | .ldI _ => true
  | .jpV0 _ => true
  | .rnd _ _ => true
  | .drw _ _ _ => true
  | .skp _ => true
  | .sknp _ => true
  | .ldFromDt _ => true
  | .ldKey _ => true
  | .ldDt _ => true
  | .ldSt _ => true
  | .addI _ => true
  | .ldFont _ => true
  | .ldBcd _ => true
  | .storeRegs _ => true
  | .loadRegs _ => true

end Sys2Proof
end

