-- ==== Sys2Proof/Decode.lean ====
section
/-! DEFINITION. The fields of the instruction word, the two-level dispatch of spec/30_encoding.md R92 to R100, the encoder,
and the opcode table of spec/opcode_table.json as masks and matches. -/

namespace Sys2Proof

/-! ## Fields (R92) -/

/-- `F = word[15:12]`, the opcode family selector. -/
def fieldF (w : Word) : Nibble := w.extractLsb' 12 4

/-- `X = word[11:8]`, a register number. -/
def fieldX (w : Word) : Reg := (w.extractLsb' 8 4).toFin

/-- `Y = word[7:4]`, a register number. -/
def fieldY (w : Word) : Reg := (w.extractLsb' 4 4).toFin

/-- `N = word[3:0]`, the sub-opcode of family 8 and the sprite height of DXYN. -/
def fieldN (w : Word) : Nibble := w.extractLsb' 0 4

/-- `NN = word[7:0]`, the immediate byte and the sub-opcode of families 0, E and F. -/
def fieldNN (w : Word) : Byte := w.extractLsb' 0 8

/-- `NNN = word[11:0]`, the address. -/
def fieldNNN (w : Word) : Addr12 := w.extractLsb' 0 12

/-- `X` as the high nibble of `NNN`, which BNNN reads under `JUMP_VX_OFFSET` (R92, R133). -/
def addrHighNibble (nnn : Addr12) : Reg := (nnn.extractLsb' 8 4).toFin

/-! ## Dispatch (R95 to R100) -/

/-- Family 0 sub-dispatches on `NN`; `X` takes no part (R96). -/
def decodeFamily0 (w : Word) : Instr :=
  if fieldNN w = 0xE0#8 then .cls
  else if fieldNN w = 0xEE#8 then .ret
  else .sys (fieldNNN w)

/-- Family 8 sub-dispatches on `N`; 8 to D and F are unknown (R96, R98). -/
def decodeFamily8 (w : Word) : Option Instr :=
  match (fieldN w).toNat with
  | 0x0 => some (.ldReg (fieldX w) (fieldY w))
  | 0x1 => some (.orReg (fieldX w) (fieldY w))
  | 0x2 => some (.andReg (fieldX w) (fieldY w))
  | 0x3 => some (.xorReg (fieldX w) (fieldY w))
  | 0x4 => some (.addReg (fieldX w) (fieldY w))
  | 0x5 => some (.subReg (fieldX w) (fieldY w))
  | 0x6 => some (.shr (fieldX w) (fieldY w))
  | 0x7 => some (.subn (fieldX w) (fieldY w))
  | 0xE => some (.shl (fieldX w) (fieldY w))
  | _ => none

/-- Family E sub-dispatches on `NN` (R96, R98). -/
def decodeFamilyE (w : Word) : Option Instr :=
  match (fieldNN w).toNat with
  | 0x9E => some (.skp (fieldX w))
  | 0xA1 => some (.sknp (fieldX w))
  | _ => none

/-- Family F sub-dispatches on `NN` (R96, R98). -/
def decodeFamilyF (w : Word) : Option Instr :=
  match (fieldNN w).toNat with
  | 0x07 => some (.ldFromDt (fieldX w))
  | 0x0A => some (.ldKey (fieldX w))
  | 0x15 => some (.ldDt (fieldX w))
  | 0x18 => some (.ldSt (fieldX w))
  | 0x1E => some (.addI (fieldX w))
  | 0x29 => some (.ldFont (fieldX w))
  | 0x33 => some (.ldBcd (fieldX w))
  | 0x55 => some (.storeRegs (fieldX w))
  | 0x65 => some (.loadRegs (fieldX w))
  | _ => none

/-- Dispatch of one instruction word by its family (R95); `none` is an unknown opcode (R98). Families 5 and 9 do not
examine `N` (R97). The last case is family F. -/
def decodeWord (w : Word) : Option Instr :=
  match (fieldF w).toNat with
  | 0x0 => some (decodeFamily0 w)
  | 0x1 => some (.jp (fieldNNN w))
  | 0x2 => some (.call (fieldNNN w))
  | 0x3 => some (.seImm (fieldX w) (fieldNN w))
  | 0x4 => some (.sneImm (fieldX w) (fieldNN w))
  | 0x5 => some (.seReg (fieldX w) (fieldY w))
  | 0x6 => some (.ldImm (fieldX w) (fieldNN w))
  | 0x7 => some (.addImm (fieldX w) (fieldNN w))
  | 0x8 => decodeFamily8 w
  | 0x9 => some (.sneReg (fieldX w) (fieldY w))
  | 0xA => some (.ldI (fieldNNN w))
  | 0xB => some (.jpV0 (fieldNNN w))
  | 0xC => some (.rnd (fieldX w) (fieldNN w))
  | 0xD => some (.drw (fieldX w) (fieldY w) (fieldN w))
  | 0xE => decodeFamilyE w
  | _ => decodeFamilyF w

/-! ## Decoding bytes -/

/-- Why a byte sequence is no instruction. -/
inductive DecodeReject where
  /-- Fewer than two bytes: every instruction is one 16-bit word (R90). -/
  | truncated
  /-- The word matches no instruction of its family: an unknown opcode, which the core executes as a two-byte no-op (R98). -/
  | unknownOpcode (word : Word)
  deriving DecidableEq, Repr

/-- `{b0, b1}`: the byte at the lower address is bits 15:8 (R61). -/
def wordOfBytes (b0 b1 : Byte) : Word := b0 ++ b1

/-- The first instruction of a byte sequence and the bytes after it; total on any bytes (R90, R100). -/
def decode : List Byte → Except DecodeReject (Instr × List Byte)
  | b0 :: b1 :: rest =>
    match decodeWord (wordOfBytes b0 b1) with
    | some i => .ok (i, rest)
    | none => .error (.unknownOpcode (wordOfBytes b0 b1))
  | [_] => .error .truncated
  | [] => .error .truncated

/-! ## The encoder (R92, R93, R99) -/

/-- A register number as the 4-bit field that names it. -/
def regField (x : Reg) : Nibble := BitVec.ofFin (w := 4) x

/-- Format `A`: family and address. -/
def encodeA (f : Nibble) (nnn : Addr12) : Word := f ++ nnn

/-- Formats `XI` and `X`: family, register and low byte. -/
def encodeXI (f : Nibble) (x : Reg) (nn : Byte) : Word := f ++ regField x ++ nn

/-- Formats `XY` and `XYN`: family, two registers and low nibble. -/
def encodeXYN (f : Nibble) (x y : Reg) (n : Nibble) : Word := f ++ regField x ++ regField y ++ n

/-- The canonical word of an instruction (R99): ignored fields are 0 (R96, R97). -/
def encode : Instr → Word
  | .sys nnn => encodeA 0x0 nnn
  | .cls => 0x00E0
  | .ret => 0x00EE
  | .jp nnn => encodeA 0x1 nnn
  | .call nnn => encodeA 0x2 nnn
  | .seImm x nn => encodeXI 0x3 x nn
  | .sneImm x nn => encodeXI 0x4 x nn
  | .seReg x y => encodeXYN 0x5 x y 0x0
  | .ldImm x nn => encodeXI 0x6 x nn
  | .addImm x nn => encodeXI 0x7 x nn
  | .ldReg x y => encodeXYN 0x8 x y 0x0
  | .orReg x y => encodeXYN 0x8 x y 0x1
  | .andReg x y => encodeXYN 0x8 x y 0x2
  | .xorReg x y => encodeXYN 0x8 x y 0x3
  | .addReg x y => encodeXYN 0x8 x y 0x4
  | .subReg x y => encodeXYN 0x8 x y 0x5
  | .shr x y => encodeXYN 0x8 x y 0x6
  | .subn x y => encodeXYN 0x8 x y 0x7
  | .shl x y => encodeXYN 0x8 x y 0xE
  | .sneReg x y => encodeXYN 0x9 x y 0x0
  | .ldI nnn => encodeA 0xA nnn
  | .jpV0 nnn => encodeA 0xB nnn
  | .rnd x nn => encodeXI 0xC x nn
  | .drw x y n => encodeXYN 0xD x y n
  | .skp x => encodeXI 0xE x 0x9E
  | .sknp x => encodeXI 0xE x 0xA1
  | .ldFromDt x => encodeXI 0xF x 0x07
  | .ldKey x => encodeXI 0xF x 0x0A
  | .ldDt x => encodeXI 0xF x 0x15
  | .ldSt x => encodeXI 0xF x 0x18
  | .addI x => encodeXI 0xF x 0x1E
  | .ldFont x => encodeXI 0xF x 0x29
  | .ldBcd x => encodeXI 0xF x 0x33
  | .storeRegs x => encodeXI 0xF x 0x55
  | .loadRegs x => encodeXI 0xF x 0x65

/-- The two bytes of an instruction in memory order, big-endian (R61). -/
def encodeBytes (i : Instr) : List Byte :=
  [(encode i).extractLsb' 8 8, (encode i).extractLsb' 0 8]

/-! ## The opcode table (spec/opcode_table.json) -/

/-- One row: mask, match and the instruction its fields make. -/
structure OpcodeRow where
  mask : Word
  pattern : Word
  build : Word → Instr

/-- The rows of spec/opcode_table.json in its order, in which the first match wins (R99, R100). -/
def opcodeTable : List OpcodeRow :=
  [⟨0xF0FF, 0x00E0, fun _ => .cls⟩,
   ⟨0xF0FF, 0x00EE, fun _ => .ret⟩,
   ⟨0xF000, 0x0000, fun w => .sys (fieldNNN w)⟩,
   ⟨0xF000, 0x1000, fun w => .jp (fieldNNN w)⟩,
   ⟨0xF000, 0x2000, fun w => .call (fieldNNN w)⟩,
   ⟨0xF000, 0x3000, fun w => .seImm (fieldX w) (fieldNN w)⟩,
   ⟨0xF000, 0x4000, fun w => .sneImm (fieldX w) (fieldNN w)⟩,
   ⟨0xF000, 0x5000, fun w => .seReg (fieldX w) (fieldY w)⟩,
   ⟨0xF000, 0x6000, fun w => .ldImm (fieldX w) (fieldNN w)⟩,
   ⟨0xF000, 0x7000, fun w => .addImm (fieldX w) (fieldNN w)⟩] ++
  [⟨0xF00F, 0x8000, fun w => .ldReg (fieldX w) (fieldY w)⟩,
   ⟨0xF00F, 0x8001, fun w => .orReg (fieldX w) (fieldY w)⟩,
   ⟨0xF00F, 0x8002, fun w => .andReg (fieldX w) (fieldY w)⟩,
   ⟨0xF00F, 0x8003, fun w => .xorReg (fieldX w) (fieldY w)⟩,
   ⟨0xF00F, 0x8004, fun w => .addReg (fieldX w) (fieldY w)⟩,
   ⟨0xF00F, 0x8005, fun w => .subReg (fieldX w) (fieldY w)⟩,
   ⟨0xF00F, 0x8006, fun w => .shr (fieldX w) (fieldY w)⟩,
   ⟨0xF00F, 0x8007, fun w => .subn (fieldX w) (fieldY w)⟩,
   ⟨0xF00F, 0x800E, fun w => .shl (fieldX w) (fieldY w)⟩] ++
  [⟨0xF000, 0x9000, fun w => .sneReg (fieldX w) (fieldY w)⟩,
   ⟨0xF000, 0xA000, fun w => .ldI (fieldNNN w)⟩,
   ⟨0xF000, 0xB000, fun w => .jpV0 (fieldNNN w)⟩,
   ⟨0xF000, 0xC000, fun w => .rnd (fieldX w) (fieldNN w)⟩,
   ⟨0xF000, 0xD000, fun w => .drw (fieldX w) (fieldY w) (fieldN w)⟩,
   ⟨0xF0FF, 0xE09E, fun w => .skp (fieldX w)⟩,
   ⟨0xF0FF, 0xE0A1, fun w => .sknp (fieldX w)⟩] ++
  [⟨0xF0FF, 0xF007, fun w => .ldFromDt (fieldX w)⟩,
   ⟨0xF0FF, 0xF00A, fun w => .ldKey (fieldX w)⟩,
   ⟨0xF0FF, 0xF015, fun w => .ldDt (fieldX w)⟩,
   ⟨0xF0FF, 0xF018, fun w => .ldSt (fieldX w)⟩,
   ⟨0xF0FF, 0xF01E, fun w => .addI (fieldX w)⟩,
   ⟨0xF0FF, 0xF029, fun w => .ldFont (fieldX w)⟩,
   ⟨0xF0FF, 0xF033, fun w => .ldBcd (fieldX w)⟩,
   ⟨0xF0FF, 0xF055, fun w => .storeRegs (fieldX w)⟩,
   ⟨0xF0FF, 0xF065, fun w => .loadRegs (fieldX w)⟩]

/-- The instruction of the first row of a table that a word matches. -/
def firstMatch : List OpcodeRow → Word → Option Instr
  | [], _ => none
  | r :: rest, w => if w &&& r.mask = r.pattern then some (r.build w) else firstMatch rest w

/-! ## The host's view of the decoder -/

/-- The bytes, in memory order, of the 16-bit word whose value is `w`, kept to its low `nbits` bits: bit 0 of the table's
numbering is the least significant bit of the word, and the word is stored big-endian (R61). -/
def tableWordBytes (nbits w : Nat) : List Byte :=
  [BitVec.ofNat 8 (w % 2 ^ nbits / 256), BitVec.ofNat 8 (w % 2 ^ nbits)]

/-- The instruction the decoder reads from the bits `w` of a table row. -/
def decodeTableWord (nbits w : Nat) : Option Instr :=
  match decode (tableWordBytes nbits w) with
  | .ok (i, _) => some i
  | .error _ => none

end Sys2Proof
end

