-- ==== Sys2Proof/Config.lean ====
section
/-! DEFINITION. The Configuration of spec/00_scope.md R6, R7 and spec/10_state.md R35, R36, its suggested values, and the
free values the spec leaves to the host. The Configuration itself is a field of State (R20, R34), so that a
statement about every state is a statement about every Configuration. -/

namespace Sys2Proof

/-- `keyMode`, the mutually exclusive key policy selector (R35). -/
inductive KeyMode where
  /-- `USE_GIVEN_KEY`, strap value 0: the key instructions read the register `key`. -/
  | useGivenKey
  /-- `GET_KEY`, strap value 1: the key instructions consult the key ports. -/
  | getKey
  deriving DecidableEq, Repr

/-- The four independent quirk flags of `instructionMode` (R35); all sixteen combinations are legal. -/
structure Quirks where
  /-- `SHIFT_INPLACE` -/
  shiftInplace : Bool
  /-- `JUMP_VX_OFFSET` -/
  jumpVxOffset : Bool
  /-- `FX1E_OVERFLOW` -/
  fx1eOverflow : Bool
  /-- `FX55_FX65_INC_I` -/
  fx55Fx65IncI : Bool
  deriving DecidableEq, Repr

/-- The packed word of R36, bit 0 = `SHIFT_INPLACE`: the spec's own bit positions. -/
def Quirks.packed (q : Quirks) : Nibble :=
  BitVec.ofBool q.fx55Fx65IncI ++ BitVec.ofBool q.fx1eOverflow ++ BitVec.ofBool q.jumpVxOffset
    ++ BitVec.ofBool q.shiftInplace

/-- The strap `key_mode` of R36. -/
def KeyMode.strap : KeyMode → BitVec 1
  | .useGivenKey => 0
  | .getKey => 1

/-- The Configuration (R6): fixed from reset to the next reset. The two key capabilities are the ports of
spec/50_interfaces.md R223, R224, whose answers State holds; `noKeyByte` is the open parameter `NOKEY_BYTE` (R193). -/
structure Configuration where
  memorySize : Nat
  stackSize : Nat
  displayWidth : Nat
  displayHeight : Nat
  fontAddress : Nat
  programAddress : Nat
  keyMode : KeyMode
  quirks : Quirks
  /-- Reserved for the host; no rule reads it (R6, R266). -/
  timerClock : Nat
  /-- `NOKEY_BYTE`: what FX0A stores when the consulted key is `NOKEY` (R193, D8). -/
  noKeyByte : Byte
  deriving DecidableEq, Repr

/-- A well-formed Configuration (R7): the launch premise of every rule. -/
abbrev Configuration.WellFormed (c : Configuration) : Prop :=
  2 ≤ c.memorySize ∧ c.memorySize ≤ 0xFFFC ∧ c.stackSize ≤ 0xFFFF
    ∧ 1 ≤ c.displayWidth ∧ 1 ≤ c.displayHeight
    ∧ c.programAddress ≤ c.memorySize - 2 ∧ c.fontAddress + 80 ≤ c.memorySize

/-- FREE VALUE (DESIGN CHOICE, notes/assumptions/3.md): the `n`-th sample of the random port when the host has
scheduled none (R225). It has no body, so nothing can be proved of its value. -/
opaque Config.freeRandomByte : Nat → Byte

/-- FREE VALUE (DESIGN CHOICE, notes/assumptions/3.md): the `n`-th sample of the non-blocking key port when the host has
scheduled none (R223). -/
opaque Config.freePolledKey : Nat → Key

/-- FREE VALUE (DESIGN CHOICE, notes/assumptions/2.md): the spec gives `NOKEY_BYTE` no number (R193, N10). -/
opaque Config.freeNoKeyByte : Byte

/-- The suggested Configuration of R7, with the quirk flags and the key mode of the conventions of
spec/95_test_vectors.md (DESIGN CHOICE, notes/assumptions/1.md). -/
def Configuration.suggested : Configuration where
  memorySize := 4096
  stackSize := 16
  displayWidth := 64
  displayHeight := 32
  fontAddress := 0x050
  programAddress := 0x200
  keyMode := .useGivenKey
  quirks := { shiftInplace := false, jumpVxOffset := false, fx1eOverflow := false, fx55Fx65IncI := false }
  timerClock := 0
  noKeyByte := Config.freeNoKeyByte

end Sys2Proof
end

