-- ==== Sys2Proof/Machine/State.lean ====
section
/-! DEFINITION. The state of the core (spec/10_state.md R20 to R41), its reset (R40), and the reasons a step can stop. All
of it is plain data. The last field, `answers`, is the model's own: it holds what the host will answer on the input
ports (spec/50_interfaces.md R223 to R225), which the spec makes an input of the step. -/

namespace Sys2Proof.Machine

/-- The four fault causes (spec/60_exceptions.md R252). -/
inductive FaultCause where
  /-- code 1, raised by the fetch of any step (R254) -/
  | fetchOutOfBounds
  /-- code 2, raised by 2NNN (R255) -/
  | stackOverflow
  /-- code 3, raised by 00EE (R256) -/
  | stackUnderflow
  /-- code 4, raised by DXYN, FX33, FX55, FX65 (R257) -/
  | outOfBounds
  deriving DecidableEq, Repr

/-- The record `(cause, pc0, word, addr)` a fault leaves in the `fault` register (R37, R252); widths as R221. -/
structure FaultRecord where
  cause : FaultCause
  pc0 : Word
  word : Word
  addr : BitVec 17
  deriving DecidableEq, Repr

/-- A byte memory: `(address, byte)` pairs with rising addresses and no byte equal to what an unlisted address reads as
(0, R31). -/
abbrev Memory := List Host.Cell

/-- A framebuffer: the numbers of the lit cells, rising. Cell `(x, y)` is number `y * displayWidth + x`, the row-major
index of R32; every other cell is 0. -/
abbrev Display := List Nat

/-- What the host will answer on the three input ports, oldest answer first (MODEL's own field,
notes/assumptions/3.md and notes/assumptions/4.md). -/
structure HostAnswers where
  /-- scheduled samples of the random port (R225) -/
  rnd : List Byte
  /-- scheduled results of the non-blocking key port (R223) -/
  poll : List Key
  /-- scheduled answers of the blocking key port (R224); empty while the host has not answered -/
  wait : List Key
  /-- how many random samples have been taken: the index of the free value when `rnd` is empty -/
  rndTaken : Nat
  /-- how many polls have been taken: the index of the free value when `poll` is empty -/
  pollTaken : Nat
  deriving DecidableEq, Repr

/-- The Machine State (R20). -/
structure State where
  /-- the general registers `v[0]` to `v[15]` (R21, R22) -/
  v : Vector Byte 16
  /-- the program counter; between steps, the address of the next instruction (R23, R24) -/
  pc : Word
  /-- the index register (R26) -/
  i : Word
  /-- the `stackSize` return addresses (R27) -/
  stack : List Word
  /-- the stack pointer, a count of entries 0 .. stackSize (R28) -/
  sp : Nat
  /-- the delay timer (R29) -/
  delayTimer : Byte
  /-- the sound timer (R30) -/
  soundTimer : Byte
  /-- the unified byte memory (R31) -/
  memory : Memory
  /-- the framebuffer (R32) -/
  display : Display
  /-- the last key the host pushed, or `NOKEY` (R33) -/
  key : Key
  /-- the Configuration, constant from reset to reset (R34 to R36) -/
  cfg : Configuration
  /-- the fault register: `none`, or the record of the first fault (R37) -/
  fault : Option FaultRecord
  /-- the host's answers to come (the model's own) -/
  answers : HostAnswers
  deriving DecidableEq, Repr

/-- How a step can stop the model with no next state. The spec's four faults are NOT here: a step that raises one has a
next state, whose `fault` register holds the record (spec/60_exceptions.md R253). -/
inductive Fault where
  /-- STUCK, not a fault of the spec: FX0A under `GET_KEY` while the host has not answered the blocking key port: "no next
  state: the step never completes" (spec/46_key.md R193, spec/95_test_vectors.md). Raised by `execLdKey` only. Safe:
  nothing is claimed of a step that does not complete. -/
  | stuckAwaitingKey
  deriving DecidableEq, Repr

/-- What the model gives no meaning to. -/
inductive Refusal where
  /-- An instruction whose arm of `exec` has no meaning yet. Safe. -/
  | notModelled (mnemonic : String)
  /-- A step or a reset with a Configuration that is not well-formed: outside every rule (spec/00_scope.md R7, D4). Raised
  by `step` and by the host operation Reset. Safe. -/
  | illFormedConfiguration
  /-- A program or font load that does not fit below `memorySize`: what memory then holds is not stated
  (spec/70_reset_and_hazards.md R286, D27). Raised by `loadProgram` and `loadFont`. Safe. -/
  | loadDoesNotFit
  deriving DecidableEq, Repr

/-- No answer scheduled, no sample taken. -/
def HostAnswers.none : HostAnswers :=
  { rnd := [], poll := [], wait := [], rndTaken := 0, pollTaken := 0 }

/-- The state right after `Reset(c)` (R40, spec/70_reset_and_hazards.md R280, R281): everything 0 or `NOKEY` or `None`,
`pc` at `programAddress`, and the Configuration latched. -/
def State.resetWith (c : Configuration) : State where
  v := Vector.replicate 16 0
  pc := BitVec.ofNat 16 c.programAddress
  i := 0
  stack := List.replicate c.stackSize 0
  sp := 0
  delayTimer := 0
  soundTimer := 0
  memory := []
  display := []
  key := Option.none
  cfg := c
  fault := Option.none
  answers := HostAnswers.none

/-- The machine right after reset with the suggested Configuration (notes/assumptions/1.md). -/
def State.reset : State := State.resetWith Configuration.suggested

end Sys2Proof.Machine
end

