-- ==== Sys2Proof/Machine/Ops.lean ====
section
/-! DEFINITION. The shared operations over memory, display, registers, stack and input ports, the program counter, and taking a
fault (spec/20_memory.md, spec/10_state.md, spec/50_interfaces.md, spec/60_exceptions.md R253). -/

namespace Sys2Proof.Machine

/-- What a meaning answers. -/
abbrev Out := Host.Outcome State Fault Refusal

/-! ## Memory (R31, R60 to R66) -/

/-- What an address that no entry lists reads as: memory is zero after reset (R31, R40). -/
def Memory.unlisted : Byte := 0

/-- One byte of memory. -/
def Memory.read : Memory → Nat → Byte
  | [], _ => Memory.unlisted
  | c :: m, a => if c.1 = a then c.2 else Memory.read m a

/-- A cell put at its place in a rising list. -/
def Memory.insert (c : Host.Cell) : Memory → Memory
  | [] => [c]
  | d :: m => if c.1 < d.1 then c :: d :: m else d :: Memory.insert c m

/-- Write one byte; the canonical form is kept (`Laws.Memory.wf_write`). -/
def Memory.write (m : Memory) (a : Nat) (b : Byte) : Memory :=
  let rest := m.filter (fun c => c.1 ≠ a)
  if b = Memory.unlisted then rest else Memory.insert (a, b) rest

/-- Write bytes at ascending addresses, the first at `a` (R62, R71). -/
def Memory.writeBytes (m : Memory) (a : Nat) : List Byte → Memory
  | [] => m
  | b :: bs => Memory.writeBytes (Memory.write m a b) (a + 1) bs

/-- The canonical form: addresses strictly rising, no entry equal to what an unlisted address reads as. -/
abbrev Memory.wf (m : Memory) : Prop :=
  m.Pairwise (fun c d => c.1 < d.1) ∧ ∀ c ∈ m, c.2 ≠ Memory.unlisted

/-- `a` is a legal address (R66). -/
abbrev State.inMemory (s : State) (a : Nat) : Prop := a < s.cfg.memorySize

/-! ## Display (R32, R182) -/

/-- The row-major number of the cell at column `x`, row `y` (R32). -/
def cellNumber (width x y : Nat) : Nat := y * width + x

/-- Whether cell number `n` is 1. -/
def Display.lit (d : Display) (n : Nat) : Bool := decide (n ∈ d)

/-- A cell number put at its place in a rising list. -/
def Display.insert (n : Nat) : Display → Display
  | [] => [n]
  | k :: d => if n < k then n :: k :: d else k :: Display.insert n d

/-- Exclusive-or of cell number `n` with 1 (R181). -/
def Display.flip (d : Display) (n : Nat) : Display :=
  if n ∈ d then d.filter (fun k => k ≠ n) else Display.insert n d

/-- The canonical form: cell numbers strictly rising. -/
abbrev Display.wf (d : Display) : Prop := d.Pairwise (fun n k => n < k)

/-- `display[y][x]` (R9). The display has no cell outside its bounds; that such a place reads as 0 is a DESIGN CHOICE
(notes/assumptions/15.md), and no instruction reads there. -/
def State.pixel (s : State) (x y : Nat) : Bool :=
  decide (x < s.cfg.displayWidth) && decide (y < s.cfg.displayHeight)
    && Display.lit s.display (cellNumber s.cfg.displayWidth x y)

/-! ## Registers (R21, R22) -/

/-- `v[x]`. -/
def State.reg (s : State) (x : Reg) : Byte := s.v[x]

/-- `v[x] <- b`. -/
def State.setReg (s : State) (x : Reg) (b : Byte) : State := { s with v := s.v.set x b }

/-- A flag's byte: 0 or 1 (R22). -/
def flagByte (c : Bool) : Byte := if c then 1 else 0

/-- `v[15] <- 1` if the condition holds, else 0 (R22). -/
def State.setFlag (s : State) (c : Bool) : State := s.setReg VF (flagByte c)

/-- Register writes `v[r] <- f r` for each `r` of a list, in its order. -/
def State.setRegs (s : State) (f : Reg → Byte) : List Reg → State
  | [] => s
  | r :: rs => State.setRegs (s.setReg r (f r)) f rs

/-- The registers `v[0]` to `v[x]`, in order (R207, R208). -/
def regsUpTo (x : Reg) : List Reg := (List.finRange 16).filter (fun r => r ≤ x)

/-! ## Index register, timers, memory and display as wholes (R26, R29 to R32) -/

/-- `i <- a` (R26). -/
def State.setIndex (s : State) (a : Word) : State := { s with i := a }

/-- `delayTimer <- b` (R29). -/
def State.setDelayTimer (s : State) (b : Byte) : State := { s with delayTimer := b }

/-- `soundTimer <- b` (R30). -/
def State.setSoundTimer (s : State) (b : Byte) : State := { s with soundTimer := b }

/-- The state with another memory (R31). -/
def State.setMemory (s : State) (m : Memory) : State := { s with memory := m }

/-- The state with another display (R32). -/
def State.setDisplay (s : State) (d : Display) : State := { s with display := d }

/-! ## Program counter (R23, R25, R91) -/

/-- The fetch's advance: `pc <- pc0 + 2`, before the handler runs (R91). -/
def State.advance (s : State) : State := { s with pc := s.pc + 2 }

/-- A skip adds a further 2 when its condition holds (R25, R140). -/
def State.skipIf (s : State) (c : Bool) : State := if c then { s with pc := s.pc + 2 } else s

/-- `pc <- target` (R130). -/
def State.jump (s : State) (target : Word) : State := { s with pc := target }

/-- The word at `pc`, big-endian: `{memory[pc], memory[pc+1]}` (R61, R91). -/
def State.instrWord (s : State) : Word :=
  wordOfBytes (Memory.read s.memory s.pc.toNat) (Memory.read s.memory (s.pc.toNat + 1))

/-! ## Stack (R27, R28) -/

/-- `stack[k]`. An index outside the list is reached in no run (notes/assumptions/8.md). -/
def State.stackAt (s : State) (k : Nat) : Word := s.stack.getD k 0

/-- `stack[sp] <- a` and then `sp <- sp + 1` (R132). -/
def State.push (s : State) (a : Word) : State :=
  { s with stack := s.stack.set s.sp a, sp := s.sp + 1 }

/-- `sp <- sp - 1` and then `pc <- stack[sp]`; the entry is not erased (R123). -/
def State.popToPc (s : State) : State := { s with sp := s.sp - 1, pc := s.stackAt (s.sp - 1) }

/-! ## Input ports (R223 to R225) -/

/-- One sample of the random port and the state after it: the oldest scheduled answer, or a free value (R225). -/
def State.drawRnd (s : State) : Byte × State :=
  match s.answers.rnd with
  | b :: rest =>
    (b, { s with answers := { s.answers with rnd := rest, rndTaken := s.answers.rndTaken + 1 } })
  | [] =>
    (Config.freeRandomByte s.answers.rndTaken,
      { s with answers := { s.answers with rndTaken := s.answers.rndTaken + 1 } })

/-- One sample of the non-blocking key port and the state after it (R223). -/
def State.pollKey (s : State) : Key × State :=
  match s.answers.poll with
  | k :: rest =>
    (k, { s with answers := { s.answers with poll := rest, pollTaken := s.answers.pollTaken + 1 } })
  | [] =>
    (Config.freePolledKey s.answers.pollTaken,
      { s with answers := { s.answers with pollTaken := s.answers.pollTaken + 1 } })

/-- The answer of the blocking key port and the state after it; `none` while the host has not answered (R224). -/
def State.awaitKey (s : State) : Option (Key × State) :=
  match s.answers.wait with
  | k :: rest => some (k, { s with answers := { s.answers with wait := rest } })
  | [] => none

/-! ## Taking a fault (R252, R253). There is no return from one: only Reset clears it (R259). -/

/-- The cause codes of R252. -/
def FaultCause.code : FaultCause → BitVec 3
  | .fetchOutOfBounds => 1
  | .stackOverflow => 2
  | .stackUnderflow => 3
  | .outOfBounds => 4

/-- Fault entry (R253), applied to the state BEFORE the step: nothing changes but the fault register; `pc` is still `pc0`. -/
def State.enterFault (s : State) (cause : FaultCause) (word : Word) (addr : Nat) : State :=
  { s with fault := some { cause := cause, pc0 := s.pc, word := word, addr := BitVec.ofNat 17 addr } }

/-- `raise F(info)` in a handler: the step ends with the fault of the instruction at `pc` (R9, R252). -/
def State.raise (s : State) (cause : FaultCause) (addr : Nat) : Out :=
  .next (s.enterFault cause s.instrWord addr)

end Sys2Proof.Machine
end

