-- ==== Sys2Proof/Machine/Operands.lean ====
section
/-! DEFINITION. The operand forms (spec/30_encoding.md R94): registers and immediates are `State.reg` and the fields
themselves; here are the extended address, the quirk-gated operands, the key consulted, the effective address of a memory
operand, and the bytes the memory instructions move. -/

namespace Sys2Proof.Machine

/-- `zext_16(NNN)` (R94). -/
def zextAddr (nnn : Addr12) : Word := nnn.zeroExtend 16

/-- `zext_16(b)` of a register value (R133, R204). -/
def zextByte (b : Byte) : Word := b.zeroExtend 16

/-- The offset of BNNN: `v[X]` with `X = NNN[11:8]` under `JUMP_VX_OFFSET`, else `v[0]` (R133). -/
def State.jumpOffset (s : State) (nnn : Addr12) : Byte :=
  if s.cfg.quirks.jumpVxOffset then s.reg (addrHighNibble nnn) else s.reg 0

/-- The first line of a shift: unless `SHIFT_INPLACE` is set, `v[X] <- v[Y]` (R168, R170). -/
def State.loadShiftOperand (s : State) (x y : Reg) : State :=
  if s.cfg.quirks.shiftInplace then s else s.setReg x (s.reg y)

/-- `current`, the key EX9E and EXA1 compare, and the state after consulting it (R190). -/
def State.consultKey (s : State) : Key × State :=
  match s.cfg.keyMode with
  | .useGivenKey => (s.key, s)
  | .getKey => s.pollKey

/-- The effective address of the `k`-th byte of an access: the integer `i + k`, not wrapped (R67, R200). -/
def State.ea (s : State) (k : Nat) : Nat := s.i.toNat + k

/-- The address of the glyph `v & 0x0F` (R205). -/
def State.glyphAddress (s : State) (b : Byte) : Word :=
  BitVec.ofNat 16 (s.cfg.fontAddress + 5 * (b &&& 0x0F).toNat)

/-- The index register after FX55 or FX65 with last register `x`: `i + X + 1` modulo 65536 under `FX55_FX65_INC_I` (R207, R208). -/
def State.bumpIndex (s : State) (x : Reg) : State :=
  if s.cfg.quirks.fx55Fx65IncI then s.setIndex (BitVec.ofNat 16 (s.i.toNat + x.val + 1)) else s

/-- The decimal digits of a byte, hundreds first, one a byte (R206). -/
def bcdDigits (b : Byte) : List Byte :=
  [BitVec.ofNat 8 (b.toNat / 100), BitVec.ofNat 8 (b.toNat / 10 % 10), BitVec.ofNat 8 (b.toNat % 10)]

/-- The bytes `v[0]` to `v[x]`, in order (R207). -/
def State.regBytes (s : State) (x : Reg) : List Byte := (regsUpTo x).map s.reg

/-- What FX0A stores for a key: its value, or `NOKEY_BYTE` (R193). -/
def keyByte (c : Configuration) (k : Key) : Byte := k.getD c.noKeyByte

end Sys2Proof.Machine
end

