-- ==== Sys2Proof/Machine/Flags.lean ====
section
/-! DEFINITION. Every result and flag computation of the instruction set (spec/10_state.md R22, spec/44_alu.md R166 to R171,
spec/47_timer_index_memory.md R204). -/

namespace Sys2Proof.Machine

/-- The 9-bit intermediate sum of 8XY4 (R166). -/
def sum9 (a b : Byte) : BitVec 9 := a.zeroExtend 9 + b.zeroExtend 9

/-- The low 8 bits of the sum (R166). -/
def sumByte (a b : Byte) : Byte := (sum9 a b).extractLsb' 0 8

/-- The carry: bit 8 of the sum (R166). -/
def carryOut (a b : Byte) : Bool := (sum9 a b).getLsbD 8

/-- The mathematical difference (R167, R169). -/
def difference (a b : Byte) : Int := (a.toNat : Int) - (b.toNat : Int)

/-- The difference modulo 256 (R167, R169). -/
def differenceByte (a b : Byte) : Byte := BitVec.ofInt 8 (difference a b)

/-- No borrow: the difference is not negative, so equal operands give 1 (R167, R169). -/
def noBorrow (a b : Byte) : Bool := decide (0 ≤ difference a b)

/-- The bit a right shift by one moves out (R168). -/
def shiftedOutRight (a : Byte) : Bool := a.getLsbD 0

/-- The bit a left shift by one moves out (R170). -/
def shiftedOutLeft (a : Byte) : Bool := a.getLsbD 7

/-- `(i & 0xF000) != 0`: the result exceeds the 12-bit address space (R204). -/
def exceeds12Bits (i : Word) : Bool := i &&& 0xF000 != 0

end Sys2Proof.Machine
end

