-- ==== Sys2Proof/Machine/Alu.lean ====
section
/-! DEFINITION. Family 8: register-to-register ALU operations (spec/44_alu.md). The two writes of a flag-writing
instruction are in the order of R161, each seeing the one before. -/

namespace Sys2Proof.Machine

/-- 8XY0: `v[X] <- v[Y]` (R162). -/
def execLdReg (x y : Reg) (s : State) : Out := .next (s.advance.setReg x (s.reg y))

/-- 8XY1: bitwise or, no flag (R163). -/
def execOrReg (x y : Reg) (s : State) : Out := .next (s.advance.setReg x (s.reg x ||| s.reg y))

/-- 8XY2: bitwise and, no flag (R164). -/
def execAndReg (x y : Reg) (s : State) : Out := .next (s.advance.setReg x (s.reg x &&& s.reg y))

/-- 8XY3: bitwise exclusive or, no flag (R165). -/
def execXorReg (x y : Reg) (s : State) : Out := .next (s.advance.setReg x (s.reg x ^^^ s.reg y))

/-- 8XY4: sum, then VF = carry (R166). -/
def execAddReg (x y : Reg) (s : State) : Out :=
  .next ((s.advance.setReg x (sumByte (s.reg x) (s.reg y))).setFlag (carryOut (s.reg x) (s.reg y)))

/-- 8XY5: `v[X] - v[Y]`, then VF = no borrow (R167). -/
def execSubReg (x y : Reg) (s : State) : Out :=
  .next ((s.advance.setReg x (differenceByte (s.reg x) (s.reg y))).setFlag (noBorrow (s.reg x) (s.reg y)))

/-- 8XY7: `v[Y] - v[X]`, then VF = no borrow (R169). -/
def execSubn (x y : Reg) (s : State) : Out :=
  .next ((s.advance.setReg x (differenceByte (s.reg y) (s.reg x))).setFlag (noBorrow (s.reg y) (s.reg x)))

/-- 8XY6: the optional copy, then VF = bit 0 of `v[X]`, then `v[X]` as it now stands shifted right (R168, R161). -/
def execShr (x y : Reg) (s : State) : Out :=
  let s1 := s.advance.loadShiftOperand x y
  let s2 := s1.setFlag (shiftedOutRight (s1.reg x))
  .next (s2.setReg x (s2.reg x >>> 1))

/-- 8XYE: the optional copy, then VF = bit 7 of `v[X]`, then `v[X]` as it now stands shifted left (R170, R161). -/
def execShl (x y : Reg) (s : State) : Out :=
  let s1 := s.advance.loadShiftOperand x y
  let s2 := s1.setFlag (shiftedOutLeft (s1.reg x))
  .next (s2.setReg x (s2.reg x <<< 1))

end Sys2Proof.Machine
end

