-- ==== Sys2Proof/Machine/Draw.lean ====
section
/-! DEFINITION. Family D: sprite draw and collision detection (spec/45_draw.md R181). -/

namespace Sys2Proof.Machine

/-- The framebuffer and the collision flag while a sprite is drawn. -/
structure Canvas where
  cells : Display
  hit : Bool
  deriving DecidableEq, Repr

/-- `xs = v[X] mod W` (R181). -/
def State.spriteColumn (s : State) (x : Reg) : Nat := (s.reg x).toNat % s.cfg.displayWidth

/-- `ys = v[Y] mod H` (R181). -/
def State.spriteRow (s : State) (y : Reg) : Nat := (s.reg y).toNat % s.cfg.displayHeight

/-- `rows = min(N, H - ys)`: rows below the bottom edge are clipped (R181). -/
def State.spriteRows (s : State) (y : Reg) (n : Nibble) : Nat :=
  min n.toNat (s.cfg.displayHeight - s.spriteRow y)

/-- `cols = min(8, W - xs)`: columns right of the right edge are clipped (R181). -/
def State.spriteCols (s : State) (x : Reg) : Nat := min 8 (s.cfg.displayWidth - s.spriteColumn x)

/-- One sprite bit at cell number `cell`: a 1 flips the cell, after setting the flag if the cell was 1 (R181, R182). -/
def drawBit (bit : Bool) (cell : Nat) (c : Canvas) : Canvas :=
  if bit then { cells := Display.flip c.cells cell, hit := c.hit || Display.lit c.cells cell } else c

/-- The first `cols` bits of one sprite row, left to right, the most significant bit leftmost; `first` is the number of the
leftmost cell (R181). -/
def drawRow (b : Byte) (first cols : Nat) (c : Canvas) : Canvas :=
  (List.range cols).foldl (fun acc k => drawBit (b.getLsbD (7 - k)) (first + k) acc) c

/-- The rows `0 .. rows-1` of the sprite at `i`, top to bottom, with top left corner `(xs, ys)` (R181). -/
def State.drawSprite (s : State) (xs ys rows cols : Nat) (c : Canvas) : Canvas :=
  (List.range rows).foldl
    (fun acc r => drawRow (Memory.read s.memory (s.ea r)) (cellNumber s.cfg.displayWidth xs (ys + r)) cols acc) c

/-- DXYN: the clipped sprite exclusive-ored into the display, VF = collision; or OutOfBounds when a row that would be drawn
lies at or above `memorySize` (R181, R257). The coordinates are read before VF is written. -/
def execDrw (x y : Reg) (n : Nibble) (s : State) : Out :=
  let rows := s.spriteRows y n
  if 1 ≤ rows ∧ ¬ s.inMemory (s.ea (rows - 1)) then s.raise .outOfBounds (s.ea (rows - 1))
  else
    let c := s.drawSprite (s.spriteColumn x) (s.spriteRow y) rows (s.spriteCols x) { cells := s.display, hit := false }
    .next ((s.advance.setFlag c.hit).setDisplay c.cells)

end Sys2Proof.Machine
end

