-- ==== Sys2Proof/Machine/FamilyF.lean ====
section
/-! DEFINITION. Family F: timers, index arithmetic, font, BCD, register dump and load (spec/47_timer_index_memory.md). -/

namespace Sys2Proof.Machine

/-- FX07: `v[X] <- delayTimer` (R201). -/
def execLdFromDt (x : Reg) (s : State) : Out := .next (s.advance.setReg x s.delayTimer)

/-- FX15: `delayTimer <- v[X]` (R202). -/
def execLdDt (x : Reg) (s : State) : Out := .next (s.advance.setDelayTimer (s.reg x))

/-- FX18: `soundTimer <- v[X]` (R203). -/
def execLdSt (x : Reg) (s : State) : Out := .next (s.advance.setSoundTimer (s.reg x))

/-- FX1E: `i <- i + v[X]` modulo 65536; under `FX1E_OVERFLOW`, VF = the new `i` exceeds 12 bits (R204). -/
def execAddI (x : Reg) (s : State) : Out :=
  let s1 := s.advance.setIndex (s.i + zextByte (s.reg x))
  .next (if s.cfg.quirks.fx1eOverflow then s1.setFlag (exceeds12Bits s1.i) else s1)

/-- FX29: `i <-` the address of glyph `v[X] & 0x0F`; no memory is reached (R205). -/
def execLdFont (x : Reg) (s : State) : Out := .next (s.advance.setIndex (s.glyphAddress (s.reg x)))

/-- FX33: the decimal digits of `v[X]` at `i`, `i+1`, `i+2`, or OutOfBounds (R206). -/
def execLdBcd (x : Reg) (s : State) : Out :=
  if s.inMemory (s.ea 2) then
    .next (s.advance.setMemory (Memory.writeBytes s.memory (s.ea 0) (bcdDigits (s.reg x))))
  else s.raise .outOfBounds (s.ea 2)

/-- FX55: `v[0]` to `v[X]` at `i` to `i+X`, then the quirk's increment, or OutOfBounds (R207). -/
def execStoreRegs (x : Reg) (s : State) : Out :=
  if s.inMemory (s.ea x.val) then
    .next ((s.advance.setMemory (Memory.writeBytes s.memory (s.ea 0) (s.regBytes x))).bumpIndex x)
  else s.raise .outOfBounds (s.ea x.val)

/-- FX65: `v[0]` to `v[X]` from `i` to `i+X`, then the quirk's increment, or OutOfBounds (R208). -/
def execLoadRegs (x : Reg) (s : State) : Out :=
  if s.inMemory (s.ea x.val) then
    .next ((s.advance.setRegs (fun r => Memory.read s.memory (s.ea r.val)) (regsUpTo x)).bumpIndex x)
  else s.raise .outOfBounds (s.ea x.val)

end Sys2Proof.Machine
end

