-- ==== Sys2Proof/Machine/Immediate.lean ====
section
/-! DEFINITION. Immediate loads, immediate add, random: LD, ADD, LD I, RND (spec/43_load_immediate_random.md). -/

namespace Sys2Proof.Machine

/-- 6XNN: `v[X] <- NN` (R151). -/
def execLdImm (x : Reg) (nn : Byte) (s : State) : Out := .next (s.advance.setReg x nn)

/-- 7XNN: `v[X] <- (v[X] + NN) mod 256`, no flag (R152). -/
def execAddImm (x : Reg) (nn : Byte) (s : State) : Out := .next (s.advance.setReg x (s.reg x + nn))

/-- ANNN: `i <- NNN` (R153). -/
def execLdI (nnn : Addr12) (s : State) : Out := .next (s.advance.setIndex (zextAddr nnn))

/-- CXNN: one sample of the random port, masked (R154). -/
def execRnd (x : Reg) (nn : Byte) (s : State) : Out :=
  .next (s.advance.drawRnd.2.setReg x (s.advance.drawRnd.1 &&& nn))

end Sys2Proof.Machine
end

