-- ==== Sys2Proof/Machine/Jump.lean ====
section
/-! DEFINITION. Jumps and calls: JP, CALL, JP V0 (spec/41_jump_call.md). A target is not checked when the transfer
executes (R130). -/

namespace Sys2Proof.Machine

/-- 1NNN: `pc <- NNN` (R131). -/
def execJp (nnn : Addr12) (s : State) : Out := .next (s.advance.jump (zextAddr nnn))

/-- 2NNN: push the post-increment `pc` and jump, or StackOverflow when the stack is full (R132, R255). -/
def execCall (nnn : Addr12) (s : State) : Out :=
  if s.cfg.stackSize ≤ s.sp then s.raise .stackOverflow 0
  else .next ((s.advance.push s.advance.pc).jump (zextAddr nnn))

/-- BNNN: `pc <- NNN + off` (R133). -/
def execJpV0 (nnn : Addr12) (s : State) : Out :=
  .next (s.advance.jump (zextAddr nnn + zextByte (s.jumpOffset nnn)))

end Sys2Proof.Machine
end

