-- ==== Sys2Proof/Machine/KeyInput.lean ====
section
/-! DEFINITION. Key input: SKP, SKNP, LD VX, K (spec/46_key.md). -/

namespace Sys2Proof.Machine

/-- EX9E: skip if a key is pressed and equals `v[X]` (R191). -/
def execSkp (x : Reg) (s : State) : Out :=
  .next (s.advance.consultKey.2.skipIf (s.advance.consultKey.1 == some (s.reg x)))

/-- EXA1: skip if no key is pressed or the key differs from `v[X]` (R192). -/
def execSknp (x : Reg) (s : State) : Out :=
  .next (s.advance.consultKey.2.skipIf (s.advance.consultKey.1 != some (s.reg x)))

/-- FX0A: `v[X]` gets the register `key` at once, or the answer of the blocking port; while the host has not answered, the step
does not complete (R193, notes/assumptions/4.md). -/
def execLdKey (x : Reg) (s : State) : Out :=
  match s.cfg.keyMode with
  | .useGivenKey => .next (s.advance.setReg x (keyByte s.cfg s.key))
  | .getKey =>
    match s.advance.awaitKey with
    | some (k, s1) => .next (s1.setReg x (keyByte s.cfg k))
    | none => .fault .stuckAwaitingKey

end Sys2Proof.Machine
end

