-- ==== Sys2Proof/Machine/Skip.lean ====
section
/-! DEFINITION. Conditional skips: SE, SNE (spec/42_skip.md R140 to R144). -/

namespace Sys2Proof.Machine

/-- 3XNN: skip if `v[X] = NN` (R141). -/
def execSeImm (x : Reg) (nn : Byte) (s : State) : Out := .next (s.advance.skipIf (s.reg x == nn))

/-- 4XNN: skip if `v[X] != NN` (R142). -/
def execSneImm (x : Reg) (nn : Byte) (s : State) : Out := .next (s.advance.skipIf (s.reg x != nn))

/-- 5XY0: skip if `v[X] = v[Y]` (R143). -/
def execSeReg (x y : Reg) (s : State) : Out := .next (s.advance.skipIf (s.reg x == s.reg y))

/-- 9XY0: skip if `v[X] != v[Y]` (R144). -/
def execSneReg (x y : Reg) (s : State) : Out := .next (s.advance.skipIf (s.reg x != s.reg y))

end Sys2Proof.Machine
end

