-- ==== Sys2Proof/Machine/System.lean ====
section
/-! DEFINITION. Family 0: SYS, CLS, RET (spec/40_family0_system.md). -/

namespace Sys2Proof.Machine

/-- 0NNN: a no-op; `NNN` is ignored (R121). -/
def execSys (_nnn : Addr12) (s : State) : Out := .next s.advance

/-- 00E0: every display cell becomes 0 (R122). -/
def execCls (s : State) : Out := .next (s.advance.setDisplay [])

/-- 00EE: return, or StackUnderflow when the stack is empty (R123, R256). -/
def execRet (s : State) : Out :=
  if s.sp = 0 then s.raise .stackUnderflow 0
  else .next s.advance.popToPc

end Sys2Proof.Machine
end

