-- ==== Sys2Proof/Machine/Fetch.lean ====
section
/-! DEFINITION. What a step does around the instruction: the halted core (spec/60_exceptions.md R259), the fetch and its
fault (spec/30_encoding.md R91, R254), and unknown opcodes with their event (R98). -/

namespace Sys2Proof.Machine

/-- A fault is recorded: the core takes no step (R259). -/
def State.halted (s : State) : Bool := s.fault.isSome

/-- The fetch at `pc` is in range: `pc + 1 < memorySize` (R91, R254). -/
abbrev State.fetchInBounds (s : State) : Prop := s.inMemory (s.pc.toNat + 1)

/-- The fault of a fetch out of range: no word was fetched, the address is `pc0 + 1` (R252, R254). -/
def State.raiseFetch (s : State) : Out :=
  .next (s.enterFault .fetchOutOfBounds 0 (s.pc.toNat + 1))

/-- An unknown opcode is a two-byte no-op (R98). -/
def execUnknownOpcode (s : State) : Out := .next s.advance

/-- The diagnostic event `UnknownOpcode(pc0, word)` (R98, R228). -/
structure UnknownOpcodeEvent where
  pc0 : Word
  word : Word
  deriving DecidableEq, Repr

/-- The event that the step from `s` emits, if any: a pulse, not state (R39, R228). A faulting step emits none (R253). -/
def State.unknownOpcodeEvent (s : State) : Option UnknownOpcodeEvent :=
  if s.halted = false ∧ s.fetchInBounds ∧ decodeWord s.instrWord = none then
    some { pc0 := s.pc, word := s.instrWord }
  else none

/-- `s` with bytes stored from its `pc` on. -/
def State.withBytesAtPc (s : State) (bs : List Byte) : State :=
  s.setMemory (Memory.writeBytes s.memory s.pc.toNat bs)

end Sys2Proof.Machine
end

