-- ==== Sys2Proof/Machine/Step.lean ====
section
/-! DEFINITION. One step of the core (spec/30_encoding.md R102) and the place where the host puts an instruction. -/

namespace Sys2Proof.Machine

/-- One step (R102): nothing while halted (R259); refused under an ill-formed Configuration (R7); otherwise fetch, decode and
dispatch, with the fetch check first (R260). -/
def step (s : State) : Host.Outcome State Fault Refusal :=
  if s.halted then .next s
  else if ¬ s.cfg.WellFormed then .refused .illFormedConfiguration
  else if ¬ s.fetchInBounds then s.raiseFetch
  else
    match decodeWord s.instrWord with
    | some i => exec i s
    | none => execUnknownOpcode s

/-- `s` with the instruction word `w` stored at `pc`, where the next step fetches (R91); `tableWordBytes` gives its bytes in
memory order. -/
def State.withFetchWord (s : State) (nbits w : Nat) : State :=
  s.withBytesAtPc (tableWordBytes nbits w)

end Sys2Proof.Machine
end

