-- ==== Sys2Proof/Machine/HostOps.lean ====
section
/-! DEFINITION. What the host can do to the core and what the core shows the host (spec/50_interfaces.md R220 to R232,
spec/70_reset_and_hazards.md R280 to R286). -/

namespace Sys2Proof.Machine

/-! ## Operations between steps -/

/-- `PushKey(k)`: `key <- k` (R222). -/
def State.pushKey (s : State) (k : Key) : State := { s with key := k }

/-- A timer's decrement: down to zero, never below (R226). -/
def tickTimer (t : Byte) : Byte := if t = 0 then 0 else t - 1

/-- `TimerTick` (R226). -/
def State.timerTick (s : State) : State :=
  { s with delayTimer := tickTimer s.delayTimer, soundTimer := tickTimer s.soundTimer }

/-- `HostWrite(a, b)`: one byte into memory; the port ignores an address at or above `memorySize` (R227). -/
def State.hostWrite (s : State) (a : Nat) (b : Byte) : State :=
  if s.inMemory a then s.setMemory (Memory.write s.memory a b) else s

/-- `Reset(cfg)`: all state to its reset value and the Configuration latched (R280, R281). What the host will answer on
the ports is the host's and stays (R38 (e)). -/
def State.hostReset (s : State) (c : Configuration) : State :=
  { State.resetWith c with answers := s.answers }

/-- The host schedules a sample of the random port (R225). -/
def State.answerRnd (s : State) (b : Byte) : State :=
  { s with answers := { s.answers with rnd := s.answers.rnd ++ [b] } }

/-- The host schedules a result of the non-blocking key port (R223). -/
def State.answerPoll (s : State) (k : Key) : State :=
  { s with answers := { s.answers with poll := s.answers.poll ++ [k] } }

/-- The host answers the blocking key port (R224). -/
def State.answerWait (s : State) (k : Key) : State :=
  { s with answers := { s.answers with wait := s.answers.wait ++ [k] } }

/-- The host operations of R231. The port answers are given before the step that asks for them. -/
inductive HostOp where
  | reset (c : Configuration)
  | hostWrite (a : Nat) (b : Byte)
  | pushKey (k : Key)
  | timerTick
  | step
  | answerRnd (b : Byte)
  | answerPoll (k : Key)
  | answerWait (k : Key)
  deriving DecidableEq, Repr

/-- One transition of the system of core and host (R220, R231). -/
def hostStep (op : HostOp) (s : State) : Out :=
  match op with
  | .reset c => if c.WellFormed then .next (s.hostReset c) else .refused .illFormedConfiguration
  | .hostWrite a b => .next (s.hostWrite a b)
  | .pushKey k => .next (s.pushKey k)
  | .timerTick => .next s.timerTick
  | .step => step s
  | .answerRnd b => .next (s.answerRnd b)
  | .answerPoll k => .next (s.answerPoll k)
  | .answerWait k => .next (s.answerWait k)

/-- A run: the host's operations in order, stopping at the first that has no next state (R220). -/
def runHost : List HostOp → State → Out
  | [], s => .next s
  | op :: ops, s =>
    match hostStep op s with
    | .next t => runHost ops t
    | .fault f => .fault f
    | .refused r => .refused r

/-! ## Loads (R227, R285, R286) -/

/-- HostWrites of bytes at ascending addresses. -/
def State.loadBytes (s : State) (a : Nat) : List Byte → State
  | [] => s
  | b :: bs => State.loadBytes (s.hostWrite a b) (a + 1) bs

/-- Program load at `programAddress`; one that does not fit is outside the spec (R227, R286). -/
def State.loadProgram (s : State) (prog : List Byte) : Out :=
  if s.cfg.programAddress + prog.length ≤ s.cfg.memorySize then
    .next (s.loadBytes s.cfg.programAddress prog)
  else .refused .loadDoesNotFit

/-- Font load at `fontAddress`; the caller guarantees that the table fits (R227, R286). -/
def State.loadFont (s : State) (font : List Byte) : Out :=
  if s.cfg.fontAddress + font.length ≤ s.cfg.memorySize then
    .next (s.loadBytes s.cfg.fontAddress font)
  else .refused .loadDoesNotFit

/-! ## Outputs (R228 to R230) -/

/-- `fault_valid` (R228). -/
def State.faultValid (s : State) : Bool := s.fault.isSome

/-- `fault_cause`: the code of the recorded cause (R228, R252). Without a fault it is 0, a DESIGN CHOICE: the spec gives it no value
then (notes/assumptions/15.md). -/
def State.faultCauseCode (s : State) : BitVec 3 :=
  match s.fault with
  | none => 0
  | some f => f.cause.code

/-- `fault_pc` (R228); no value without a fault, where the spec gives none (notes/assumptions/15.md). -/
def State.faultPc (s : State) : Option Word := s.fault.map FaultRecord.pc0

/-- `fault_word` (R228); no value without a fault, where the spec gives none (notes/assumptions/15.md). -/
def State.faultWord (s : State) : Option Word := s.fault.map FaultRecord.word

/-- `fault_addr` (R228); no value without a fault, where the spec gives none (notes/assumptions/15.md). -/
def State.faultAddr (s : State) : Option (BitVec 17) := s.fault.map FaultRecord.addr

/-- `disp_rdata` for the cell at column `x`, row `y` (R229). Outside the display it is 0, a DESIGN CHOICE: the spec speaks only of reading a
cell (notes/assumptions/15.md). -/
def State.displayRead (s : State) (x y : Nat) : BitVec 1 := BitVec.ofBool (s.pixel x y)

/-- `sound_timer` (R230). -/
def State.soundTimerOut (s : State) : Byte := s.soundTimer

/-- `delay_timer` (R230). -/
def State.delayTimerOut (s : State) : Byte := s.delayTimer

/-- `key_wait_req`: the step requested at `s` is an FX0A under `GET_KEY` (R224). -/
def State.keyWaitReq (s : State) : Bool :=
  decide (s.halted = false ∧ s.fetchInBounds ∧ s.cfg.keyMode = .getKey)
    && match decodeWord s.instrWord with
      | some (.ldKey _) => true
      | _ => false

end Sys2Proof.Machine
end

