-- ==== Sys2Proof/Safety.lean ====
section
/-! DEFINITION. The terms claims use: a core ready to execute, what an instruction leaves alone, the invariant of every
reachable state, and a finished program. -/

namespace Sys2Proof.Machine

/-- No fault is recorded, the Configuration is well-formed and the fetch is in range: the step runs the word at `pc`
(spec/30_encoding.md R102). -/
structure State.Ready (s : State) : Prop where
  noFault : s.fault = none
  wellFormed : s.cfg.WellFormed
  fetch : s.fetchInBounds

/-- `t` agrees with `s` on everything but `pc` and the registers of a list. An instruction that changes more is stated against
`s` with those fields already changed. Memory is compared byte by byte. -/
structure AgreeBut (regs : List Reg) (s t : State) : Prop where
  reg : ∀ r, r ∉ regs → t.reg r = s.reg r
  i : t.i = s.i
  stack : t.stack = s.stack
  sp : t.sp = s.sp
  delayTimer : t.delayTimer = s.delayTimer
  soundTimer : t.soundTimer = s.soundTimer
  memory : ∀ a, Memory.read t.memory a = Memory.read s.memory a
  display : t.display = s.display
  key : t.key = s.key
  cfg : t.cfg = s.cfg
  fault : t.fault = s.fault
  answers : t.answers = s.answers

/-- Every word a mask and match select decodes to the instruction its fields make (spec/30_encoding.md R99). -/
def EncodedAs (mask pattern : Word) (build : Word → Instr) : Prop :=
  ∀ w : Word, w &&& mask = pattern → decodeWord w = some (build w)

/-- The invariant of every reachable state: the Configuration is well-formed (R7); memory and display are in canonical form and
inside their bounds (R31, R32, R60); the stack has `stackSize` entries and `0 <= sp <= stackSize` (R27, R28); every pushed
return address is a post-increment `pc`; and `pc` has not wrapped (R24). -/
structure State.Inv (s : State) : Prop where
  wellFormed : s.cfg.WellFormed
  memoryWf : Memory.wf s.memory
  memoryBound : ∀ c ∈ s.memory, c.1 < s.cfg.memorySize
  displayWf : Display.wf s.display
  displayBound : ∀ n ∈ s.display, n < s.cfg.displayWidth * s.cfg.displayHeight
  stackLength : s.stack.length = s.cfg.stackSize
  spBound : s.sp ≤ s.cfg.stackSize
  returns : ∀ k, k < s.sp → 2 ≤ (s.stackAt k).toNat ∧ (s.stackAt k).toNat ≤ s.cfg.memorySize
  pcBound : s.pc.toNat ≤ max (s.cfg.memorySize + 2) 0x10FE

/-- A state some run reaches: from a reset with a well-formed Configuration, by host operations and steps (R220, R286). -/
inductive Reachable : State → Prop where
  | reset (c : Configuration) : c.WellFormed → Reachable (State.resetWith c)
  | op (o : HostOp) (s t : State) : Reachable s → hostStep o s = .next t → Reachable t

/-- A finished program: `pc` holds the address of a `1NNN` whose `NNN` is that address, and no fault is recorded (R293). -/
structure State.Finished (s : State) : Prop where
  ready : s.Ready
  selfJump : ∃ nnn, decodeWord s.instrWord = some (.jp nnn) ∧ zextAddr nnn = s.pc

/-- A safe run: every operation of the schedule has a next state and none of them records a fault. -/
def SafeRun : List HostOp → State → Prop
  | [], s => s.fault = none
  | op :: ops, s => s.fault = none ∧ ∃ t, hostStep op s = .next t ∧ SafeRun ops t

end Sys2Proof.Machine
end

