-- ==== Sys2Proof/Certificates/Slice0/Obligations.lean ====
section
/-! DEFINITION. The statements for the provers, each with the rule of spec/ it formalises. -/

open Sys2Proof Sys2Proof.Machine

/-! ## Encoding, decoding and the step -/

/-- Decode and encode agree (spec/30_encoding.md R92, R93, R99): the bytes of every well-formed instruction, with any bytes after
them, decode to that instruction and leave those bytes. -/
def Obligations.EncodedInstructionDecodesBack : Prop :=
  ∀ (i : Instr) (rest : List Byte), i.wellFormed = true →
    decode (encodeBytes i ++ rest) = .ok (i, rest)

/-- A decoded instruction is well-formed, and its encoding is the word with the ignored fields cleared: `X` of 0x0XE0 and 0x0XEE
(R96), `N` of families 5 and 9 (R97); every other word comes back whole. Rests on the spec's own D12, D13 (notes/assumptions/11.md). -/
def Obligations.DecodedWordEncodesBackUpToIgnoredBits : Prop :=
  ∀ (w : Word) (i : Instr), decodeWord w = some i →
    i.wellFormed = true ∧
    encode i =
      if fieldF w = 0x0 ∧ (fieldNN w = 0xE0 ∨ fieldNN w = 0xEE) then w &&& 0xF0FF
      else if fieldF w = 0x5 ∨ fieldF w = 0x9 then w &&& 0xFFF0
      else w

/-- The two-level dispatch of R95 to R98 is first-match on the masks of spec/opcode_table.json (R99, R100).
Rests on the spec's own D12, D13 (notes/assumptions/11.md). -/
def Obligations.DispatchIsFirstMatchOfOpcodeTable : Prop :=
  ∀ w : Word, decodeWord w = firstMatch opcodeTable w

/-- Unknown opcodes (R98): which words they are, how many in each family, and that a step on one advances `pc` by 2, changes nothing
else, raises no fault and emits the event. Rests on the spec's own D12, D13, D14 (notes/assumptions/11.md). -/
def Obligations.UnknownOpcodeIsTwoByteNoOp : Prop :=
  (∀ w : Word, decodeWord w = none ↔
    (fieldF w = 0x8 ∧ (8 ≤ (fieldN w).toNat ∧ fieldN w ≠ 0xE)) ∨
    (fieldF w = 0xE ∧ fieldNN w ≠ 0x9E ∧ fieldNN w ≠ 0xA1) ∨
    (fieldF w = 0xF ∧ fieldNN w ≠ 0x07 ∧ fieldNN w ≠ 0x0A ∧ fieldNN w ≠ 0x15 ∧ fieldNN w ≠ 0x18 ∧
      fieldNN w ≠ 0x1E ∧ fieldNN w ≠ 0x29 ∧ fieldNN w ≠ 0x33 ∧ fieldNN w ≠ 0x55 ∧ fieldNN w ≠ 0x65)) ∧
  (List.range 4096).countP (fun k => (decodeWord (BitVec.ofNat 16 (0x8000 + k))).isNone) = 1792 ∧
  (List.range 4096).countP (fun k => (decodeWord (BitVec.ofNat 16 (0xE000 + k))).isNone) = 4064 ∧
  (List.range 4096).countP (fun k => (decodeWord (BitVec.ofNat 16 (0xF000 + k))).isNone) = 3952 ∧
  ∀ s : State, s.Ready → decodeWord s.instrWord = none →
    ∃ t, step s = .next t ∧ t.pc = s.pc + 2 ∧ AgreeBut [] s t ∧
      s.unknownOpcodeEvent = some { pc0 := s.pc, word := s.instrWord }

/-- Words written out from the patterns of R99 decode to the instructions they stand for. -/
def Obligations.SpecPatternsDecode : Prop :=
  decodeWord 0b0000000011100000#16 = some .cls ∧ decodeWord 0b0000000011101110#16 = some .ret ∧
  decodeWord 0b0000000100100011#16 = some (.sys 0x123) ∧ decodeWord 0b0010001100000000#16 = some (.call 0x300) ∧
  decodeWord 0b0110101000101100#16 = some (.ldImm 10 0x2C) ∧ decodeWord 0b1000000000011110#16 = some (.shl 0 1) ∧
  decodeWord 0b1101000000010101#16 = some (.drw 0 1 5) ∧ decodeWord 0b1110001110100001#16 = some (.sknp 3) ∧
  decodeWord 0b1111001101010101#16 = some (.storeRegs 3) ∧ decodeWord 0b1000000100101000#16 = none

/-- One step of a ready core is `exec` of the instruction the two bytes at `pc` decode to (R61, R91, R102). -/
def Obligations.StepRunsDecodedInstruction : Prop :=
  ∀ (s : State) (i : Instr), s.fault = none → s.cfg.WellFormed → s.pc.toNat + 1 < s.cfg.memorySize →
    decode [Memory.read s.memory s.pc.toNat, Memory.read s.memory (s.pc.toNat + 1)] = .ok (i, []) →
    step s = exec i s

/-! ## Faults -/

/-- `FetchOutOfBounds` (R254): a step records it exactly when `pc > memorySize - 2`, with `pc0` the out-of-range `pc`; nothing else
changes. Rests on the spec's own D9 (notes/assumptions/11.md). -/
def Obligations.FetchFaultsExactlyPastMemorySizeMinusTwo : Prop :=
  ∀ s : State, s.fault = none → s.cfg.WellFormed →
    (s.pc.toNat > s.cfg.memorySize - 2 ↔
      ∃ t f, step s = .next t ∧ t.fault = some f ∧ f.cause = .fetchOutOfBounds) ∧
    (s.pc.toNat > s.cfg.memorySize - 2 →
      ∃ t f, step s = .next t ∧ t = { s with fault := some f } ∧ f.cause.code = 1 ∧ f.pc0 = s.pc ∧ f.word = 0 ∧
        f.addr.toNat = s.pc.toNat + 1)

/-- Fault entry is precise (R253): the step changes the fault register only, the record names the instruction's own address, and no
diagnostic event is emitted. Rests on the spec's own D10 (notes/assumptions/11.md). -/
def Obligations.FaultingStepChangesOnlyFaultRegister : Prop :=
  ∀ (s t : State) (f : FaultRecord), s.fault = none → step s = .next t → t.fault = some f →
    t = { s with fault := some f } ∧ t.pc = s.pc ∧ f.pc0 = s.pc ∧ s.unknownOpcodeEvent = none

/-- Which record a step leaves (R252, R255, R256, R257): the table of causes, with the condition of each.
Rests on the spec's own D9 (notes/assumptions/11.md). -/
def Obligations.FaultRecordsFollowCauseTable : Prop :=
  FaultCause.code .fetchOutOfBounds = 1 ∧ FaultCause.code .stackOverflow = 2 ∧
  FaultCause.code .stackUnderflow = 3 ∧ FaultCause.code .outOfBounds = 4 ∧
  ∀ (s : State) (f : FaultRecord), s.fault = none → s.cfg.WellFormed →
    ((∃ t, step s = .next t ∧ t.fault = some f) ↔
      (¬ s.fetchInBounds ∧ f = ⟨.fetchOutOfBounds, s.pc, 0, BitVec.ofNat 17 (s.pc.toNat + 1)⟩) ∨
      (s.fetchInBounds ∧ (∃ nnn, decodeWord s.instrWord = some (.call nnn)) ∧ s.cfg.stackSize ≤ s.sp ∧
        f = ⟨.stackOverflow, s.pc, s.instrWord, 0⟩) ∨
      (s.fetchInBounds ∧ decodeWord s.instrWord = some .ret ∧ s.sp = 0 ∧
        f = ⟨.stackUnderflow, s.pc, s.instrWord, 0⟩) ∨
      (s.fetchInBounds ∧ ∃ last : Nat,
        ((∃ x y n, decodeWord s.instrWord = some (.drw x y n) ∧
            1 ≤ min n.toNat (s.cfg.displayHeight - (s.reg y).toNat % s.cfg.displayHeight) ∧
            last = min n.toNat (s.cfg.displayHeight - (s.reg y).toNat % s.cfg.displayHeight) - 1) ∨
          (∃ x, decodeWord s.instrWord = some (.ldBcd x) ∧ last = 2) ∨
          (∃ x, decodeWord s.instrWord = some (.storeRegs x) ∧ last = x.val) ∨
          (∃ x, decodeWord s.instrWord = some (.loadRegs x) ∧ last = x.val)) ∧
        s.cfg.memorySize ≤ s.i.toNat + last ∧
        f = ⟨.outOfBounds, s.pc, s.instrWord, BitVec.ofNat 17 (s.i.toNat + last)⟩))

/-- The halted core (R259): a step request changes nothing; every other host operation but Reset is still allowed and keeps the
record; Reset clears it and everything else. Rests on the spec's own D10 (notes/assumptions/11.md).
That a HostWrite outside memory is among the operations with a next state is the model's choice: R227 says the port ignores it and the
model has no such move (DESIGN CHOICE, notes/assumptions/9.md). That Reset keeps the host's scheduled answers is the model's too
(DESIGN CHOICE, notes/assumptions/3.md). -/
def Obligations.HaltedCoreStaysHaltedUntilReset : Prop :=
  ∀ (s : State) (f : FaultRecord), s.fault = some f →
    step s = .next s ∧
    (∀ op : HostOp, (∀ c, op ≠ .reset c) → ∃ t, hostStep op s = .next t ∧ t.fault = some f) ∧
    (∀ c : Configuration, c.WellFormed → ∃ t, hostStep (.reset c) s = .next t ∧ t.fault = none ∧
      t = { State.resetWith c with answers := s.answers })

/-! ## Family 0 -/

/-- 0NNN (R121): every family-0 word whose low byte is neither 0xE0 nor 0xEE; a no-op but for the advance of `pc`, no fault and no
`UnknownOpcode` event. -/
def Obligations.SysOnlyAdvancesPc : Prop :=
  (∀ w : Word, w &&& 0xF000 = 0x0000 → fieldNN w ≠ 0xE0 → fieldNN w ≠ 0xEE →
    decodeWord w = some (.sys (fieldNNN w))) ∧
  (∀ (s : State) (nnn : Addr12), ∃ t, exec (.sys nnn) s = .next t ∧ t.pc = s.pc + 2 ∧ AgreeBut [] s t) ∧
  (∀ (s : State) (nnn : Addr12), decodeWord s.instrWord = some (.sys nnn) → s.unknownOpcodeEvent = none)

/-- 00E0 (R122): every display cell is 0 afterwards; `memory`, `i` and the registers are untouched.
Rests on the spec's own G1 (the pattern) (notes/assumptions/11.md).
That a place outside the display reads as
0 is the model's choice (notes/assumptions/15.md). -/
def Obligations.ClsClearsEveryCell : Prop :=
  EncodedAs 0xF0FF 0x00E0 (fun _ => .cls) ∧
  ∀ s : State, ∃ t, exec .cls s = .next t ∧ t.pc = s.pc + 2 ∧ (∀ x y, t.pixel x y = false) ∧
    AgreeBut [] { s with display := t.display } t

/-- 00EE (R123): `sp` is decremented and `pc` gets `stack[sp]`, the entry staying as it is; with an empty stack, StackUnderflow.
Rests on the spec's own D9 (notes/assumptions/11.md). -/
def Obligations.RetPopsReturnAddressOrUnderflows : Prop :=
  EncodedAs 0xF0FF 0x00EE (fun _ => .ret) ∧
  (∀ s : State, s.sp ≠ 0 → ∃ t, exec .ret s = .next t ∧ t.sp = s.sp - 1 ∧ t.pc = s.stackAt (s.sp - 1) ∧
    AgreeBut [] { s with sp := s.sp - 1 } t) ∧
  (∀ s : State, s.sp = 0 →
    exec .ret s = .next { s with fault := some ⟨.stackUnderflow, s.pc, s.instrWord, 0⟩ })

/-! ## Jumps and calls -/

/-- 1NNN (R131): `pc` gets `NNN`, zero-extended. Rests on the spec's own G2 (notes/assumptions/11.md). -/
def Obligations.JpLoadsAddress : Prop :=
  EncodedAs 0xF000 0x1000 (fun w => .jp (fieldNNN w)) ∧
  ∀ (s : State) (nnn : Addr12), ∃ t, exec (.jp nnn) s = .next t ∧ t.pc.toNat = nnn.toNat ∧ AgreeBut [] s t

/-- 2NNN (R132): the post-increment `pc` is stored at `stack[sp]`, `sp` is incremented and `pc` gets `NNN`; with a full stack,
StackOverflow. The stack has `stackSize` entries (R27), an invariant of its own statement.
Rests on the spec's own D6, D9 (notes/assumptions/11.md). -/
def Obligations.CallPushesReturnAddressOrOverflows : Prop :=
  EncodedAs 0xF000 0x2000 (fun w => .call (fieldNNN w)) ∧
  (∀ (s : State) (nnn : Addr12), s.stack.length = s.cfg.stackSize → s.sp < s.cfg.stackSize →
    ∃ t, exec (.call nnn) s = .next t ∧ t.stackAt s.sp = s.pc + 2 ∧ (∀ k, k ≠ s.sp → t.stackAt k = s.stackAt k) ∧
      t.stack.length = s.stack.length ∧ t.sp = s.sp + 1 ∧ t.pc.toNat = nnn.toNat ∧
      AgreeBut [] { s with sp := t.sp, stack := t.stack } t) ∧
  (∀ (s : State) (nnn : Addr12), s.cfg.stackSize ≤ s.sp →
    exec (.call nnn) s = .next { s with fault := some ⟨.stackOverflow, s.pc, s.instrWord, 0⟩ })

/-- BNNN (R133): `pc` gets `NNN` plus `v[0]`, or plus the register of `NNN`'s high nibble under `JUMP_VX_OFFSET`, unreduced. -/
def Obligations.JpV0AddsOffsetRegister : Prop :=
  EncodedAs 0xF000 0xB000 (fun w => .jpV0 (fieldNNN w)) ∧
  ∀ (s : State) (nnn : Addr12), ∃ t, exec (.jpV0 nnn) s = .next t ∧ AgreeBut [] s t ∧
    (s.cfg.quirks.jumpVxOffset = false → t.pc.toNat = nnn.toNat + (s.reg 0).toNat) ∧
    (s.cfg.quirks.jumpVxOffset = true →
      ∀ x : Reg, x.val = nnn.toNat / 256 → t.pc.toNat = nnn.toNat + (s.reg x).toNat)

/-! ## Skips -/

/-- 3XNN, 4XNN, 5XY0, 9XY0 (R141 to R144): `pc0 + 4` when the comparison holds, `pc0 + 2` when not; nothing but `pc` is written.
Rests on the spec's own D13, D16 (notes/assumptions/11.md). -/
def Obligations.SkipsCompareRegisters : Prop :=
  EncodedAs 0xF000 0x3000 (fun w => .seImm (fieldX w) (fieldNN w)) ∧
  EncodedAs 0xF000 0x4000 (fun w => .sneImm (fieldX w) (fieldNN w)) ∧
  EncodedAs 0xF000 0x5000 (fun w => .seReg (fieldX w) (fieldY w)) ∧
  EncodedAs 0xF000 0x9000 (fun w => .sneReg (fieldX w) (fieldY w)) ∧
  ∀ (s : State) (x y : Reg) (nn : Byte),
    (∃ t, exec (.seImm x nn) s = .next t ∧ t.pc = (if s.reg x = nn then s.pc + 4 else s.pc + 2) ∧ AgreeBut [] s t) ∧
    (∃ t, exec (.sneImm x nn) s = .next t ∧ t.pc = (if s.reg x = nn then s.pc + 2 else s.pc + 4) ∧ AgreeBut [] s t) ∧
    (∃ t, exec (.seReg x y) s = .next t ∧ t.pc = (if s.reg x = s.reg y then s.pc + 4 else s.pc + 2) ∧
      AgreeBut [] s t) ∧
    (∃ t, exec (.sneReg x y) s = .next t ∧ t.pc = (if s.reg x = s.reg y then s.pc + 2 else s.pc + 4) ∧
      AgreeBut [] s t)

/-! ## Immediate loads, immediate add, random -/

/-- 6XNN (R151): `v[X]` gets `NN`. Rests on the spec's own G9 (notes/assumptions/11.md). -/
def Obligations.LdImmLoadsByte : Prop :=
  EncodedAs 0xF000 0x6000 (fun w => .ldImm (fieldX w) (fieldNN w)) ∧
  ∀ (s : State) (x : Reg) (nn : Byte), ∃ t, exec (.ldImm x nn) s = .next t ∧ t.reg x = nn ∧ t.pc = s.pc + 2 ∧
    AgreeBut [x] s t

/-- 7XNN (R152): `v[X]` gets `(v[X] + NN) mod 256`; VF is not written unless it is `v[X]`. Rests on the spec's own G9
(notes/assumptions/11.md). -/
def Obligations.AddImmWrapsWithoutFlag : Prop :=
  EncodedAs 0xF000 0x7000 (fun w => .addImm (fieldX w) (fieldNN w)) ∧
  ∀ (s : State) (x : Reg) (nn : Byte), ∃ t, exec (.addImm x nn) s = .next t ∧
    (t.reg x).toNat = ((s.reg x).toNat + nn.toNat) % 256 ∧ t.pc = s.pc + 2 ∧ AgreeBut [x] s t

/-- ANNN (R153): `i` gets `NNN`, zero-extended. Rests on the spec's own G8 (notes/assumptions/11.md). -/
def Obligations.LdILoadsAddress : Prop :=
  EncodedAs 0xF000 0xA000 (fun w => .ldI (fieldNNN w)) ∧
  ∀ (s : State) (nnn : Addr12), ∃ t, exec (.ldI nnn) s = .next t ∧ t.i.toNat = nnn.toNat ∧ t.pc = s.pc + 2 ∧
    AgreeBut [] { s with i := t.i } t

/-- CXNN (R154): `v[X]` gets a sample of the random port, masked by `NN`; every byte is a possible sample; one sample is taken, and
no other instruction takes one. The sample is the host's scheduled answer or, without one, a free value: the clause `∃ r` holds
whatever that value is (the model's form of the port, notes/assumptions/3.md). -/
def Obligations.RndMasksOneRandomSample : Prop :=
  EncodedAs 0xF000 0xC000 (fun w => .rnd (fieldX w) (fieldNN w)) ∧
  (∀ (s : State) (x : Reg) (nn : Byte), ∃ t, exec (.rnd x nn) s = .next t ∧ (∃ r : Byte, t.reg x = r &&& nn) ∧
    t.reg x &&& ~~~nn = 0 ∧
    t.pc = s.pc + 2 ∧ t.answers = { s.answers with rnd := s.answers.rnd.tail, rndTaken := s.answers.rndTaken + 1 } ∧
    AgreeBut [x] { s with answers := t.answers } t) ∧
  (∀ (s : State) (x : Reg) (nn r : Byte) (rest : List Byte), s.answers.rnd = r :: rest →
    ∃ t, exec (.rnd x nn) s = .next t ∧ t.reg x = r &&& nn) ∧
  (∀ (s t : State) (i : Instr), exec i s = .next t → (∀ x nn, i ≠ .rnd x nn) →
    t.answers.rnd = s.answers.rnd ∧ t.answers.rndTaken = s.answers.rndTaken)

/-- 6XNN then 7XNN' (R150): the sum modulo 256, VF unchanged when `X` is not 15. -/
def Obligations.LoadThenAddGivesSum : Prop :=
  ∀ (s : State) (x : Reg) (nn nn' : Byte), ∃ t u, exec (.ldImm x nn) s = .next t ∧ exec (.addImm x nn') t = .next u ∧
    (u.reg x).toNat = (nn.toNat + nn'.toNat) % 256 ∧ (x ≠ 15 → u.reg 15 = s.reg 15)

/-! ## ALU -/

/-- 8XY0 (R162): `v[X]` gets `v[Y]`. Rests on the spec's own D16 (notes/assumptions/11.md). -/
def Obligations.LdRegCopies : Prop :=
  EncodedAs 0xF00F 0x8000 (fun w => .ldReg (fieldX w) (fieldY w)) ∧
  ∀ (s : State) (x y : Reg), ∃ t, exec (.ldReg x y) s = .next t ∧ t.reg x = s.reg y ∧ t.pc = s.pc + 2 ∧
    AgreeBut [x] s t

/-- 8XY1, 8XY2, 8XY3 (R163, R164, R165): bitwise or, and, exclusive or, bit by bit; VF is not written unless it is `v[X]`.
Rests on the spec's own D16, D18 (notes/assumptions/11.md). -/
def Obligations.LogicalOpsAreBitwiseWithoutFlag : Prop :=
  EncodedAs 0xF00F 0x8001 (fun w => .orReg (fieldX w) (fieldY w)) ∧
  EncodedAs 0xF00F 0x8002 (fun w => .andReg (fieldX w) (fieldY w)) ∧
  EncodedAs 0xF00F 0x8003 (fun w => .xorReg (fieldX w) (fieldY w)) ∧
  ∀ (s : State) (x y : Reg),
    (∃ t, exec (.orReg x y) s = .next t ∧ t.pc = s.pc + 2 ∧ AgreeBut [x] s t ∧
      ∀ k, k < 8 → (t.reg x).getLsbD k = ((s.reg x).getLsbD k || (s.reg y).getLsbD k)) ∧
    (∃ t, exec (.andReg x y) s = .next t ∧ t.pc = s.pc + 2 ∧ AgreeBut [x] s t ∧
      ∀ k, k < 8 → (t.reg x).getLsbD k = ((s.reg x).getLsbD k && (s.reg y).getLsbD k)) ∧
    (∃ t, exec (.xorReg x y) s = .next t ∧ t.pc = s.pc + 2 ∧ AgreeBut [x] s t ∧
      ∀ k, k < 8 → (t.reg x).getLsbD k = ((s.reg x).getLsbD k ^^ (s.reg y).getLsbD k))

/-- 8XY4 (R166): the sum's low 8 bits in `v[X]`, VF = 1 iff the sum is at least 256, always written, and last, so that with `X = 15`
the carry remains. The value at `X = 15` rests on the write order of R161, the spec's own D15 (notes/assumptions/11.md). -/
def Obligations.AddRegSetsCarry : Prop :=
  EncodedAs 0xF00F 0x8004 (fun w => .addReg (fieldX w) (fieldY w)) ∧
  ∀ (s : State) (x y : Reg), ∃ t, exec (.addReg x y) s = .next t ∧ t.pc = s.pc + 2 ∧
    (x ≠ 15 → (t.reg x).toNat = ((s.reg x).toNat + (s.reg y).toNat) % 256) ∧
    t.reg 15 = (if 256 ≤ (s.reg x).toNat + (s.reg y).toNat then 1 else 0) ∧ AgreeBut [x, 15] s t

/-- 8XY5 (R167): the difference `v[X] - v[Y]` modulo 256 in `v[X]`, then VF = 1 iff there is no borrow, which with `X = 15` is what
remains. The value at `X = 15` rests on the write order of R161, the spec's own D15 (notes/assumptions/11.md). -/
def Obligations.SubSetsNoBorrow : Prop :=
  EncodedAs 0xF00F 0x8005 (fun w => .subReg (fieldX w) (fieldY w)) ∧
  ∀ (s : State) (x y : Reg), ∃ t, exec (.subReg x y) s = .next t ∧ t.pc = s.pc + 2 ∧
    (x ≠ 15 → ((t.reg x).toNat : Int) = ((s.reg x).toNat - (s.reg y).toNat : Int) % 256) ∧
    t.reg 15 = (if (s.reg y).toNat ≤ (s.reg x).toNat then 1 else 0) ∧ AgreeBut [x, 15] s t

/-- 8XY7 (R169): the difference `v[Y] - v[X]` modulo 256 in `v[X]`, then VF = 1 iff there is no borrow.
Rests on the spec's own D17 (notes/assumptions/11.md).
The value at `X = 15` rests on the write order of R161, the spec's own D15 (notes/assumptions/11.md). -/
def Obligations.SubnSetsNoBorrow : Prop :=
  EncodedAs 0xF00F 0x8007 (fun w => .subn (fieldX w) (fieldY w)) ∧
  ∀ (s : State) (x y : Reg), ∃ t, exec (.subn x y) s = .next t ∧ t.pc = s.pc + 2 ∧
    (x ≠ 15 → ((t.reg x).toNat : Int) = ((s.reg y).toNat - (s.reg x).toNat : Int) % 256) ∧
    t.reg 15 = (if (s.reg x).toNat ≤ (s.reg y).toNat then 1 else 0) ∧ AgreeBut [x, 15] s t

/-- 8XY6 (R168): the operand is `v[Y]`, or `v[X]` under `SHIFT_INPLACE`; half of it in `v[X]`, its bit 0 in VF. With `X = 15` the
result is 0. The value at `X = 15` rests on the write order of R161, the spec's own D15 (notes/assumptions/11.md). -/
def Obligations.ShrShiftsRightByOne : Prop :=
  EncodedAs 0xF00F 0x8006 (fun w => .shr (fieldX w) (fieldY w)) ∧
  ∀ (s : State) (x y : Reg) (a : Byte), a = (if s.cfg.quirks.shiftInplace then s.reg x else s.reg y) →
    ∃ t, exec (.shr x y) s = .next t ∧ t.pc = s.pc + 2 ∧
      (x ≠ 15 → (t.reg x).toNat = a.toNat / 2 ∧ (t.reg 15).toNat = a.toNat % 2) ∧
      (x = 15 → t.reg 15 = 0) ∧ AgreeBut [x, 15] s t

/-- 8XYE (R170): the operand is `v[Y]`, or `v[X]` under `SHIFT_INPLACE`; its double modulo 256 in `v[X]`, its bit 7 in VF. With
`X = 15` the result is twice that bit.
The value at `X = 15` rests on the write order of R161, the spec's own D15 (notes/assumptions/11.md). -/
def Obligations.ShlShiftsLeftByOne : Prop :=
  EncodedAs 0xF00F 0x800E (fun w => .shl (fieldX w) (fieldY w)) ∧
  ∀ (s : State) (x y : Reg) (a : Byte), a = (if s.cfg.quirks.shiftInplace then s.reg x else s.reg y) →
    ∃ t, exec (.shl x y) s = .next t ∧ t.pc = s.pc + 2 ∧
      (x ≠ 15 → (t.reg x).toNat = 2 * a.toNat % 256 ∧ (t.reg 15).toNat = a.toNat / 128) ∧
      (x = 15 → (t.reg 15).toNat = 2 * (a.toNat / 128)) ∧ AgreeBut [x, 15] s t

/-- The order of the two writes when register 15 is an operand (R161): the table of final values of `v[15]` with `X = 15`, and that
with `Y = 15` the old `v[15]` is the operand. Rests on the spec's own D15 (notes/assumptions/11.md). -/
def Obligations.FlagWriteOrderWithRegisterFifteen : Prop :=
  ∀ (s : State) (y : Reg) (a : Byte), a = (if s.cfg.quirks.shiftInplace then s.reg 15 else s.reg y) →
    (∃ t, exec (.addReg 15 y) s = .next t ∧ t.reg 15 = if 256 ≤ (s.reg 15).toNat + (s.reg y).toNat then 1 else 0) ∧
    (∃ t, exec (.subReg 15 y) s = .next t ∧ t.reg 15 = if (s.reg y).toNat ≤ (s.reg 15).toNat then 1 else 0) ∧
    (∃ t, exec (.subn 15 y) s = .next t ∧ t.reg 15 = if (s.reg 15).toNat ≤ (s.reg y).toNat then 1 else 0) ∧
    (∃ t, exec (.shr 15 y) s = .next t ∧ t.reg 15 = 0) ∧
    (∃ t, exec (.shl 15 y) s = .next t ∧ (t.reg 15).toNat = 2 * (a.toNat / 128)) ∧
    ∀ x : Reg, x ≠ 15 →
      (∃ t, exec (.addReg x 15) s = .next t ∧ (t.reg x).toNat = ((s.reg x).toNat + (s.reg 15).toNat) % 256) ∧
      (∃ t, exec (.subReg x 15) s = .next t ∧
        ((t.reg x).toNat : Int) = ((s.reg x).toNat - (s.reg 15).toNat : Int) % 256) ∧
      (∃ t, exec (.subn x 15) s = .next t ∧
        ((t.reg x).toNat : Int) = ((s.reg 15).toNat - (s.reg x).toNat : Int) % 256) ∧
      (s.cfg.quirks.shiftInplace = false →
        (∃ t, exec (.shr x 15) s = .next t ∧ (t.reg x).toNat = (s.reg 15).toNat / 2) ∧
        (∃ t, exec (.shl x 15) s = .next t ∧ (t.reg x).toNat = 2 * (s.reg 15).toNat % 256))

/-! ## Draw -/

/-- DXYN (R181, R182): start coordinates taken modulo the display size, the body clipped; each cell of the clipped rectangle is
exclusive-ored with its sprite bit, every other cell unchanged; VF = 1 iff some sprite bit that is 1 meets a lit cell; OutOfBounds
exactly when a row that would be drawn lies outside memory, and then nothing is drawn.
Rests on the spec's own D19 (notes/assumptions/11.md). -/
def Obligations.DrwXorsClippedSprite : Prop :=
  EncodedAs 0xF000 0xD000 (fun w => .drw (fieldX w) (fieldY w) (fieldN w)) ∧
  ∀ (s : State) (x y : Reg) (n : Nibble) (xs ys rows cols : Nat),
    xs = (s.reg x).toNat % s.cfg.displayWidth → ys = (s.reg y).toNat % s.cfg.displayHeight →
    rows = min n.toNat (s.cfg.displayHeight - ys) → cols = min 8 (s.cfg.displayWidth - xs) →
    ((rows = 0 ∨ s.i.toNat + rows - 1 < s.cfg.memorySize) →
      ∃ t, exec (.drw x y n) s = .next t ∧ t.pc = s.pc + 2 ∧
        (∀ r c, r < rows → c < cols →
          t.pixel (xs + c) (ys + r) =
            (s.pixel (xs + c) (ys + r) ^^ (Memory.read s.memory (s.i.toNat + r)).getLsbD (7 - c))) ∧
        (∀ px py, ¬ (xs ≤ px ∧ px < xs + cols ∧ ys ≤ py ∧ py < ys + rows) → t.pixel px py = s.pixel px py) ∧
        ((∃ r c, r < rows ∧ c < cols ∧ (Memory.read s.memory (s.i.toNat + r)).getLsbD (7 - c) = true ∧
            s.pixel (xs + c) (ys + r) = true) → t.reg 15 = 1) ∧
        ((¬ ∃ r c, r < rows ∧ c < cols ∧ (Memory.read s.memory (s.i.toNat + r)).getLsbD (7 - c) = true ∧
            s.pixel (xs + c) (ys + r) = true) → t.reg 15 = 0) ∧
        AgreeBut [15] { s with display := t.display } t) ∧
    (rows ≠ 0 → s.cfg.memorySize ≤ s.i.toNat + rows - 1 →
      exec (.drw x y n) s = .next { s with
        fault := some ⟨.outOfBounds, s.pc, s.instrWord, BitVec.ofNat 17 (s.i.toNat + rows - 1)⟩ })

/-- Drawing the same sprite twice at the same place restores the display (R181). The place is the same when neither coordinate register is
`v[15]`, or, where one is, when the VF of the first draw happens to name the same column or row. VF is then 1 iff some sprite bit inside
the clipped rectangle fell on a cell that was 0 at first: the model's reading, by the Operation, where R181's last corner sentence says
otherwise (DEDUCED, notes/assumptions/10.md). Rests on the spec's own D19 (notes/assumptions/11.md). -/
def Obligations.DrawingTwiceRestoresDisplay : Prop :=
  ∀ (s : State) (x y : Reg) (n : Nibble) (xs ys rows cols : Nat),
    xs = (s.reg x).toNat % s.cfg.displayWidth → ys = (s.reg y).toNat % s.cfg.displayHeight →
    rows = min n.toNat (s.cfg.displayHeight - ys) → cols = min 8 (s.cfg.displayWidth - xs) →
    (rows = 0 ∨ s.i.toNat + rows - 1 < s.cfg.memorySize) →
    ∃ t, exec (.drw x y n) s = .next t ∧
      ((x ≠ 15 ∧ y ≠ 15) ∨
          ((t.reg x).toNat % s.cfg.displayWidth = xs ∧ (t.reg y).toNat % s.cfg.displayHeight = ys) →
        ∃ u, exec (.drw x y n) t = .next u ∧ (∀ px py, u.pixel px py = s.pixel px py) ∧
          (u.reg 15 = 1 ↔ ∃ r c, r < rows ∧ c < cols ∧
            (Memory.read s.memory (s.i.toNat + r)).getLsbD (7 - c) = true ∧ s.pixel (xs + c) (ys + r) = false))

/-- The last sentence of R181's corner case on drawing twice, taken literally: VF = 1 if the sprite has any 1 bit inside the clipped
rectangle. Expected to FAIL: over cells that are already lit, the second draw meets none (notes/assumptions/10.md). -/
def Obligations.DrawingTwiceAlwaysLeavesCollision : Prop :=
  ∀ (s t u : State) (x y : Reg) (n : Nibble) (xs ys rows cols : Nat), s.Inv → x ≠ 15 → y ≠ 15 →
    xs = (s.reg x).toNat % s.cfg.displayWidth → ys = (s.reg y).toNat % s.cfg.displayHeight →
    rows = min n.toNat (s.cfg.displayHeight - ys) → cols = min 8 (s.cfg.displayWidth - xs) →
    exec (.drw x y n) s = .next t → exec (.drw x y n) t = .next u → s.fault = none → u.fault = none →
    (∃ r c, r < rows ∧ c < cols ∧ (Memory.read s.memory (s.i.toNat + r)).getLsbD (7 - c) = true) → u.reg 15 = 1

/-! ## Key input -/

/-- EX9E and EXA1 (R190, R191, R192): the key consulted is the register `key` under `USE_GIVEN_KEY` and one sample of the
non-blocking port under `GET_KEY`; EX9E skips iff it is pressed and equals `v[X]`, EXA1 otherwise. A sample without a scheduled
answer is a free value, and the clause holds whatever it is (the model's form of the port, notes/assumptions/3.md).
Rests on the spec's own D8, D20, D22 (notes/assumptions/11.md). -/
def Obligations.KeySkipsCompareConsultedKey : Prop :=
  EncodedAs 0xF0FF 0xE09E (fun w => .skp (fieldX w)) ∧
  EncodedAs 0xF0FF 0xE0A1 (fun w => .sknp (fieldX w)) ∧
  ∀ (s : State) (x : Reg), ∃ (k : Key) (ans : HostAnswers),
    (s.cfg.keyMode = .useGivenKey → k = s.key ∧ ans = s.answers) ∧
    (s.cfg.keyMode = .getKey → (∀ k' rest, s.answers.poll = k' :: rest → k = k') ∧
      ans = { s.answers with poll := s.answers.poll.tail, pollTaken := s.answers.pollTaken + 1 }) ∧
    (∃ t, exec (.skp x) s = .next t ∧ t.pc = (if k = some (s.reg x) then s.pc + 4 else s.pc + 2) ∧
      t.answers = ans ∧ AgreeBut [] { s with answers := ans } t) ∧
    (∃ t, exec (.sknp x) s = .next t ∧ t.pc = (if k = some (s.reg x) then s.pc + 2 else s.pc + 4) ∧
      t.answers = ans ∧ AgreeBut [] { s with answers := ans } t)

/-- FX0A (R193): under `USE_GIVEN_KEY`, `v[X]` gets `key` at once, or `NOKEY_BYTE`; under `GET_KEY`, the answer of the blocking port,
and without an answer the step does not complete. Rests on the spec's own D8, D21 (notes/assumptions/11.md). -/
def Obligations.LdKeyWaitsForBlockingPort : Prop :=
  EncodedAs 0xF0FF 0xF00A (fun w => .ldKey (fieldX w)) ∧
  (∀ (s : State) (x : Reg), s.cfg.keyMode = .useGivenKey →
    ∃ t, exec (.ldKey x) s = .next t ∧ (∀ k, s.key = some k → t.reg x = k) ∧
      (s.key = none → t.reg x = s.cfg.noKeyByte) ∧ t.pc = s.pc + 2 ∧ AgreeBut [x] s t) ∧
  (∀ (s : State) (x : Reg) (k : Key) (rest : List Key), s.cfg.keyMode = .getKey → s.answers.wait = k :: rest →
    ∃ t, exec (.ldKey x) s = .next t ∧ (∀ b, k = some b → t.reg x = b) ∧ (k = none → t.reg x = s.cfg.noKeyByte) ∧
      t.pc = s.pc + 2 ∧ AgreeBut [x] { s with answers := { s.answers with wait := rest } } t) ∧
  (∀ (s : State) (x : Reg), s.cfg.keyMode = .getKey → s.answers.wait = [] →
    exec (.ldKey x) s = .fault .stuckAwaitingKey)

/-- PushKey (R222): it writes `key` and nothing else; nothing but PushKey and Reset changes `key`; and under `GET_KEY` it has no effect
on any instruction. -/
def Obligations.PushKeyIsInvisibleUnderGetKey : Prop :=
  (∀ (s : State) (k : Key), ∃ t, hostStep (.pushKey k) s = .next t ∧ t = { s with key := k }) ∧
  (∀ (op : HostOp) (s t : State), hostStep op s = .next t → t.key ≠ s.key →
    (∃ k, op = .pushKey k) ∨ ∃ c, op = .reset c) ∧
  (∀ (s : State) (i : Instr) (k : Key), s.cfg.keyMode = .getKey →
    (∀ t, exec i s = .next t → exec i { s with key := k } = .next { t with key := k }) ∧
    (∀ f, exec i s = .fault f → exec i { s with key := k } = .fault f) ∧
    (∀ r, exec i s = .refused r → exec i { s with key := k } = .refused r))

/-! ## Family F -/

/-- FX07, FX15, FX18 (R201, R202, R203): copies between `v[X]` and a timer, with no side effect.
Rests on the spec's own D24 (notes/assumptions/11.md). -/
def Obligations.TimerInstructionsAreCopies : Prop :=
  EncodedAs 0xF0FF 0xF007 (fun w => .ldFromDt (fieldX w)) ∧
  EncodedAs 0xF0FF 0xF015 (fun w => .ldDt (fieldX w)) ∧
  EncodedAs 0xF0FF 0xF018 (fun w => .ldSt (fieldX w)) ∧
  ∀ (s : State) (x : Reg),
    (∃ t, exec (.ldFromDt x) s = .next t ∧ t.reg x = s.delayTimer ∧ t.pc = s.pc + 2 ∧ AgreeBut [x] s t) ∧
    (∃ t, exec (.ldDt x) s = .next t ∧ t.delayTimer = s.reg x ∧ t.pc = s.pc + 2 ∧
      AgreeBut [] { s with delayTimer := s.reg x } t) ∧
    (∃ t, exec (.ldSt x) s = .next t ∧ t.soundTimer = s.reg x ∧ t.pc = s.pc + 2 ∧
      AgreeBut [] { s with soundTimer := s.reg x } t)

/-- FX1E (R204): `i` gets `(i + v[X]) mod 65536`; under `FX1E_OVERFLOW`, VF = 1 iff the new `i` is at least 0x1000, and without the
quirk no register is written. -/
def Obligations.AddIWrapsAndFlagsTwelveBitOverflow : Prop :=
  EncodedAs 0xF0FF 0xF01E (fun w => .addI (fieldX w)) ∧
  ∀ (s : State) (x : Reg), ∃ t, exec (.addI x) s = .next t ∧
    t.i.toNat = (s.i.toNat + (s.reg x).toNat) % 65536 ∧ t.pc = s.pc + 2 ∧
    (s.cfg.quirks.fx1eOverflow = true → t.reg 15 = (if 0x1000 ≤ t.i.toNat then 1 else 0) ∧
      AgreeBut [15] { s with i := t.i } t) ∧
    (s.cfg.quirks.fx1eOverflow = false → AgreeBut [] { s with i := t.i } t)

/-- FX29 (R205): `i` gets the address of glyph `v[X] & 0x0F`, modulo 65536; with a well-formed Configuration the glyph's five bytes
are inside memory and nothing wraps. Rests on the spec's own D31 (the bound) (notes/assumptions/11.md). -/
def Obligations.LdFontPointsAtGlyph : Prop :=
  EncodedAs 0xF0FF 0xF029 (fun w => .ldFont (fieldX w)) ∧
  ∀ (s : State) (x : Reg), ∃ t, exec (.ldFont x) s = .next t ∧
    t.i.toNat = (s.cfg.fontAddress + 5 * ((s.reg x).toNat % 16)) % 65536 ∧ t.pc = s.pc + 2 ∧
    AgreeBut [] { s with i := t.i } t ∧
    (s.cfg.WellFormed → t.i.toNat = s.cfg.fontAddress + 5 * ((s.reg x).toNat % 16) ∧
      t.i.toNat + 4 < s.cfg.memorySize)

/-- FX33 (R206): the hundreds, tens and units digits of `v[X]` at `i`, `i+1`, `i+2`, and no other byte of memory; OutOfBounds when
`i + 2` is outside memory, and then no byte is written. Rests on the spec's own D9 (notes/assumptions/11.md). -/
def Obligations.LdBcdStoresThreeDigits : Prop :=
  EncodedAs 0xF0FF 0xF033 (fun w => .ldBcd (fieldX w)) ∧
  (∀ (s : State) (x : Reg), s.ea 2 < s.cfg.memorySize → ∃ t, exec (.ldBcd x) s = .next t ∧
    (Memory.read t.memory (s.ea 0)).toNat = (s.reg x).toNat / 100 ∧
    (Memory.read t.memory (s.ea 1)).toNat = (s.reg x).toNat / 10 % 10 ∧
    (Memory.read t.memory (s.ea 2)).toNat = (s.reg x).toNat % 10 ∧
    (∀ a, a ≠ s.ea 0 → a ≠ s.ea 1 → a ≠ s.ea 2 → Memory.read t.memory a = Memory.read s.memory a) ∧
    t.pc = s.pc + 2 ∧ AgreeBut [] { s with memory := t.memory } t) ∧
  (∀ (s : State) (x : Reg), s.cfg.memorySize ≤ s.ea 2 →
    exec (.ldBcd x) s = .next { s with
      fault := some ⟨.outOfBounds, s.pc, s.instrWord, BitVec.ofNat 17 (s.ea 2)⟩ })

/-- FX55 (R207): `v[0]` to `v[X]` at `i` to `i+X`, and no other byte of memory; `i` advances by `X + 1` under `FX55_FX65_INC_I`;
OutOfBounds when `i + X` is outside memory, and then no byte is written.
The fault and its record rest on the spec's own D9 and D10
(notes/assumptions/11.md). -/
def Obligations.StoreRegsDumpsRange : Prop :=
  EncodedAs 0xF0FF 0xF055 (fun w => .storeRegs (fieldX w)) ∧
  (∀ (s : State) (x : Reg), s.ea x.val < s.cfg.memorySize → ∃ t, exec (.storeRegs x) s = .next t ∧
    (∀ r : Reg, r ≤ x → Memory.read t.memory (s.ea r.val) = s.reg r) ∧
    (∀ a, (∀ r : Reg, r ≤ x → a ≠ s.ea r.val) → Memory.read t.memory a = Memory.read s.memory a) ∧
    (s.cfg.quirks.fx55Fx65IncI = true → t.i.toNat = (s.i.toNat + x.val + 1) % 65536) ∧
    (s.cfg.quirks.fx55Fx65IncI = false → t.i = s.i) ∧
    t.pc = s.pc + 2 ∧ AgreeBut [] { s with memory := t.memory, i := t.i } t) ∧
  (∀ (s : State) (x : Reg), s.cfg.memorySize ≤ s.ea x.val →
    exec (.storeRegs x) s = .next { s with
      fault := some ⟨.outOfBounds, s.pc, s.instrWord, BitVec.ofNat 17 (s.ea x.val)⟩ })

/-- FX65 (R208): `v[0]` to `v[X]` from `i` to `i+X`, registers above `X` and memory unchanged; `i` advances by `X + 1` under
`FX55_FX65_INC_I`; OutOfBounds when `i + X` is outside memory, and then no register is written.
The fault and its record rest on the spec's own D9 and D10
(notes/assumptions/11.md). -/
def Obligations.LoadRegsLoadsRange : Prop :=
  EncodedAs 0xF0FF 0xF065 (fun w => .loadRegs (fieldX w)) ∧
  (∀ (s : State) (x : Reg), s.ea x.val < s.cfg.memorySize → ∃ t, exec (.loadRegs x) s = .next t ∧
    (∀ r : Reg, r ≤ x → t.reg r = Memory.read s.memory (s.ea r.val)) ∧
    (∀ r : Reg, x < r → t.reg r = s.reg r) ∧
    (s.cfg.quirks.fx55Fx65IncI = true → t.i.toNat = (s.i.toNat + x.val + 1) % 65536) ∧
    (s.cfg.quirks.fx55Fx65IncI = false → t.i = s.i) ∧
    t.pc = s.pc + 2 ∧ AgreeBut (regsUpTo x) { s with i := t.i } t) ∧
  (∀ (s : State) (x : Reg), s.cfg.memorySize ≤ s.ea x.val →
    exec (.loadRegs x) s = .next { s with
      fault := some ⟨.outOfBounds, s.pc, s.instrWord, BitVec.ofNat 17 (s.ea x.val)⟩ })

/-- FX55 then FX65 from the same `i` (R207, R208): whatever the registers held in between, `v[0]` to `v[X]` are restored. -/
def Obligations.RegisterDumpThenLoadRestores : Prop :=
  ∀ (s : State) (x : Reg), s.ea x.val < s.cfg.memorySize →
    ∃ t, exec (.storeRegs x) s = .next t ∧
      ∀ m : State, m.memory = t.memory → m.i = s.i → m.cfg = s.cfg →
        ∃ u, exec (.loadRegs x) m = .next u ∧ ∀ r : Reg, r ≤ x → u.reg r = s.reg r

/-! ## Whole-machine rules -/

/-- Which instructions may change each piece of state (R20 to R34, R60, R64): everything else leaves it alone. -/
def Obligations.EachStateHasOnlyItsNamedWriters : Prop :=
  ∀ (s t : State) (i : Instr), exec i s = .next t →
    t.cfg = s.cfg ∧ t.key = s.key ∧
    (t.delayTimer ≠ s.delayTimer → ∃ x, i = .ldDt x) ∧
    (t.soundTimer ≠ s.soundTimer → ∃ x, i = .ldSt x) ∧
    (t.stack ≠ s.stack → ∃ nnn, i = .call nnn) ∧
    (t.sp ≠ s.sp → i = .ret ∨ ∃ nnn, i = .call nnn) ∧
    (t.display ≠ s.display → i = .cls ∨ ∃ x y n, i = .drw x y n) ∧
    (t.memory ≠ s.memory → ∃ x, i = .ldBcd x ∨ i = .storeRegs x) ∧
    (t.i ≠ s.i → (∃ nnn, i = .ldI nnn) ∨ ∃ x, i = .addI x ∨ i = .ldFont x ∨ i = .storeRegs x ∨ i = .loadRegs x) ∧
    (t.fault ≠ s.fault → i = .ret ∨ (∃ nnn, i = .call nnn) ∨ (∃ x y n, i = .drw x y n) ∨
      ∃ x, i = .ldBcd x ∨ i = .storeRegs x ∨ i = .loadRegs x)

/-- Who may change VF (R22): the seven flag writers, FX1E only under its quirk, and the instructions that name register 15 as their
destination. -/
def Obligations.OnlyFlagWritersOrNamedDestinationChangeVF : Prop :=
  ∀ (s t : State) (i : Instr), exec i s = .next t → t.reg 15 ≠ s.reg 15 →
    (∃ x y, i = .addReg x y ∨ i = .subReg x y ∨ i = .subn x y ∨ i = .shr x y ∨ i = .shl x y) ∨
    (∃ x y n, i = .drw x y n) ∨
    (∃ x, i = .addI x ∧ s.cfg.quirks.fx1eOverflow = true) ∨
    (∃ nn, i = .ldImm 15 nn ∨ i = .addImm 15 nn ∨ i = .rnd 15 nn) ∨
    (∃ y, i = .ldReg 15 y ∨ i = .orReg 15 y ∨ i = .andReg 15 y ∨ i = .xorReg 15 y) ∨
    i = .ldFromDt 15 ∨ i = .ldKey 15 ∨ i = .loadRegs 15

/-- How each step moves `pc` (R25): `pc0` if it faults, else `pc0 + 2`, but for taken skips, jumps, calls and returns.
The conditions of the skips rest on
the spec's own D16 and D20, the `pc` of a fault on D10 (notes/assumptions/11.md), and the polled sample is the model's form of the port
(notes/assumptions/3.md). -/
def Obligations.StepMovesPcAsTable : Prop :=
  ∀ s t : State, s.fault = none → step s = .next t →
    (t.fault ≠ none → t.pc = s.pc) ∧
    (t.fault = none → t.pc =
      match decodeWord s.instrWord with
      | some (.jp nnn) => zextAddr nnn
      | some (.call nnn) => zextAddr nnn
      | some (.jpV0 nnn) =>
        zextAddr nnn + zextByte (if s.cfg.quirks.jumpVxOffset then s.reg (addrHighNibble nnn) else s.reg 0)
      | some .ret => s.stackAt (s.sp - 1)
      | some (.seImm x nn) => if s.reg x = nn then s.pc + 4 else s.pc + 2
      | some (.sneImm x nn) => if s.reg x = nn then s.pc + 2 else s.pc + 4
      | some (.seReg x y) => if s.reg x = s.reg y then s.pc + 4 else s.pc + 2
      | some (.sneReg x y) => if s.reg x = s.reg y then s.pc + 2 else s.pc + 4
      | some (.skp x) => if s.consultKey.1 = some (s.reg x) then s.pc + 4 else s.pc + 2
      | some (.sknp x) => if s.consultKey.1 = some (s.reg x) then s.pc + 2 else s.pc + 4
      | _ => s.pc + 2)

/-- Every step completes but one (R102, R290): with a well-formed Configuration a step has a next state, or is an FX0A under `GET_KEY`
without an answer; and that one completes as soon as the host answers. With an ill-formed Configuration a step is refused, which is
the model's choice (notes/assumptions/5.md). -/
def Obligations.OnlyUnansweredKeyWaitDoesNotComplete : Prop :=
  (∀ s : State, s.fault = none → ¬ s.cfg.WellFormed → step s = .refused .illFormedConfiguration) ∧
  ∀ s : State, s.cfg.WellFormed →
    ((∃ t, step s = .next t) ∨ step s = .fault .stuckAwaitingKey) ∧
    (step s = .fault .stuckAwaitingKey ↔
      s.Ready ∧ s.cfg.keyMode = .getKey ∧ s.answers.wait = [] ∧ ∃ x, decodeWord s.instrWord = some (.ldKey x)) ∧
    (∀ k : Key, ∃ t, step (s.answerWait k) = .next t)

/-- `soundTimer` is written by FX18 and read by no instruction (R30): two states that differ in it only run alike. -/
def Obligations.SoundTimerNeverInfluencesExecution : Prop :=
  ∀ (s : State) (b : Byte),
    (∀ t, step s = .next t → ∃ u, step { s with soundTimer := b } = .next u ∧
      { u with soundTimer := t.soundTimer } = t ∧ (u.soundTimer = b ∨ u.soundTimer = t.soundTimer)) ∧
    (∀ f, step s = .fault f → step { s with soundTimer := b } = .fault f) ∧
    (∀ r, step s = .refused r → step { s with soundTimer := b } = .refused r)

/-- A store is seen by the next fetch (R70): after FX55 the word at any two of the stored addresses is the two stored bytes,
big-endian, whatever `pc` comes to point there. -/
def Obligations.StoredBytesAreFetchedNext : Prop :=
  ∀ (s : State) (x r q : Reg), s.ea x.val < s.cfg.memorySize → q ≤ x → q.val = r.val + 1 →
    ∃ t, exec (.storeRegs x) s = .next t ∧
      ∀ u : State, u.memory = t.memory → u.pc.toNat = s.ea r.val → u.instrWord = s.reg r ++ s.reg q

/-- A call and the return that matches it (R123, R132): from any later state with the same stack and `sp`, `pc` is the address after the
call and `sp` is as it was. -/
def Obligations.ReturnUndoesCall : Prop :=
  ∀ (s : State) (nnn : Addr12), s.stack.length = s.cfg.stackSize → s.sp < s.cfg.stackSize →
    ∃ t, exec (.call nnn) s = .next t ∧
      ∀ m : State, m.stack = t.stack → m.sp = t.sp → ∃ u, exec .ret m = .next u ∧ u.pc = s.pc + 2 ∧ u.sp = s.sp

/-- A finished program is a fixed point (R293): from a self-jump with no fault recorded a step leaves the state unchanged.
Rests on the spec's own D28 (notes/assumptions/11.md). -/
def Obligations.FinishedStateIsFixedPoint : Prop :=
  ∀ s : State, s.Finished → step s = .next s

/-! ## Reset and the host -/

/-- The reset values (R40), after `Reset(c)` in any state: every piece of state the spec names, and the word a core stepped before any load
fetches. That a place outside the display reads as 0 is the model's choice (notes/assumptions/15.md). -/
def Obligations.ResetSetsEveryStateValue : Prop :=
  ∀ (s : State) (c : Configuration), c.WellFormed → ∃ t, hostStep (.reset c) s = .next t ∧
    (∀ r, t.reg r = 0) ∧ t.pc.toNat = c.programAddress ∧ t.i = 0 ∧ t.sp = 0 ∧
    (t.stack.length = c.stackSize ∧ ∀ k, t.stackAt k = 0) ∧ t.delayTimer = 0 ∧ t.soundTimer = 0 ∧
    (∀ a, Memory.read t.memory a = 0) ∧ (∀ x y, t.pixel x y = false) ∧ t.key = none ∧ t.cfg = c ∧ t.fault = none ∧
    t.Ready ∧ decodeWord t.instrWord = some (.sys 0)

/-- TimerTick (R226): each timer goes down by one and stays at 0 at 0; nothing else changes.
Rests on the spec's own D24 (notes/assumptions/11.md). -/
def Obligations.TimerTickCountsDownToZero : Prop :=
  ∀ s : State, ∃ t, hostStep .timerTick s = .next t ∧ t.delayTimer.toNat = s.delayTimer.toNat - 1 ∧
    t.soundTimer.toNat = s.soundTimer.toNat - 1 ∧
    t = { s with delayTimer := t.delayTimer, soundTimer := t.soundTimer }

/-- HostWrite, program load and font load (R227): one byte written; byte `k` of a program that fits goes to `programAddress + k`, and byte
`k` of a font table that fits to `fontAddress + k`, and nothing else changes. That a HostWrite outside memory has a next state, with
nothing changed, is the model's choice: R227 says the port ignores it and the model has no such move (DESIGN CHOICE,
notes/assumptions/9.md). Rests on the spec's own D27 (notes/assumptions/11.md). -/
def Obligations.HostWritesAndLoadsFillMemory : Prop :=
  (∀ (s : State) (a : Nat) (b : Byte), ∃ t, hostStep (.hostWrite a b) s = .next t ∧
    (a < s.cfg.memorySize → Memory.read t.memory a = b) ∧
    (∀ x, (x ≠ a ∨ s.cfg.memorySize ≤ a) → Memory.read t.memory x = Memory.read s.memory x) ∧
    t = { s with memory := t.memory }) ∧
  (∀ (s : State) (prog : List Byte), s.cfg.programAddress + prog.length ≤ s.cfg.memorySize →
    ∃ t, s.loadProgram prog = .next t ∧ t = { s with memory := t.memory } ∧
      ∀ x, Memory.read t.memory x =
        if s.cfg.programAddress ≤ x ∧ x < s.cfg.programAddress + prog.length
        then prog.getD (x - s.cfg.programAddress) 0 else Memory.read s.memory x) ∧
  (∀ (s : State) (font : List Byte), s.cfg.fontAddress + font.length ≤ s.cfg.memorySize →
    ∃ t, s.loadFont font = .next t ∧ t = { s with memory := t.memory } ∧
      ∀ x, Memory.read t.memory x =
        if s.cfg.fontAddress ≤ x ∧ x < s.cfg.fontAddress + font.length
        then font.getD (x - s.cfg.fontAddress) 0 else Memory.read s.memory x)

/-! ## The invariant -/

/-- The invariant holds right after a reset with any well-formed Configuration, and at `State.reset`. -/
def Obligations.ResetStateMeetsInvariant : Prop :=
  (∀ c : Configuration, c.WellFormed → (State.resetWith c).Inv) ∧ State.reset.Inv

/-- Every step keeps the invariant (R24, R27, R28, R31, R32): canonical memory and display inside their bounds, `0 <= sp <= stackSize`, a
stack of `stackSize` entries whose live part holds return addresses, and a `pc` that has not wrapped.
Rests on the spec's own D6, D7, D9 (notes/assumptions/11.md). -/
def Obligations.StepKeepsInvariant : Prop :=
  ∀ s t : State, s.Inv → step s = .next t → t.Inv

/-- Every reachable state meets the invariant, whatever the host does between the steps; so `sp` stays within the stack (R28), `pc` never
exceeds 0xFFFE (R24), and each address of a fetch, a skip or a post-increment is formed without wrap.
Rests on the spec's own D6, D9 (notes/assumptions/11.md).
A HostWrite outside memory, a move of the model only (DESIGN CHOICE, notes/assumptions/9.md), reaches no further state. -/
def Obligations.ReachableStatesMeetInvariant : Prop :=
  ∀ s : State, Reachable s →
    s.Inv ∧ s.sp ≤ s.cfg.stackSize ∧ s.pc.toNat ≤ 0xFFFE ∧
    (s.fetchInBounds → (s.pc + 2).toNat = s.pc.toNat + 2 ∧ (s.pc + 4).toNat = s.pc.toNat + 4)
end

