-- ==== Sys2Proof/Laws/State.lean ====
section
/-! SUPPORT. One lemma per field per update of State, true by rfl, so that no proof unfolds a record update; and the
reads of a register after a write. -/

namespace Sys2Proof.Machine

/-! `State.setReg` -/

@[simp] theorem setReg_v (s : State) (x : Reg) (b : Byte) : (s.setReg x b).v = s.v.set x b := rfl
@[simp] theorem setReg_pc (s : State) (x : Reg) (b : Byte) : (s.setReg x b).pc = s.pc := rfl
@[simp] theorem setReg_i (s : State) (x : Reg) (b : Byte) : (s.setReg x b).i = s.i := rfl
@[simp] theorem setReg_stack (s : State) (x : Reg) (b : Byte) : (s.setReg x b).stack = s.stack := rfl
@[simp] theorem setReg_sp (s : State) (x : Reg) (b : Byte) : (s.setReg x b).sp = s.sp := rfl
@[simp] theorem setReg_delayTimer (s : State) (x : Reg) (b : Byte) : (s.setReg x b).delayTimer = s.delayTimer := rfl
@[simp] theorem setReg_soundTimer (s : State) (x : Reg) (b : Byte) : (s.setReg x b).soundTimer = s.soundTimer := rfl
@[simp] theorem setReg_memory (s : State) (x : Reg) (b : Byte) : (s.setReg x b).memory = s.memory := rfl
@[simp] theorem setReg_display (s : State) (x : Reg) (b : Byte) : (s.setReg x b).display = s.display := rfl
@[simp] theorem setReg_key (s : State) (x : Reg) (b : Byte) : (s.setReg x b).key = s.key := rfl
@[simp] theorem setReg_cfg (s : State) (x : Reg) (b : Byte) : (s.setReg x b).cfg = s.cfg := rfl
@[simp] theorem setReg_fault (s : State) (x : Reg) (b : Byte) : (s.setReg x b).fault = s.fault := rfl
@[simp] theorem setReg_answers (s : State) (x : Reg) (b : Byte) : (s.setReg x b).answers = s.answers := rfl

/-! `State.setFlag` -/

@[simp] theorem setFlag_v (s : State) (c : Bool) : (s.setFlag c).v = s.v.set VF (flagByte c) := rfl
@[simp] theorem setFlag_pc (s : State) (c : Bool) : (s.setFlag c).pc = s.pc := rfl
@[simp] theorem setFlag_i (s : State) (c : Bool) : (s.setFlag c).i = s.i := rfl
@[simp] theorem setFlag_stack (s : State) (c : Bool) : (s.setFlag c).stack = s.stack := rfl
@[simp] theorem setFlag_sp (s : State) (c : Bool) : (s.setFlag c).sp = s.sp := rfl
@[simp] theorem setFlag_delayTimer (s : State) (c : Bool) : (s.setFlag c).delayTimer = s.delayTimer := rfl
@[simp] theorem setFlag_soundTimer (s : State) (c : Bool) : (s.setFlag c).soundTimer = s.soundTimer := rfl
@[simp] theorem setFlag_memory (s : State) (c : Bool) : (s.setFlag c).memory = s.memory := rfl
@[simp] theorem setFlag_display (s : State) (c : Bool) : (s.setFlag c).display = s.display := rfl
@[simp] theorem setFlag_key (s : State) (c : Bool) : (s.setFlag c).key = s.key := rfl
@[simp] theorem setFlag_cfg (s : State) (c : Bool) : (s.setFlag c).cfg = s.cfg := rfl
@[simp] theorem setFlag_fault (s : State) (c : Bool) : (s.setFlag c).fault = s.fault := rfl
@[simp] theorem setFlag_answers (s : State) (c : Bool) : (s.setFlag c).answers = s.answers := rfl

/-! `State.advance` -/

@[simp] theorem advance_v (s : State) : s.advance.v = s.v := rfl
@[simp] theorem advance_pc (s : State) : s.advance.pc = s.pc + 2 := rfl
@[simp] theorem advance_i (s : State) : s.advance.i = s.i := rfl
@[simp] theorem advance_stack (s : State) : s.advance.stack = s.stack := rfl
@[simp] theorem advance_sp (s : State) : s.advance.sp = s.sp := rfl
@[simp] theorem advance_delayTimer (s : State) : s.advance.delayTimer = s.delayTimer := rfl
@[simp] theorem advance_soundTimer (s : State) : s.advance.soundTimer = s.soundTimer := rfl
@[simp] theorem advance_memory (s : State) : s.advance.memory = s.memory := rfl
@[simp] theorem advance_display (s : State) : s.advance.display = s.display := rfl
@[simp] theorem advance_key (s : State) : s.advance.key = s.key := rfl
@[simp] theorem advance_cfg (s : State) : s.advance.cfg = s.cfg := rfl
@[simp] theorem advance_fault (s : State) : s.advance.fault = s.fault := rfl
@[simp] theorem advance_answers (s : State) : s.advance.answers = s.answers := rfl

/-! `State.setIndex` -/

@[simp] theorem setIndex_v (s : State) (a : Word) : (s.setIndex a).v = s.v := rfl
@[simp] theorem setIndex_pc (s : State) (a : Word) : (s.setIndex a).pc = s.pc := rfl
@[simp] theorem setIndex_i (s : State) (a : Word) : (s.setIndex a).i = a := rfl
@[simp] theorem setIndex_stack (s : State) (a : Word) : (s.setIndex a).stack = s.stack := rfl
@[simp] theorem setIndex_sp (s : State) (a : Word) : (s.setIndex a).sp = s.sp := rfl
@[simp] theorem setIndex_delayTimer (s : State) (a : Word) : (s.setIndex a).delayTimer = s.delayTimer := rfl
@[simp] theorem setIndex_soundTimer (s : State) (a : Word) : (s.setIndex a).soundTimer = s.soundTimer := rfl
@[simp] theorem setIndex_memory (s : State) (a : Word) : (s.setIndex a).memory = s.memory := rfl
@[simp] theorem setIndex_display (s : State) (a : Word) : (s.setIndex a).display = s.display := rfl
@[simp] theorem setIndex_key (s : State) (a : Word) : (s.setIndex a).key = s.key := rfl
@[simp] theorem setIndex_cfg (s : State) (a : Word) : (s.setIndex a).cfg = s.cfg := rfl
@[simp] theorem setIndex_fault (s : State) (a : Word) : (s.setIndex a).fault = s.fault := rfl
@[simp] theorem setIndex_answers (s : State) (a : Word) : (s.setIndex a).answers = s.answers := rfl

/-! `State.setDelayTimer` -/

@[simp] theorem setDelayTimer_v (s : State) (b : Byte) : (s.setDelayTimer b).v = s.v := rfl
@[simp] theorem setDelayTimer_pc (s : State) (b : Byte) : (s.setDelayTimer b).pc = s.pc := rfl
@[simp] theorem setDelayTimer_i (s : State) (b : Byte) : (s.setDelayTimer b).i = s.i := rfl
@[simp] theorem setDelayTimer_stack (s : State) (b : Byte) : (s.setDelayTimer b).stack = s.stack := rfl
@[simp] theorem setDelayTimer_sp (s : State) (b : Byte) : (s.setDelayTimer b).sp = s.sp := rfl
@[simp] theorem setDelayTimer_delayTimer (s : State) (b : Byte) : (s.setDelayTimer b).delayTimer = b := rfl
@[simp] theorem setDelayTimer_soundTimer (s : State) (b : Byte) : (s.setDelayTimer b).soundTimer = s.soundTimer := rfl
@[simp] theorem setDelayTimer_memory (s : State) (b : Byte) : (s.setDelayTimer b).memory = s.memory := rfl
@[simp] theorem setDelayTimer_display (s : State) (b : Byte) : (s.setDelayTimer b).display = s.display := rfl
@[simp] theorem setDelayTimer_key (s : State) (b : Byte) : (s.setDelayTimer b).key = s.key := rfl
@[simp] theorem setDelayTimer_cfg (s : State) (b : Byte) : (s.setDelayTimer b).cfg = s.cfg := rfl
@[simp] theorem setDelayTimer_fault (s : State) (b : Byte) : (s.setDelayTimer b).fault = s.fault := rfl
@[simp] theorem setDelayTimer_answers (s : State) (b : Byte) : (s.setDelayTimer b).answers = s.answers := rfl

/-! `State.setSoundTimer` -/

@[simp] theorem setSoundTimer_v (s : State) (b : Byte) : (s.setSoundTimer b).v = s.v := rfl
@[simp] theorem setSoundTimer_pc (s : State) (b : Byte) : (s.setSoundTimer b).pc = s.pc := rfl
@[simp] theorem setSoundTimer_i (s : State) (b : Byte) : (s.setSoundTimer b).i = s.i := rfl
@[simp] theorem setSoundTimer_stack (s : State) (b : Byte) : (s.setSoundTimer b).stack = s.stack := rfl
@[simp] theorem setSoundTimer_sp (s : State) (b : Byte) : (s.setSoundTimer b).sp = s.sp := rfl
@[simp] theorem setSoundTimer_delayTimer (s : State) (b : Byte) : (s.setSoundTimer b).delayTimer = s.delayTimer := rfl
@[simp] theorem setSoundTimer_soundTimer (s : State) (b : Byte) : (s.setSoundTimer b).soundTimer = b := rfl
@[simp] theorem setSoundTimer_memory (s : State) (b : Byte) : (s.setSoundTimer b).memory = s.memory := rfl
@[simp] theorem setSoundTimer_display (s : State) (b : Byte) : (s.setSoundTimer b).display = s.display := rfl
@[simp] theorem setSoundTimer_key (s : State) (b : Byte) : (s.setSoundTimer b).key = s.key := rfl
@[simp] theorem setSoundTimer_cfg (s : State) (b : Byte) : (s.setSoundTimer b).cfg = s.cfg := rfl
@[simp] theorem setSoundTimer_fault (s : State) (b : Byte) : (s.setSoundTimer b).fault = s.fault := rfl
@[simp] theorem setSoundTimer_answers (s : State) (b : Byte) : (s.setSoundTimer b).answers = s.answers := rfl

/-! `State.setMemory` -/

@[simp] theorem setMemory_v (s : State) (m : Memory) : (s.setMemory m).v = s.v := rfl
@[simp] theorem setMemory_pc (s : State) (m : Memory) : (s.setMemory m).pc = s.pc := rfl
@[simp] theorem setMemory_i (s : State) (m : Memory) : (s.setMemory m).i = s.i := rfl
@[simp] theorem setMemory_stack (s : State) (m : Memory) : (s.setMemory m).stack = s.stack := rfl
@[simp] theorem setMemory_sp (s : State) (m : Memory) : (s.setMemory m).sp = s.sp := rfl
@[simp] theorem setMemory_delayTimer (s : State) (m : Memory) : (s.setMemory m).delayTimer = s.delayTimer := rfl
@[simp] theorem setMemory_soundTimer (s : State) (m : Memory) : (s.setMemory m).soundTimer = s.soundTimer := rfl
@[simp] theorem setMemory_memory (s : State) (m : Memory) : (s.setMemory m).memory = m := rfl
@[simp] theorem setMemory_display (s : State) (m : Memory) : (s.setMemory m).display = s.display := rfl
@[simp] theorem setMemory_key (s : State) (m : Memory) : (s.setMemory m).key = s.key := rfl
@[simp] theorem setMemory_cfg (s : State) (m : Memory) : (s.setMemory m).cfg = s.cfg := rfl
@[simp] theorem setMemory_fault (s : State) (m : Memory) : (s.setMemory m).fault = s.fault := rfl
@[simp] theorem setMemory_answers (s : State) (m : Memory) : (s.setMemory m).answers = s.answers := rfl

/-! `State.setDisplay` -/

@[simp] theorem setDisplay_v (s : State) (d : Display) : (s.setDisplay d).v = s.v := rfl
@[simp] theorem setDisplay_pc (s : State) (d : Display) : (s.setDisplay d).pc = s.pc := rfl
@[simp] theorem setDisplay_i (s : State) (d : Display) : (s.setDisplay d).i = s.i := rfl
@[simp] theorem setDisplay_stack (s : State) (d : Display) : (s.setDisplay d).stack = s.stack := rfl
@[simp] theorem setDisplay_sp (s : State) (d : Display) : (s.setDisplay d).sp = s.sp := rfl
@[simp] theorem setDisplay_delayTimer (s : State) (d : Display) : (s.setDisplay d).delayTimer = s.delayTimer := rfl
@[simp] theorem setDisplay_soundTimer (s : State) (d : Display) : (s.setDisplay d).soundTimer = s.soundTimer := rfl
@[simp] theorem setDisplay_memory (s : State) (d : Display) : (s.setDisplay d).memory = s.memory := rfl
@[simp] theorem setDisplay_display (s : State) (d : Display) : (s.setDisplay d).display = d := rfl
@[simp] theorem setDisplay_key (s : State) (d : Display) : (s.setDisplay d).key = s.key := rfl
@[simp] theorem setDisplay_cfg (s : State) (d : Display) : (s.setDisplay d).cfg = s.cfg := rfl
@[simp] theorem setDisplay_fault (s : State) (d : Display) : (s.setDisplay d).fault = s.fault := rfl
@[simp] theorem setDisplay_answers (s : State) (d : Display) : (s.setDisplay d).answers = s.answers := rfl

/-! `State.jump` -/

@[simp] theorem jump_v (s : State) (a : Word) : (s.jump a).v = s.v := rfl
@[simp] theorem jump_pc (s : State) (a : Word) : (s.jump a).pc = a := rfl
@[simp] theorem jump_i (s : State) (a : Word) : (s.jump a).i = s.i := rfl
@[simp] theorem jump_stack (s : State) (a : Word) : (s.jump a).stack = s.stack := rfl
@[simp] theorem jump_sp (s : State) (a : Word) : (s.jump a).sp = s.sp := rfl
@[simp] theorem jump_delayTimer (s : State) (a : Word) : (s.jump a).delayTimer = s.delayTimer := rfl
@[simp] theorem jump_soundTimer (s : State) (a : Word) : (s.jump a).soundTimer = s.soundTimer := rfl
@[simp] theorem jump_memory (s : State) (a : Word) : (s.jump a).memory = s.memory := rfl
@[simp] theorem jump_display (s : State) (a : Word) : (s.jump a).display = s.display := rfl
@[simp] theorem jump_key (s : State) (a : Word) : (s.jump a).key = s.key := rfl
@[simp] theorem jump_cfg (s : State) (a : Word) : (s.jump a).cfg = s.cfg := rfl
@[simp] theorem jump_fault (s : State) (a : Word) : (s.jump a).fault = s.fault := rfl
@[simp] theorem jump_answers (s : State) (a : Word) : (s.jump a).answers = s.answers := rfl

/-! `State.push` -/

@[simp] theorem push_v (s : State) (a : Word) : (s.push a).v = s.v := rfl
@[simp] theorem push_pc (s : State) (a : Word) : (s.push a).pc = s.pc := rfl
@[simp] theorem push_i (s : State) (a : Word) : (s.push a).i = s.i := rfl
@[simp] theorem push_stack (s : State) (a : Word) : (s.push a).stack = s.stack.set s.sp a := rfl
@[simp] theorem push_sp (s : State) (a : Word) : (s.push a).sp = s.sp + 1 := rfl
@[simp] theorem push_delayTimer (s : State) (a : Word) : (s.push a).delayTimer = s.delayTimer := rfl
@[simp] theorem push_soundTimer (s : State) (a : Word) : (s.push a).soundTimer = s.soundTimer := rfl
@[simp] theorem push_memory (s : State) (a : Word) : (s.push a).memory = s.memory := rfl
@[simp] theorem push_display (s : State) (a : Word) : (s.push a).display = s.display := rfl
@[simp] theorem push_key (s : State) (a : Word) : (s.push a).key = s.key := rfl
@[simp] theorem push_cfg (s : State) (a : Word) : (s.push a).cfg = s.cfg := rfl
@[simp] theorem push_fault (s : State) (a : Word) : (s.push a).fault = s.fault := rfl
@[simp] theorem push_answers (s : State) (a : Word) : (s.push a).answers = s.answers := rfl

/-! `State.popToPc` -/

@[simp] theorem popToPc_v (s : State) : s.popToPc.v = s.v := rfl
@[simp] theorem popToPc_pc (s : State) : s.popToPc.pc = s.stackAt (s.sp - 1) := rfl
@[simp] theorem popToPc_i (s : State) : s.popToPc.i = s.i := rfl
@[simp] theorem popToPc_stack (s : State) : s.popToPc.stack = s.stack := rfl
@[simp] theorem popToPc_sp (s : State) : s.popToPc.sp = s.sp - 1 := rfl
@[simp] theorem popToPc_delayTimer (s : State) : s.popToPc.delayTimer = s.delayTimer := rfl
@[simp] theorem popToPc_soundTimer (s : State) : s.popToPc.soundTimer = s.soundTimer := rfl
@[simp] theorem popToPc_memory (s : State) : s.popToPc.memory = s.memory := rfl
@[simp] theorem popToPc_display (s : State) : s.popToPc.display = s.display := rfl
@[simp] theorem popToPc_key (s : State) : s.popToPc.key = s.key := rfl
@[simp] theorem popToPc_cfg (s : State) : s.popToPc.cfg = s.cfg := rfl
@[simp] theorem popToPc_fault (s : State) : s.popToPc.fault = s.fault := rfl
@[simp] theorem popToPc_answers (s : State) : s.popToPc.answers = s.answers := rfl

/-! `State.enterFault` -/

@[simp] theorem enterFault_v (s : State) (c : FaultCause) (w : Word) (a : Nat) : (s.enterFault c w a).v = s.v := rfl
@[simp] theorem enterFault_pc (s : State) (c : FaultCause) (w : Word) (a : Nat) : (s.enterFault c w a).pc = s.pc := rfl
@[simp] theorem enterFault_i (s : State) (c : FaultCause) (w : Word) (a : Nat) : (s.enterFault c w a).i = s.i := rfl
@[simp] theorem enterFault_stack (s : State) (c : FaultCause) (w : Word) (a : Nat) : (s.enterFault c w a).stack = s.stack := rfl
@[simp] theorem enterFault_sp (s : State) (c : FaultCause) (w : Word) (a : Nat) : (s.enterFault c w a).sp = s.sp := rfl
@[simp] theorem enterFault_delayTimer (s : State) (c : FaultCause) (w : Word) (a : Nat) : (s.enterFault c w a).delayTimer = s.delayTimer := rfl
@[simp] theorem enterFault_soundTimer (s : State) (c : FaultCause) (w : Word) (a : Nat) : (s.enterFault c w a).soundTimer = s.soundTimer := rfl
@[simp] theorem enterFault_memory (s : State) (c : FaultCause) (w : Word) (a : Nat) : (s.enterFault c w a).memory = s.memory := rfl
@[simp] theorem enterFault_display (s : State) (c : FaultCause) (w : Word) (a : Nat) : (s.enterFault c w a).display = s.display := rfl
@[simp] theorem enterFault_key (s : State) (c : FaultCause) (w : Word) (a : Nat) : (s.enterFault c w a).key = s.key := rfl
@[simp] theorem enterFault_cfg (s : State) (c : FaultCause) (w : Word) (a : Nat) : (s.enterFault c w a).cfg = s.cfg := rfl
@[simp] theorem enterFault_fault (s : State) (c : FaultCause) (w : Word) (a : Nat) : (s.enterFault c w a).fault = some { cause := c, pc0 := s.pc, word := w, addr := BitVec.ofNat 17 a } := rfl
@[simp] theorem enterFault_answers (s : State) (c : FaultCause) (w : Word) (a : Nat) : (s.enterFault c w a).answers = s.answers := rfl

/-! `State.pushKey` -/

@[simp] theorem pushKey_v (s : State) (k : Key) : (s.pushKey k).v = s.v := rfl
@[simp] theorem pushKey_pc (s : State) (k : Key) : (s.pushKey k).pc = s.pc := rfl
@[simp] theorem pushKey_i (s : State) (k : Key) : (s.pushKey k).i = s.i := rfl
@[simp] theorem pushKey_stack (s : State) (k : Key) : (s.pushKey k).stack = s.stack := rfl
@[simp] theorem pushKey_sp (s : State) (k : Key) : (s.pushKey k).sp = s.sp := rfl
@[simp] theorem pushKey_delayTimer (s : State) (k : Key) : (s.pushKey k).delayTimer = s.delayTimer := rfl
@[simp] theorem pushKey_soundTimer (s : State) (k : Key) : (s.pushKey k).soundTimer = s.soundTimer := rfl
@[simp] theorem pushKey_memory (s : State) (k : Key) : (s.pushKey k).memory = s.memory := rfl
@[simp] theorem pushKey_display (s : State) (k : Key) : (s.pushKey k).display = s.display := rfl
@[simp] theorem pushKey_key (s : State) (k : Key) : (s.pushKey k).key = k := rfl
@[simp] theorem pushKey_cfg (s : State) (k : Key) : (s.pushKey k).cfg = s.cfg := rfl
@[simp] theorem pushKey_fault (s : State) (k : Key) : (s.pushKey k).fault = s.fault := rfl
@[simp] theorem pushKey_answers (s : State) (k : Key) : (s.pushKey k).answers = s.answers := rfl

/-! `State.timerTick` -/

@[simp] theorem timerTick_v (s : State) : s.timerTick.v = s.v := rfl
@[simp] theorem timerTick_pc (s : State) : s.timerTick.pc = s.pc := rfl
@[simp] theorem timerTick_i (s : State) : s.timerTick.i = s.i := rfl
@[simp] theorem timerTick_stack (s : State) : s.timerTick.stack = s.stack := rfl
@[simp] theorem timerTick_sp (s : State) : s.timerTick.sp = s.sp := rfl
@[simp] theorem timerTick_delayTimer (s : State) : s.timerTick.delayTimer = tickTimer s.delayTimer := rfl
@[simp] theorem timerTick_soundTimer (s : State) : s.timerTick.soundTimer = tickTimer s.soundTimer := rfl
@[simp] theorem timerTick_memory (s : State) : s.timerTick.memory = s.memory := rfl
@[simp] theorem timerTick_display (s : State) : s.timerTick.display = s.display := rfl
@[simp] theorem timerTick_key (s : State) : s.timerTick.key = s.key := rfl
@[simp] theorem timerTick_cfg (s : State) : s.timerTick.cfg = s.cfg := rfl
@[simp] theorem timerTick_fault (s : State) : s.timerTick.fault = s.fault := rfl
@[simp] theorem timerTick_answers (s : State) : s.timerTick.answers = s.answers := rfl

/-! `State.withBytesAtPc` -/

@[simp] theorem withBytesAtPc_v (s : State) (bs : List Byte) : (s.withBytesAtPc bs).v = s.v := rfl
@[simp] theorem withBytesAtPc_pc (s : State) (bs : List Byte) : (s.withBytesAtPc bs).pc = s.pc := rfl
@[simp] theorem withBytesAtPc_i (s : State) (bs : List Byte) : (s.withBytesAtPc bs).i = s.i := rfl
@[simp] theorem withBytesAtPc_stack (s : State) (bs : List Byte) : (s.withBytesAtPc bs).stack = s.stack := rfl
@[simp] theorem withBytesAtPc_sp (s : State) (bs : List Byte) : (s.withBytesAtPc bs).sp = s.sp := rfl
@[simp] theorem withBytesAtPc_delayTimer (s : State) (bs : List Byte) : (s.withBytesAtPc bs).delayTimer = s.delayTimer := rfl
@[simp] theorem withBytesAtPc_soundTimer (s : State) (bs : List Byte) : (s.withBytesAtPc bs).soundTimer = s.soundTimer := rfl
@[simp] theorem withBytesAtPc_memory (s : State) (bs : List Byte) : (s.withBytesAtPc bs).memory = Memory.writeBytes s.memory s.pc.toNat bs := rfl
@[simp] theorem withBytesAtPc_display (s : State) (bs : List Byte) : (s.withBytesAtPc bs).display = s.display := rfl
@[simp] theorem withBytesAtPc_key (s : State) (bs : List Byte) : (s.withBytesAtPc bs).key = s.key := rfl
@[simp] theorem withBytesAtPc_cfg (s : State) (bs : List Byte) : (s.withBytesAtPc bs).cfg = s.cfg := rfl
@[simp] theorem withBytesAtPc_fault (s : State) (bs : List Byte) : (s.withBytesAtPc bs).fault = s.fault := rfl
@[simp] theorem withBytesAtPc_answers (s : State) (bs : List Byte) : (s.withBytesAtPc bs).answers = s.answers := rfl

/-! `State.hostReset` -/

@[simp] theorem hostReset_v (s : State) (c : Configuration) : (s.hostReset c).v = Vector.replicate 16 0 := rfl
@[simp] theorem hostReset_pc (s : State) (c : Configuration) : (s.hostReset c).pc = BitVec.ofNat 16 c.programAddress := rfl
@[simp] theorem hostReset_i (s : State) (c : Configuration) : (s.hostReset c).i = 0 := rfl
@[simp] theorem hostReset_stack (s : State) (c : Configuration) : (s.hostReset c).stack = List.replicate c.stackSize 0 := rfl
@[simp] theorem hostReset_sp (s : State) (c : Configuration) : (s.hostReset c).sp = 0 := rfl
@[simp] theorem hostReset_delayTimer (s : State) (c : Configuration) : (s.hostReset c).delayTimer = 0 := rfl
@[simp] theorem hostReset_soundTimer (s : State) (c : Configuration) : (s.hostReset c).soundTimer = 0 := rfl
@[simp] theorem hostReset_memory (s : State) (c : Configuration) : (s.hostReset c).memory = [] := rfl
@[simp] theorem hostReset_display (s : State) (c : Configuration) : (s.hostReset c).display = [] := rfl
@[simp] theorem hostReset_key (s : State) (c : Configuration) : (s.hostReset c).key = none := rfl
@[simp] theorem hostReset_cfg (s : State) (c : Configuration) : (s.hostReset c).cfg = c := rfl
@[simp] theorem hostReset_fault (s : State) (c : Configuration) : (s.hostReset c).fault = none := rfl
@[simp] theorem hostReset_answers (s : State) (c : Configuration) : (s.hostReset c).answers = s.answers := rfl

/-! Updates that depend on a condition -/

@[simp] theorem skipIf_v (s : State) (c : Bool) : (s.skipIf c).v = s.v := by cases c <;> rfl
@[simp] theorem skipIf_i (s : State) (c : Bool) : (s.skipIf c).i = s.i := by cases c <;> rfl
@[simp] theorem skipIf_stack (s : State) (c : Bool) : (s.skipIf c).stack = s.stack := by cases c <;> rfl
@[simp] theorem skipIf_sp (s : State) (c : Bool) : (s.skipIf c).sp = s.sp := by cases c <;> rfl
@[simp] theorem skipIf_delayTimer (s : State) (c : Bool) : (s.skipIf c).delayTimer = s.delayTimer := by cases c <;> rfl
@[simp] theorem skipIf_soundTimer (s : State) (c : Bool) : (s.skipIf c).soundTimer = s.soundTimer := by cases c <;> rfl
@[simp] theorem skipIf_memory (s : State) (c : Bool) : (s.skipIf c).memory = s.memory := by cases c <;> rfl
@[simp] theorem skipIf_display (s : State) (c : Bool) : (s.skipIf c).display = s.display := by cases c <;> rfl
@[simp] theorem skipIf_key (s : State) (c : Bool) : (s.skipIf c).key = s.key := by cases c <;> rfl
@[simp] theorem skipIf_cfg (s : State) (c : Bool) : (s.skipIf c).cfg = s.cfg := by cases c <;> rfl
@[simp] theorem skipIf_fault (s : State) (c : Bool) : (s.skipIf c).fault = s.fault := by cases c <;> rfl
@[simp] theorem skipIf_answers (s : State) (c : Bool) : (s.skipIf c).answers = s.answers := by cases c <;> rfl
@[simp] theorem skipIf_pc (s : State) (c : Bool) : (s.skipIf c).pc = if c then s.pc + 2 else s.pc := by cases c <;> rfl

@[simp] theorem bumpIndex_v (s : State) (x : Reg) : (s.bumpIndex x).v = s.v := by
  unfold State.bumpIndex; split <;> rfl
@[simp] theorem bumpIndex_pc (s : State) (x : Reg) : (s.bumpIndex x).pc = s.pc := by
  unfold State.bumpIndex; split <;> rfl
@[simp] theorem bumpIndex_stack (s : State) (x : Reg) : (s.bumpIndex x).stack = s.stack := by
  unfold State.bumpIndex; split <;> rfl
@[simp] theorem bumpIndex_sp (s : State) (x : Reg) : (s.bumpIndex x).sp = s.sp := by
  unfold State.bumpIndex; split <;> rfl
@[simp] theorem bumpIndex_delayTimer (s : State) (x : Reg) : (s.bumpIndex x).delayTimer = s.delayTimer := by
  unfold State.bumpIndex; split <;> rfl
@[simp] theorem bumpIndex_soundTimer (s : State) (x : Reg) : (s.bumpIndex x).soundTimer = s.soundTimer := by
  unfold State.bumpIndex; split <;> rfl
@[simp] theorem bumpIndex_memory (s : State) (x : Reg) : (s.bumpIndex x).memory = s.memory := by
  unfold State.bumpIndex; split <;> rfl
@[simp] theorem bumpIndex_display (s : State) (x : Reg) : (s.bumpIndex x).display = s.display := by
  unfold State.bumpIndex; split <;> rfl
@[simp] theorem bumpIndex_key (s : State) (x : Reg) : (s.bumpIndex x).key = s.key := by
  unfold State.bumpIndex; split <;> rfl
@[simp] theorem bumpIndex_cfg (s : State) (x : Reg) : (s.bumpIndex x).cfg = s.cfg := by
  unfold State.bumpIndex; split <;> rfl
@[simp] theorem bumpIndex_fault (s : State) (x : Reg) : (s.bumpIndex x).fault = s.fault := by
  unfold State.bumpIndex; split <;> rfl
@[simp] theorem bumpIndex_answers (s : State) (x : Reg) : (s.bumpIndex x).answers = s.answers := by
  unfold State.bumpIndex; split <;> rfl
@[simp] theorem bumpIndex_i (s : State) (x : Reg) : (s.bumpIndex x).i =
    if s.cfg.quirks.fx55Fx65IncI then BitVec.ofNat 16 (s.i.toNat + x.val + 1) else s.i := by
  unfold State.bumpIndex; split <;> rfl

@[simp] theorem loadShiftOperand_pc (s : State) (x y : Reg) : (s.loadShiftOperand x y).pc = s.pc := by
  unfold State.loadShiftOperand; split <;> rfl
@[simp] theorem loadShiftOperand_i (s : State) (x y : Reg) : (s.loadShiftOperand x y).i = s.i := by
  unfold State.loadShiftOperand; split <;> rfl
@[simp] theorem loadShiftOperand_stack (s : State) (x y : Reg) : (s.loadShiftOperand x y).stack = s.stack := by
  unfold State.loadShiftOperand; split <;> rfl
@[simp] theorem loadShiftOperand_sp (s : State) (x y : Reg) : (s.loadShiftOperand x y).sp = s.sp := by
  unfold State.loadShiftOperand; split <;> rfl
@[simp] theorem loadShiftOperand_delayTimer (s : State) (x y : Reg) : (s.loadShiftOperand x y).delayTimer = s.delayTimer := by
  unfold State.loadShiftOperand; split <;> rfl
@[simp] theorem loadShiftOperand_soundTimer (s : State) (x y : Reg) : (s.loadShiftOperand x y).soundTimer = s.soundTimer := by
  unfold State.loadShiftOperand; split <;> rfl
@[simp] theorem loadShiftOperand_memory (s : State) (x y : Reg) : (s.loadShiftOperand x y).memory = s.memory := by
  unfold State.loadShiftOperand; split <;> rfl
@[simp] theorem loadShiftOperand_display (s : State) (x y : Reg) : (s.loadShiftOperand x y).display = s.display := by
  unfold State.loadShiftOperand; split <;> rfl
@[simp] theorem loadShiftOperand_key (s : State) (x y : Reg) : (s.loadShiftOperand x y).key = s.key := by
  unfold State.loadShiftOperand; split <;> rfl
@[simp] theorem loadShiftOperand_cfg (s : State) (x y : Reg) : (s.loadShiftOperand x y).cfg = s.cfg := by
  unfold State.loadShiftOperand; split <;> rfl
@[simp] theorem loadShiftOperand_fault (s : State) (x y : Reg) : (s.loadShiftOperand x y).fault = s.fault := by
  unfold State.loadShiftOperand; split <;> rfl
@[simp] theorem loadShiftOperand_answers (s : State) (x y : Reg) : (s.loadShiftOperand x y).answers = s.answers := by
  unfold State.loadShiftOperand; split <;> rfl

@[simp] theorem setRegs_pc (s : State) (g : Reg → Byte) (rs : List Reg) : (s.setRegs g rs).pc = s.pc := by
  induction rs generalizing s with
  | nil => rfl
  | cons r rs ih => exact ih (s.setReg r (g r))
@[simp] theorem setRegs_i (s : State) (g : Reg → Byte) (rs : List Reg) : (s.setRegs g rs).i = s.i := by
  induction rs generalizing s with
  | nil => rfl
  | cons r rs ih => exact ih (s.setReg r (g r))
@[simp] theorem setRegs_stack (s : State) (g : Reg → Byte) (rs : List Reg) : (s.setRegs g rs).stack = s.stack := by
  induction rs generalizing s with
  | nil => rfl
  | cons r rs ih => exact ih (s.setReg r (g r))
@[simp] theorem setRegs_sp (s : State) (g : Reg → Byte) (rs : List Reg) : (s.setRegs g rs).sp = s.sp := by
  induction rs generalizing s with
  | nil => rfl
  | cons r rs ih => exact ih (s.setReg r (g r))
@[simp] theorem setRegs_delayTimer (s : State) (g : Reg → Byte) (rs : List Reg) : (s.setRegs g rs).delayTimer = s.delayTimer := by
  induction rs generalizing s with
  | nil => rfl
  | cons r rs ih => exact ih (s.setReg r (g r))
@[simp] theorem setRegs_soundTimer (s : State) (g : Reg → Byte) (rs : List Reg) : (s.setRegs g rs).soundTimer = s.soundTimer := by
  induction rs generalizing s with
  | nil => rfl
  | cons r rs ih => exact ih (s.setReg r (g r))
@[simp] theorem setRegs_memory (s : State) (g : Reg → Byte) (rs : List Reg) : (s.setRegs g rs).memory = s.memory := by
  induction rs generalizing s with
  | nil => rfl
  | cons r rs ih => exact ih (s.setReg r (g r))
@[simp] theorem setRegs_display (s : State) (g : Reg → Byte) (rs : List Reg) : (s.setRegs g rs).display = s.display := by
  induction rs generalizing s with
  | nil => rfl
  | cons r rs ih => exact ih (s.setReg r (g r))
@[simp] theorem setRegs_key (s : State) (g : Reg → Byte) (rs : List Reg) : (s.setRegs g rs).key = s.key := by
  induction rs generalizing s with
  | nil => rfl
  | cons r rs ih => exact ih (s.setReg r (g r))
@[simp] theorem setRegs_cfg (s : State) (g : Reg → Byte) (rs : List Reg) : (s.setRegs g rs).cfg = s.cfg := by
  induction rs generalizing s with
  | nil => rfl
  | cons r rs ih => exact ih (s.setReg r (g r))
@[simp] theorem setRegs_fault (s : State) (g : Reg → Byte) (rs : List Reg) : (s.setRegs g rs).fault = s.fault := by
  induction rs generalizing s with
  | nil => rfl
  | cons r rs ih => exact ih (s.setReg r (g r))
@[simp] theorem setRegs_answers (s : State) (g : Reg → Byte) (rs : List Reg) : (s.setRegs g rs).answers = s.answers := by
  induction rs generalizing s with
  | nil => rfl
  | cons r rs ih => exact ih (s.setReg r (g r))

@[simp] theorem hostWrite_v (s : State) (a : Nat) (b : Byte) : (s.hostWrite a b).v = s.v := by
  unfold State.hostWrite; split <;> rfl
@[simp] theorem hostWrite_pc (s : State) (a : Nat) (b : Byte) : (s.hostWrite a b).pc = s.pc := by
  unfold State.hostWrite; split <;> rfl
@[simp] theorem hostWrite_i (s : State) (a : Nat) (b : Byte) : (s.hostWrite a b).i = s.i := by
  unfold State.hostWrite; split <;> rfl
@[simp] theorem hostWrite_stack (s : State) (a : Nat) (b : Byte) : (s.hostWrite a b).stack = s.stack := by
  unfold State.hostWrite; split <;> rfl
@[simp] theorem hostWrite_sp (s : State) (a : Nat) (b : Byte) : (s.hostWrite a b).sp = s.sp := by
  unfold State.hostWrite; split <;> rfl
@[simp] theorem hostWrite_delayTimer (s : State) (a : Nat) (b : Byte) : (s.hostWrite a b).delayTimer = s.delayTimer := by
  unfold State.hostWrite; split <;> rfl
@[simp] theorem hostWrite_soundTimer (s : State) (a : Nat) (b : Byte) : (s.hostWrite a b).soundTimer = s.soundTimer := by
  unfold State.hostWrite; split <;> rfl
@[simp] theorem hostWrite_display (s : State) (a : Nat) (b : Byte) : (s.hostWrite a b).display = s.display := by
  unfold State.hostWrite; split <;> rfl
@[simp] theorem hostWrite_key (s : State) (a : Nat) (b : Byte) : (s.hostWrite a b).key = s.key := by
  unfold State.hostWrite; split <;> rfl
@[simp] theorem hostWrite_cfg (s : State) (a : Nat) (b : Byte) : (s.hostWrite a b).cfg = s.cfg := by
  unfold State.hostWrite; split <;> rfl
@[simp] theorem hostWrite_fault (s : State) (a : Nat) (b : Byte) : (s.hostWrite a b).fault = s.fault := by
  unfold State.hostWrite; split <;> rfl
@[simp] theorem hostWrite_answers (s : State) (a : Nat) (b : Byte) : (s.hostWrite a b).answers = s.answers := by
  unfold State.hostWrite; split <;> rfl

/-! Input ports: a sample changes `answers` only -/

@[simp] theorem drawRnd_v (s : State) : s.drawRnd.2.v = s.v := by
  unfold State.drawRnd; split <;> rfl
@[simp] theorem drawRnd_pc (s : State) : s.drawRnd.2.pc = s.pc := by
  unfold State.drawRnd; split <;> rfl
@[simp] theorem drawRnd_i (s : State) : s.drawRnd.2.i = s.i := by
  unfold State.drawRnd; split <;> rfl
@[simp] theorem drawRnd_stack (s : State) : s.drawRnd.2.stack = s.stack := by
  unfold State.drawRnd; split <;> rfl
@[simp] theorem drawRnd_sp (s : State) : s.drawRnd.2.sp = s.sp := by
  unfold State.drawRnd; split <;> rfl
@[simp] theorem drawRnd_delayTimer (s : State) : s.drawRnd.2.delayTimer = s.delayTimer := by
  unfold State.drawRnd; split <;> rfl
@[simp] theorem drawRnd_soundTimer (s : State) : s.drawRnd.2.soundTimer = s.soundTimer := by
  unfold State.drawRnd; split <;> rfl
@[simp] theorem drawRnd_memory (s : State) : s.drawRnd.2.memory = s.memory := by
  unfold State.drawRnd; split <;> rfl
@[simp] theorem drawRnd_display (s : State) : s.drawRnd.2.display = s.display := by
  unfold State.drawRnd; split <;> rfl
@[simp] theorem drawRnd_key (s : State) : s.drawRnd.2.key = s.key := by
  unfold State.drawRnd; split <;> rfl
@[simp] theorem drawRnd_cfg (s : State) : s.drawRnd.2.cfg = s.cfg := by
  unfold State.drawRnd; split <;> rfl
@[simp] theorem drawRnd_fault (s : State) : s.drawRnd.2.fault = s.fault := by
  unfold State.drawRnd; split <;> rfl

@[simp] theorem pollKey_v (s : State) : s.pollKey.2.v = s.v := by
  unfold State.pollKey; split <;> rfl
@[simp] theorem pollKey_pc (s : State) : s.pollKey.2.pc = s.pc := by
  unfold State.pollKey; split <;> rfl
@[simp] theorem pollKey_i (s : State) : s.pollKey.2.i = s.i := by
  unfold State.pollKey; split <;> rfl
@[simp] theorem pollKey_stack (s : State) : s.pollKey.2.stack = s.stack := by
  unfold State.pollKey; split <;> rfl
@[simp] theorem pollKey_sp (s : State) : s.pollKey.2.sp = s.sp := by
  unfold State.pollKey; split <;> rfl
@[simp] theorem pollKey_delayTimer (s : State) : s.pollKey.2.delayTimer = s.delayTimer := by
  unfold State.pollKey; split <;> rfl
@[simp] theorem pollKey_soundTimer (s : State) : s.pollKey.2.soundTimer = s.soundTimer := by
  unfold State.pollKey; split <;> rfl
@[simp] theorem pollKey_memory (s : State) : s.pollKey.2.memory = s.memory := by
  unfold State.pollKey; split <;> rfl
@[simp] theorem pollKey_display (s : State) : s.pollKey.2.display = s.display := by
  unfold State.pollKey; split <;> rfl
@[simp] theorem pollKey_key (s : State) : s.pollKey.2.key = s.key := by
  unfold State.pollKey; split <;> rfl
@[simp] theorem pollKey_cfg (s : State) : s.pollKey.2.cfg = s.cfg := by
  unfold State.pollKey; split <;> rfl
@[simp] theorem pollKey_fault (s : State) : s.pollKey.2.fault = s.fault := by
  unfold State.pollKey; split <;> rfl

@[simp] theorem consultKey_v (s : State) : s.consultKey.2.v = s.v := by
  unfold State.consultKey; split <;> simp
@[simp] theorem consultKey_pc (s : State) : s.consultKey.2.pc = s.pc := by
  unfold State.consultKey; split <;> simp
@[simp] theorem consultKey_i (s : State) : s.consultKey.2.i = s.i := by
  unfold State.consultKey; split <;> simp
@[simp] theorem consultKey_stack (s : State) : s.consultKey.2.stack = s.stack := by
  unfold State.consultKey; split <;> simp
@[simp] theorem consultKey_sp (s : State) : s.consultKey.2.sp = s.sp := by
  unfold State.consultKey; split <;> simp
@[simp] theorem consultKey_delayTimer (s : State) : s.consultKey.2.delayTimer = s.delayTimer := by
  unfold State.consultKey; split <;> simp
@[simp] theorem consultKey_soundTimer (s : State) : s.consultKey.2.soundTimer = s.soundTimer := by
  unfold State.consultKey; split <;> simp
@[simp] theorem consultKey_memory (s : State) : s.consultKey.2.memory = s.memory := by
  unfold State.consultKey; split <;> simp
@[simp] theorem consultKey_display (s : State) : s.consultKey.2.display = s.display := by
  unfold State.consultKey; split <;> simp
@[simp] theorem consultKey_key (s : State) : s.consultKey.2.key = s.key := by
  unfold State.consultKey; split <;> simp
@[simp] theorem consultKey_cfg (s : State) : s.consultKey.2.cfg = s.cfg := by
  unfold State.consultKey; split <;> simp
@[simp] theorem consultKey_fault (s : State) : s.consultKey.2.fault = s.fault := by
  unfold State.consultKey; split <;> simp

/-! ## Registers -/

/-- A register after a register write. -/
theorem setReg_reg (s : State) (x y : Reg) (b : Byte) :
    (s.setReg x b).reg y = if x = y then b else s.reg y := by
  simp [State.reg, State.setReg, Vector.getElem_set, Fin.ext_iff]

@[simp] theorem setReg_reg_same (s : State) (x : Reg) (b : Byte) : (s.setReg x b).reg x = b := by
  simp [setReg_reg]

theorem setReg_reg_ne (s : State) {x y : Reg} (b : Byte) (h : y ≠ x) : (s.setReg x b).reg y = s.reg y := by
  rw [setReg_reg, if_neg (Ne.symm h)]

/-- A register after a flag write. -/
theorem setFlag_reg (s : State) (c : Bool) (y : Reg) :
    (s.setFlag c).reg y = if VF = y then flagByte c else s.reg y := setReg_reg s VF y _

@[simp] theorem setFlag_reg_VF (s : State) (c : Bool) : (s.setFlag c).reg VF = flagByte c := by
  simp [setFlag_reg]

/-- Two states with the same register file read the same registers. -/
theorem reg_congr {s t : State} (h : t.v = s.v) (x : Reg) : t.reg x = s.reg x := by
  simp [State.reg, h]

@[simp] theorem advance_reg (s : State) (x : Reg) : s.advance.reg x = s.reg x := rfl
@[simp] theorem setIndex_reg (s : State) (a : Word) (x : Reg) : (s.setIndex a).reg x = s.reg x := rfl
@[simp] theorem setDelayTimer_reg (s : State) (b : Byte) (x : Reg) : (s.setDelayTimer b).reg x = s.reg x := rfl
@[simp] theorem setSoundTimer_reg (s : State) (b : Byte) (x : Reg) : (s.setSoundTimer b).reg x = s.reg x := rfl
@[simp] theorem setMemory_reg (s : State) (m : Memory) (x : Reg) : (s.setMemory m).reg x = s.reg x := rfl
@[simp] theorem setDisplay_reg (s : State) (d : Display) (x : Reg) : (s.setDisplay d).reg x = s.reg x := rfl
@[simp] theorem jump_reg (s : State) (a : Word) (x : Reg) : (s.jump a).reg x = s.reg x := rfl
@[simp] theorem push_reg (s : State) (a : Word) (x : Reg) : (s.push a).reg x = s.reg x := rfl
@[simp] theorem popToPc_reg (s : State) (x : Reg) : s.popToPc.reg x = s.reg x := rfl
@[simp] theorem skipIf_reg (s : State) (c : Bool) (x : Reg) : (s.skipIf c).reg x = s.reg x :=
  reg_congr (skipIf_v s c) x
@[simp] theorem bumpIndex_reg (s : State) (x r : Reg) : (s.bumpIndex x).reg r = s.reg r :=
  reg_congr (bumpIndex_v s x) r
@[simp] theorem drawRnd_reg (s : State) (x : Reg) : s.drawRnd.2.reg x = s.reg x := reg_congr (drawRnd_v s) x
@[simp] theorem pollKey_reg (s : State) (x : Reg) : s.pollKey.2.reg x = s.reg x := reg_congr (pollKey_v s) x
@[simp] theorem consultKey_reg (s : State) (x : Reg) : s.consultKey.2.reg x = s.reg x :=
  reg_congr (consultKey_v s) x

/-- The registers after a list of writes: those listed hold the function's value. -/
theorem setRegs_reg (s : State) (g : Reg → Byte) (rs : List Reg) (y : Reg) :
    (s.setRegs g rs).reg y = if y ∈ rs then g y else s.reg y := by
  induction rs generalizing s with
  | nil => simp [State.setRegs]
  | cons r rs ih =>
    rw [State.setRegs, ih, setReg_reg]
    by_cases hy : y ∈ rs
    · simp [hy]
    · by_cases hr : r = y
      · subst hr; simp
      · simp [hy, hr, Ne.symm hr]

/-- A shift's operand: `v[Y]` copied into `v[X]`, or `v[X]` itself under `SHIFT_INPLACE` (spec/44_alu.md R168). -/
theorem loadShiftOperand_reg (s : State) (x y r : Reg) :
    (s.loadShiftOperand x y).reg r =
      if x = r ∧ s.cfg.quirks.shiftInplace = false then s.reg y else s.reg r := by
  unfold State.loadShiftOperand
  split
  · next h => simp [h]
  · next h => simp [setReg_reg, h]

/-- Which registers `v[0]` to `v[x]` are. -/
@[simp] theorem mem_regsUpTo (x r : Reg) : r ∈ regsUpTo x ↔ r ≤ x := by
  simp [regsUpTo]

/-! ## Ports and faults -/

/-- Everything the blocking port can do: with no answer nothing, else the oldest answer is taken. -/
theorem awaitKey_cases (s : State) :
    (s.answers.wait = [] ∧ s.awaitKey = none) ∨
    ∃ k rest, s.answers.wait = k :: rest ∧
      s.awaitKey = some (k, { s with answers := { s.answers with wait := rest } }) := by
  unfold State.awaitKey
  split
  · next k rest h => exact .inr ⟨k, rest, h, rfl⟩
  · next h => exact .inl ⟨h, rfl⟩

/-- Everything a sample of the random port does to `answers`. -/
theorem drawRnd_answers (s : State) :
    s.drawRnd.2.answers = { s.answers with rnd := s.answers.rnd.tail, rndTaken := s.answers.rndTaken + 1 } := by
  unfold State.drawRnd
  split <;> next h => simp [h]

/-- Everything a sample of the non-blocking key port does to `answers`. -/
theorem pollKey_answers (s : State) :
    s.pollKey.2.answers = { s.answers with poll := s.answers.poll.tail, pollTaken := s.answers.pollTaken + 1 } := by
  unfold State.pollKey
  split <;> next h => simp [h]

/-- Fault entry changes nothing that `AgreeBut` compares but the fault register (spec/60_exceptions.md R253). -/
theorem enterFault_agree (s : State) (c : FaultCause) (w : Word) (a : Nat) :
    AgreeBut [] { s with fault := (s.enterFault c w a).fault } (s.enterFault c w a) :=
  ⟨fun _ _ => rfl, rfl, rfl, rfl, rfl, rfl, fun _ => rfl, rfl, rfl, rfl, rfl, rfl⟩

end Sys2Proof.Machine
end

