-- ==== Sys2Proof/Laws/Decode.lean ====
section
/-! SUPPORT. The fields of an encoded word, the fields a mask keeps, and decoding by family. -/

namespace Sys2Proof.Laws.Decode
open Sys2Proof Sys2Proof.Machine

/-! ## Fields of the three encoding shapes -/

@[simp] theorem toFin_regField (x : Reg) : (regField x).toFin = x := rfl

@[simp] theorem fieldF_encodeXI (f : Nibble) (x : Reg) (nn : Byte) : fieldF (encodeXI f x nn) = f := by
  unfold fieldF encodeXI
  ext k hk
  rw [BitVec.getElem_extractLsb', BitVec.getLsbD_append, BitVec.getLsbD_append, if_neg (by omega),
    if_neg (by omega), ← BitVec.getLsbD_eq_getElem hk]
  congr 1; omega

@[simp] theorem fieldX_encodeXI (f : Nibble) (x : Reg) (nn : Byte) : fieldX (encodeXI f x nn) = x := by
  unfold fieldX encodeXI
  have h : BitVec.extractLsb' 8 4 (f ++ regField x ++ nn) = regField x := by
    ext k hk
    rw [BitVec.getElem_extractLsb', BitVec.getLsbD_append, BitVec.getLsbD_append, if_neg (by omega),
      if_pos (by omega), ← BitVec.getLsbD_eq_getElem hk]
    congr 1; omega
  rw [h, toFin_regField]

@[simp] theorem fieldNN_encodeXI (f : Nibble) (x : Reg) (nn : Byte) : fieldNN (encodeXI f x nn) = nn := by
  unfold fieldNN encodeXI
  ext k hk
  rw [BitVec.getElem_extractLsb', BitVec.getLsbD_append, if_pos (by omega), ← BitVec.getLsbD_eq_getElem hk]
  congr 1; omega

@[simp] theorem fieldF_encodeA (f : Nibble) (nnn : Addr12) : fieldF (encodeA f nnn) = f := by
  unfold fieldF encodeA
  ext k hk
  rw [BitVec.getElem_extractLsb', BitVec.getLsbD_append, if_neg (by omega), ← BitVec.getLsbD_eq_getElem hk]
  congr 1; omega

@[simp] theorem fieldNNN_encodeA (f : Nibble) (nnn : Addr12) : fieldNNN (encodeA f nnn) = nnn := by
  unfold fieldNNN encodeA
  ext k hk
  rw [BitVec.getElem_extractLsb', BitVec.getLsbD_append, if_pos (by omega), ← BitVec.getLsbD_eq_getElem hk]
  congr 1; omega

@[simp] theorem fieldNN_encodeA (f : Nibble) (nnn : Addr12) : fieldNN (encodeA f nnn) = lowByte nnn := by
  unfold fieldNN encodeA lowByte
  ext k hk
  rw [BitVec.getElem_extractLsb', BitVec.getElem_extractLsb', BitVec.getLsbD_append, if_pos (by omega)]

@[simp] theorem fieldF_encodeXYN (f : Nibble) (x y : Reg) (n : Nibble) : fieldF (encodeXYN f x y n) = f := by
  unfold fieldF encodeXYN
  ext k hk
  rw [BitVec.getElem_extractLsb', BitVec.getLsbD_append, BitVec.getLsbD_append, BitVec.getLsbD_append,
    if_neg (by omega), if_neg (by omega), if_neg (by omega), ← BitVec.getLsbD_eq_getElem hk]
  congr 1; omega

@[simp] theorem fieldX_encodeXYN (f : Nibble) (x y : Reg) (n : Nibble) : fieldX (encodeXYN f x y n) = x := by
  unfold fieldX encodeXYN
  have h : BitVec.extractLsb' 8 4 (f ++ regField x ++ regField y ++ n) = regField x := by
    ext k hk
    rw [BitVec.getElem_extractLsb', BitVec.getLsbD_append, BitVec.getLsbD_append, BitVec.getLsbD_append,
      if_neg (by omega), if_neg (by omega), if_pos (by omega), ← BitVec.getLsbD_eq_getElem hk]
    congr 1; omega
  rw [h, toFin_regField]

@[simp] theorem fieldY_encodeXYN (f : Nibble) (x y : Reg) (n : Nibble) : fieldY (encodeXYN f x y n) = y := by
  unfold fieldY encodeXYN
  have h : BitVec.extractLsb' 4 4 (f ++ regField x ++ regField y ++ n) = regField y := by
    ext k hk
    rw [BitVec.getElem_extractLsb', BitVec.getLsbD_append, BitVec.getLsbD_append,
      if_neg (by omega), if_pos (by omega), ← BitVec.getLsbD_eq_getElem hk]
    congr 1; omega
  rw [h, toFin_regField]

@[simp] theorem fieldN_encodeXYN (f : Nibble) (x y : Reg) (n : Nibble) : fieldN (encodeXYN f x y n) = n := by
  unfold fieldN encodeXYN
  ext k hk
  rw [BitVec.getElem_extractLsb', BitVec.getLsbD_append, if_pos (by omega), ← BitVec.getLsbD_eq_getElem hk]
  congr 1; omega

/-! ## Fields a mask keeps -/

/-- A 4-bit slice survives a mask that has all four of its bits. -/
theorem slice_and (w m : Word) (k n : Nat) (h : m.extractLsb' k n = BitVec.allOnes n) :
    (w &&& m).extractLsb' k n = w.extractLsb' k n := by
  rw [BitVec.extractLsb'_and, h, BitVec.and_allOnes]

theorem fieldF_and (w m : Word) (h : m.extractLsb' 12 4 = BitVec.allOnes 4) : fieldF (w &&& m) = fieldF w :=
  slice_and w m 12 4 h

theorem fieldN_and (w m : Word) (h : m.extractLsb' 0 4 = BitVec.allOnes 4) : fieldN (w &&& m) = fieldN w :=
  slice_and w m 0 4 h

theorem fieldNN_and (w m : Word) (h : m.extractLsb' 0 8 = BitVec.allOnes 8) : fieldNN (w &&& m) = fieldNN w :=
  slice_and w m 0 8 h

/-- A word that a family's mask selects has that family. -/
theorem fieldF_of_match {w m p : Word} (hm : m.extractLsb' 12 4 = BitVec.allOnes 4) (h : w &&& m = p) :
    fieldF w = fieldF p := by
  rw [← h, fieldF_and w m hm]

theorem fieldN_of_match {w m p : Word} (hm : m.extractLsb' 0 4 = BitVec.allOnes 4) (h : w &&& m = p) :
    fieldN w = fieldN p := by
  rw [← h, fieldN_and w m hm]

theorem fieldNN_of_match {w m p : Word} (hm : m.extractLsb' 0 8 = BitVec.allOnes 8) (h : w &&& m = p) :
    fieldNN w = fieldNN p := by
  rw [← h, fieldNN_and w m hm]

/-- A word is its family and low twelve bits. -/
theorem word_eq_encodeA (w : Word) : w = encodeA (fieldF w) (fieldNNN w) := by
  unfold encodeA fieldF fieldNNN
  ext k hk
  rw [← BitVec.getLsbD_eq_getElem hk, ← BitVec.getLsbD_eq_getElem hk, BitVec.getLsbD_append]
  by_cases h : k < 12
  · rw [if_pos h, BitVec.getLsbD_extractLsb', decide_eq_true h, Bool.true_and, Nat.zero_add]
  · rw [if_neg h, BitVec.getLsbD_extractLsb', decide_eq_true (by omega : k - 12 < 4), Bool.true_and]
    congr 1; omega

/-- A word is its family, register field and low byte. -/
theorem word_eq_encodeXI (w : Word) : w = encodeXI (fieldF w) (fieldX w) (fieldNN w) := by
  have hx : regField (fieldX w) = w.extractLsb' 8 4 := rfl
  rw [encodeXI, hx]
  unfold fieldF fieldNN
  refine BitVec.eq_of_getLsbD_eq fun k hk => ?_
  simp only [BitVec.getLsbD_append, BitVec.getLsbD_extractLsb']
  interval_cases k <;> simp

/-- A word is its four nibbles. -/
theorem word_eq_encodeXYN (w : Word) : w = encodeXYN (fieldF w) (fieldX w) (fieldY w) (fieldN w) := by
  have hx : regField (fieldX w) = w.extractLsb' 8 4 := rfl
  have hy : regField (fieldY w) = w.extractLsb' 4 4 := rfl
  rw [encodeXYN, hx, hy]
  unfold fieldF fieldN
  refine BitVec.eq_of_getLsbD_eq fun k hk => ?_
  simp only [BitVec.getLsbD_append, BitVec.getLsbD_extractLsb']
  interval_cases k <;> simp

/-- The low byte of the address field is the word's low byte. -/
@[simp] theorem lowByte_fieldNNN (w : Word) : lowByte (fieldNNN w) = fieldNN w := by
  unfold lowByte fieldNNN fieldNN
  refine BitVec.eq_of_getLsbD_eq fun k hk => ?_
  rw [BitVec.getLsbD_extractLsb', BitVec.getLsbD_extractLsb', BitVec.getLsbD_extractLsb']
  interval_cases k <;> simp

/-! ## Decoding bytes -/

/-- Two bytes and more decode to the instruction of their big-endian word, and leave the rest. -/
theorem decode_cons_cons (b0 b1 : Byte) (rest : List Byte) :
    decode (b0 :: b1 :: rest) =
      match decodeWord (wordOfBytes b0 b1) with
      | some i => .ok (i, rest)
      | none => .error (.unknownOpcode (wordOfBytes b0 b1)) := rfl

/-- The bytes of an encoding, read big-endian, are its word. -/
theorem wordOfBytes_encode (i : Instr) :
    wordOfBytes ((encode i).extractLsb' 8 8) ((encode i).extractLsb' 0 8) = encode i := by
  unfold wordOfBytes
  ext k hk
  rw [← BitVec.getLsbD_eq_getElem hk, ← BitVec.getLsbD_eq_getElem hk, BitVec.getLsbD_append]
  by_cases h : k < 8
  · rw [if_pos h, BitVec.getLsbD_extractLsb', decide_eq_true h, Bool.true_and, Nat.zero_add]
  · rw [if_neg h, BitVec.getLsbD_extractLsb', decide_eq_true (by omega : k - 8 < 8), Bool.true_and]
    congr 1; omega

end Sys2Proof.Laws.Decode
end

