-- ==== Sys2Proof/Laws/Display.lean ====
section
/-! SUPPORT. Everything a display operation can do: which cells are lit after a flip, a sprite row and a sprite, what the
collision flag holds, and that the canonical form and the bound are kept (spec/45_draw.md R181, R182). -/

namespace Sys2Proof.Laws.Display
open Sys2Proof.Machine

theorem mem_insert (d : Display) (n k : Nat) : k ∈ Display.insert n d ↔ k = n ∨ k ∈ d := by
  induction d with
  | nil => simp [Display.insert]
  | cons e d ih =>
    rw [Display.insert]
    split
    · simp
    · simp [ih, or_left_comm]

/-- A flip exclusive-ors one cell and leaves every other alone. -/
theorem lit_flip (d : Display) (n k : Nat) :
    Display.lit (Display.flip d n) k = (Display.lit d k ^^ decide (k = n)) := by
  unfold Display.lit Display.flip
  by_cases hn : n ∈ d <;> by_cases hk : k = n
  · subst hk; simp [hn]
  · simp [hn, hk]
  · subst hk; simp [hn, mem_insert]
  · simp [hn, hk, mem_insert]

theorem pairwise_insert (d : Display) (n : Nat) (h : Display.wf d) (hn : n ∉ d) :
    Display.wf (Display.insert n d) := by
  induction d with
  | nil => simp [Display.insert]
  | cons e d ih =>
    have he := List.pairwise_cons.1 h
    rw [Display.insert]
    split
    · next hlt =>
      refine List.pairwise_cons.2 ⟨fun k hk => ?_, h⟩
      rcases List.mem_cons.1 hk with rfl | hk
      · exact hlt
      · exact hlt.trans (he.1 k hk)
    · next hge =>
      refine List.pairwise_cons.2 ⟨fun k hk => ?_, ih he.2 (fun hk => hn (List.mem_cons_of_mem _ hk))⟩
      rcases (mem_insert d n k).1 hk with rfl | hk
      · have : k ≠ e := fun h => hn (h ▸ List.mem_cons_self)
        omega
      · exact he.1 k hk

/-- A flip keeps the canonical form. -/
theorem wf_flip (d : Display) (n : Nat) (h : Display.wf d) : Display.wf (Display.flip d n) := by
  unfold Display.flip
  split
  · exact h.filter _
  · next hn => exact pairwise_insert d n h hn

theorem mem_flip (d : Display) (n k : Nat) (h : k ∈ Display.flip d n) : k = n ∨ k ∈ d := by
  unfold Display.flip at h
  split at h
  · exact .inr (List.mem_of_mem_filter h)
  · exact (mem_insert d n k).1 h

/-- Canonical displays with the same lit cells are equal data. -/
theorem ext_lit (d e : Display) (hd : Display.wf d) (he : Display.wf e)
    (h : ∀ n, Display.lit d n = Display.lit e n) : d = e := by
  have hmem : ∀ n, n ∈ d ↔ n ∈ e := fun n => by simpa [Display.lit] using h n
  have hp : d.Perm e := (List.perm_ext_iff_of_nodup
    (hd.imp (fun hab => Nat.ne_of_lt hab)) (he.imp (fun hab => Nat.ne_of_lt hab))).2 hmem
  exact hp.eq_of_pairwise (fun a b _ _ hab hba => absurd hab (Nat.lt_asymm hba)) hd he

/-! ## Sprite bits, rows and sprites -/

/-- What a sprite bit does to each cell. -/
theorem lit_drawBit (bit : Bool) (cell k : Nat) (c : Canvas) :
    Display.lit (drawBit bit cell c).cells k = (Display.lit c.cells k ^^ (bit && decide (k = cell))) := by
  cases bit <;> simp [drawBit, lit_flip]

/-- What a sprite bit does to the flag. -/
theorem hit_drawBit (bit : Bool) (cell : Nat) (c : Canvas) :
    (drawBit bit cell c).hit = (c.hit || (bit && Display.lit c.cells cell)) := by
  cases bit <;> simp [drawBit]

theorem wf_drawBit (bit : Bool) (cell : Nat) (c : Canvas) (h : Display.wf c.cells) :
    Display.wf (drawBit bit cell c).cells := by
  cases bit
  · exact h
  · exact wf_flip _ _ h

theorem mem_drawBit (bit : Bool) (cell k : Nat) (c : Canvas) (h : k ∈ (drawBit bit cell c).cells) :
    k = cell ∨ k ∈ c.cells := by
  cases bit
  · exact .inr h
  · exact mem_flip _ _ _ h

theorem drawRow_succ (b : Byte) (first n : Nat) (c : Canvas) :
    drawRow b first (n + 1) c = drawBit (b.getLsbD (7 - n)) (first + n) (drawRow b first n c) := by
  simp [drawRow, List.range_succ, List.foldl_append]

/-- What a sprite row does to each cell: cell `first + j` is exclusive-ored with bit `7 - j` for `j < cols`. -/
theorem lit_drawRow (b : Byte) (first cols k : Nat) (c : Canvas) :
    Display.lit (drawRow b first cols c).cells k =
      (Display.lit c.cells k ^^ (decide (first ≤ k ∧ k < first + cols) && b.getLsbD (7 - (k - first)))) := by
  induction cols with
  | zero =>
    have : ¬ (first ≤ k ∧ k < first + 0) := by omega
    rw [decide_eq_false this]
    simp [drawRow]
  | succ n ih =>
    rw [drawRow_succ, lit_drawBit, ih]
    by_cases hk : k = first + n
    · subst hk
      simp
    · have h1 : (first ≤ k ∧ k < first + (n + 1)) ↔ (first ≤ k ∧ k < first + n) := by omega
      simp [hk, h1]

/-- What a sprite row does to the flag: it is set if some bit that is 1 meets a lit cell. -/
theorem hit_drawRow (b : Byte) (first cols : Nat) (c : Canvas) :
    (drawRow b first cols c).hit = true ↔
      c.hit = true ∨ ∃ j, j < cols ∧ b.getLsbD (7 - j) = true ∧ Display.lit c.cells (first + j) = true := by
  induction cols with
  | zero => simp [drawRow]
  | succ n ih =>
    have hn : Display.lit (drawRow b first n c).cells (first + n) = Display.lit c.cells (first + n) := by
      rw [lit_drawRow]
      simp
    rw [drawRow_succ, hit_drawBit, hn, Bool.or_eq_true, ih, Bool.and_eq_true]
    constructor
    · rintro ((h | ⟨j, hj, h⟩) | h)
      · exact .inl h
      · exact .inr ⟨j, by omega, h⟩
      · exact .inr ⟨n, by omega, h⟩
    · rintro (h | ⟨j, hj, h⟩)
      · exact .inl (.inl h)
      · rcases Nat.lt_succ_iff_lt_or_eq.1 hj with hj | rfl
        · exact .inl (.inr ⟨j, hj, h⟩)
        · exact .inr h

theorem wf_drawRow (b : Byte) (first cols : Nat) (c : Canvas) (h : Display.wf c.cells) :
    Display.wf (drawRow b first cols c).cells := by
  induction cols with
  | zero => exact h
  | succ n ih => rw [drawRow_succ]; exact wf_drawBit _ _ _ ih

theorem mem_drawRow (b : Byte) (first cols k : Nat) (c : Canvas) (h : k ∈ (drawRow b first cols c).cells) :
    (first ≤ k ∧ k < first + cols) ∨ k ∈ c.cells := by
  induction cols with
  | zero => exact .inr h
  | succ n ih =>
    rw [drawRow_succ] at h
    rcases mem_drawBit _ _ _ _ h with rfl | h
    · exact .inl ⟨by omega, by omega⟩
    · rcases ih h with ⟨h1, h2⟩ | h
      · exact .inl ⟨h1, by omega⟩
      · exact .inr h

theorem drawSprite_succ (s : State) (xs ys rows cols : Nat) (c : Canvas) :
    s.drawSprite xs ys (rows + 1) cols c =
      drawRow (Memory.read s.memory (s.ea rows)) (cellNumber s.cfg.displayWidth xs (ys + rows)) cols
        (s.drawSprite xs ys rows cols c) := by
  simp [State.drawSprite, List.range_succ, List.foldl_append]

theorem wf_drawSprite (s : State) (xs ys rows cols : Nat) (c : Canvas) (h : Display.wf c.cells) :
    Display.wf (s.drawSprite xs ys rows cols c).cells := by
  induction rows with
  | zero => exact h
  | succ n ih => rw [drawSprite_succ]; exact wf_drawRow _ _ _ _ ih

/-- The cells a sprite can leave lit: those of its clipped rectangle and those lit before. -/
theorem mem_drawSprite (s : State) (xs ys rows cols k : Nat) (c : Canvas)
    (h : k ∈ (s.drawSprite xs ys rows cols c).cells) :
    (∃ r j, r < rows ∧ j < cols ∧ k = cellNumber s.cfg.displayWidth (xs + j) (ys + r)) ∨ k ∈ c.cells := by
  induction rows with
  | zero => exact .inr h
  | succ n ih =>
    rw [drawSprite_succ] at h
    rcases mem_drawRow _ _ _ _ _ h with ⟨h1, h2⟩ | h
    · refine .inl ⟨n, k - cellNumber s.cfg.displayWidth xs (ys + n), by omega, by omega, ?_⟩
      unfold cellNumber at *
      omega
    · rcases ih h with ⟨r, j, hr, hj, rfl⟩ | h
      · exact .inl ⟨r, j, by omega, hj, rfl⟩
      · exact .inr h

/-- Two cells inside the display have the same number only if they are the same cell. -/
theorem cellNumber_inj {w x y x' y' : Nat} (hx : x < w) (hx' : x' < w)
    (h : cellNumber w x y = cellNumber w x' y') : x = x' ∧ y = y' := by
  unfold cellNumber at h
  have hdiv : ∀ a b : Nat, b < w → (a * w + b) / w = a := fun a b hb => by
    rw [Nat.add_comm, Nat.add_mul_div_right _ _ (by omega), Nat.div_eq_of_lt hb, Nat.zero_add]
  have hy : y = y' := by rw [← hdiv y x hx, ← hdiv y' x' hx', h]
  subst hy
  exact ⟨by omega, rfl⟩

/-- What a sprite that stays within the display's width does to each cell: those of its rectangle are exclusive-ored with their
sprite bits (R182). -/
theorem lit_drawSprite (s : State) (xs ys rows cols : Nat) (c : Canvas) (hc : xs + cols ≤ s.cfg.displayWidth)
    (px py : Nat) (hp : px < s.cfg.displayWidth) :
    Display.lit (s.drawSprite xs ys rows cols c).cells (cellNumber s.cfg.displayWidth px py) =
      (Display.lit c.cells (cellNumber s.cfg.displayWidth px py) ^^
        (decide (xs ≤ px ∧ px < xs + cols ∧ ys ≤ py ∧ py < ys + rows) &&
          (Memory.read s.memory (s.ea (py - ys))).getLsbD (7 - (px - xs)))) := by
  induction rows with
  | zero =>
    have : ¬ (xs ≤ px ∧ px < xs + cols ∧ ys ≤ py ∧ py < ys + 0) := by omega
    rw [decide_eq_false this]
    simp [State.drawSprite]
  | succ n ih =>
    rw [drawSprite_succ, lit_drawRow, ih]
    have key : (cellNumber s.cfg.displayWidth xs (ys + n) ≤ cellNumber s.cfg.displayWidth px py ∧
        cellNumber s.cfg.displayWidth px py < cellNumber s.cfg.displayWidth xs (ys + n) + cols) ↔
        (py = ys + n ∧ xs ≤ px ∧ px < xs + cols) := by
      constructor
      · rintro ⟨h1, h2⟩
        obtain ⟨j, hj⟩ := Nat.exists_eq_add_of_le h1
        have hj' : cellNumber s.cfg.displayWidth xs (ys + n) + j = cellNumber s.cfg.displayWidth (xs + j) (ys + n) := by
          unfold cellNumber; omega
        rw [hj'] at hj
        have := cellNumber_inj hp (by unfold cellNumber at *; omega) hj
        unfold cellNumber at *
        omega
      · rintro ⟨rfl, h1, h2⟩
        unfold cellNumber
        omega
    by_cases hpy : py = ys + n
    · subst hpy
      have e : cellNumber s.cfg.displayWidth px (ys + n) - cellNumber s.cfg.displayWidth xs (ys + n) = px - xs := by
        unfold cellNumber; omega
      have a1 : ¬ (xs ≤ px ∧ px < xs + cols ∧ ys ≤ ys + n ∧ ys + n < ys + n) := by omega
      have a2 : (xs ≤ px ∧ px < xs + cols ∧ ys ≤ ys + n ∧ ys + n < ys + (n + 1)) ↔ (xs ≤ px ∧ px < xs + cols) := by
        omega
      rw [e]
      simp only [key, true_and, show ys + n - ys = n by omega, decide_eq_false a1, a2]
      simp
    · have a2 : (xs ≤ px ∧ px < xs + cols ∧ ys ≤ py ∧ py < ys + (n + 1)) ↔
          (xs ≤ px ∧ px < xs + cols ∧ ys ≤ py ∧ py < ys + n) := by omega
      simp only [key, hpy, a2]
      simp

/-- What a sprite does to a flag that was clear: it is set iff some sprite bit that is 1 meets a lit cell (R182). -/
theorem hit_drawSprite (s : State) (xs ys rows cols : Nat) (c : Canvas) (hc : xs + cols ≤ s.cfg.displayWidth)
    (h0 : c.hit = false) :
    (s.drawSprite xs ys rows cols c).hit = true ↔
      ∃ r k, r < rows ∧ k < cols ∧ (Memory.read s.memory (s.ea r)).getLsbD (7 - k) = true ∧
        Display.lit c.cells (cellNumber s.cfg.displayWidth (xs + k) (ys + r)) = true := by
  induction rows with
  | zero => simp [State.drawSprite, h0]
  | succ n ih =>
    rw [drawSprite_succ, hit_drawRow, ih]
    have e : ∀ k < cols, Display.lit (s.drawSprite xs ys n cols c).cells (cellNumber s.cfg.displayWidth xs (ys + n) + k) =
        Display.lit c.cells (cellNumber s.cfg.displayWidth (xs + k) (ys + n)) := by
      intro k hk
      have hk' : cellNumber s.cfg.displayWidth xs (ys + n) + k = cellNumber s.cfg.displayWidth (xs + k) (ys + n) := by
        unfold cellNumber; omega
      rw [hk', lit_drawSprite s xs ys n cols c hc _ _ (by omega), decide_eq_false (by omega)]
      simp
    constructor
    · rintro (⟨r, k, hr, hk, h⟩ | ⟨k, hk, h1, h2⟩)
      · exact ⟨r, k, by omega, hk, h⟩
      · exact ⟨n, k, by omega, hk, h1, by rw [← e k hk]; exact h2⟩
    · rintro ⟨r, k, hr, hk, h1, h2⟩
      rcases Nat.lt_succ_iff_lt_or_eq.1 hr with hr | rfl
      · exact .inl ⟨r, k, hr, hk, h1, h2⟩
      · exact .inr ⟨k, hk, h1, by rw [e k hk]; exact h2⟩

end Sys2Proof.Laws.Display
end

