-- ==== Sys2Proof/Laws/Flags.lean ====
section
/-! SUPPORT. The result and flag computations as facts of arithmetic on the operands' values (spec/44_alu.md). -/

namespace Sys2Proof.Laws
open Sys2Proof Sys2Proof.Machine

theorem sum9_toNat (a b : Byte) : (sum9 a b).toNat = a.toNat + b.toNat := by
  have := a.isLt
  have := b.isLt
  simp only [sum9, BitVec.toNat_add, BitVec.toNat_setWidth]
  omega

/-- The sum's byte is the sum modulo 256 (R166). -/
theorem sumByte_toNat (a b : Byte) : (sumByte a b).toNat = (a.toNat + b.toNat) % 256 := by
  rw [sumByte, BitVec.extractLsb'_toNat, sum9_toNat]
  rfl

/-- The carry is 1 iff the sum is at least 256 (R166). -/
theorem carryOut_iff (a b : Byte) : carryOut a b = true ↔ 256 ≤ a.toNat + b.toNat := by
  have ha := a.isLt
  have hb := b.isLt
  rw [carryOut, BitVec.getLsbD, sum9_toNat, Nat.testBit_eq_decide_div_mod_eq, decide_eq_true_iff]
  omega

/-- The difference's byte is the difference modulo 256 (R167). -/
theorem differenceByte_toNat (a b : Byte) :
    (differenceByte a b).toNat = (a.toNat + 256 - b.toNat) % 256 := by
  have ha := a.isLt
  have hb := b.isLt
  simp only [differenceByte, difference, BitVec.toNat_ofInt]
  omega

theorem differenceByte_eq_sub (a b : Byte) : differenceByte a b = a - b := by
  apply BitVec.eq_of_toNat_eq
  have hb := b.isLt
  rw [differenceByte_toNat, BitVec.toNat_sub]
  congr 1
  omega

/-- No borrow iff the minuend is at least the subtrahend (R167). -/
theorem noBorrow_iff (a b : Byte) : noBorrow a b = true ↔ b.toNat ≤ a.toNat := by
  rw [noBorrow, decide_eq_true_iff, difference]
  omega

/-- An extended address is the address (R94). -/
@[simp] theorem zextAddr_toNat (nnn : Addr12) : (zextAddr nnn).toNat = nnn.toNat := by
  have := nnn.isLt
  simp only [zextAddr, BitVec.toNat_setWidth]
  omega

/-- An extended byte is the byte (R133, R204). -/
@[simp] theorem zextByte_toNat (b : Byte) : (zextByte b).toNat = b.toNat := by
  have := b.isLt
  simp only [zextByte, BitVec.toNat_setWidth]
  omega

/-- `X` is the high nibble of `NNN` (R92). -/
theorem addrHighNibble_val (nnn : Addr12) : (addrHighNibble nnn).val = nnn.toNat / 256 := by
  have h : (addrHighNibble nnn).val = (nnn.extractLsb' 8 4).toNat := rfl
  have := nnn.isLt
  rw [h, BitVec.extractLsb'_toNat, Nat.shiftRight_eq_div_pow]
  omega

/-- The three digits are decimal digits of the byte (R206). -/
theorem bcdDigits_eq (b : Byte) : (bcdDigits b).map BitVec.toNat =
    [b.toNat / 100, b.toNat / 10 % 10, b.toNat % 10] := by
  have := b.isLt
  simp only [bcdDigits, List.map_cons, List.map_nil, BitVec.toNat_ofNat]
  rw [Nat.mod_eq_of_lt (a := b.toNat / 100) (by omega), Nat.mod_eq_of_lt (a := b.toNat / 10 % 10) (by omega),
    Nat.mod_eq_of_lt (a := b.toNat % 10) (by omega)]

/-- `regBytes` lists one byte a register, `v[k]` at place `k` (R207). -/
theorem regsUpTo_length (x : Reg) : (regsUpTo x).length = x.val + 1 := by
  revert x; decide

theorem regsUpTo_getElem (x : Reg) (k : Nat) (h : k < (regsUpTo x).length) : ((regsUpTo x)[k]).val = k := by
  revert k; revert x; decide

@[simp] theorem regBytes_length (s : State) (x : Reg) : (s.regBytes x).length = x.val + 1 := by
  simp [State.regBytes, regsUpTo_length]

theorem regBytes_getD (s : State) (x r : Reg) (h : r ≤ x) : (s.regBytes x).getD r.val 0 = s.reg r := by
  have hl : r.val < (regsUpTo x).length := by rw [regsUpTo_length]; exact Nat.lt_succ_of_le h
  have hr : (regsUpTo x)[r.val] = r := Fin.ext (regsUpTo_getElem x r.val hl)
  simp [State.regBytes, List.getD_eq_getElem?_getD, hl, hr]

end Sys2Proof.Laws
end

