-- ==== Sys2Proof/Laws/Memory.lean ====
section
/-! SUPPORT. Everything a memory operation can do: what a read gives after a write, and that the canonical form and the
bound are kept. -/

namespace Sys2Proof.Laws.Memory
open Sys2Proof.Machine

theorem read_filter (m : Memory) (a x : Nat) :
    Memory.read (m.filter (fun c => c.1 ≠ a)) x = if x = a then Memory.unlisted else Memory.read m x := by
  induction m with
  | nil => simp [Memory.read]
  | cons c m ih =>
    by_cases hc : c.1 = a
    · rw [List.filter_cons_of_neg (by simpa using hc), ih]
      by_cases hx : x = a
      · simp [hx]
      · rw [if_neg hx, if_neg hx, Memory.read, if_neg (by omega)]
    · rw [List.filter_cons_of_pos (by simpa using hc), Memory.read, Memory.read, ih]
      by_cases hx : c.1 = x
      · rw [if_pos hx, if_pos hx, if_neg (by omega)]
      · rw [if_neg hx, if_neg hx]

theorem read_insert (m : Memory) (c : Host.Cell) (x : Nat) (hm : ∀ d ∈ m, d.1 ≠ c.1) :
    Memory.read (Memory.insert c m) x = if c.1 = x then c.2 else Memory.read m x := by
  induction m with
  | nil => rfl
  | cons d m ih =>
    rw [Memory.insert]
    split
    · rfl
    · rw [Memory.read, ih (fun e he => hm e (List.mem_cons_of_mem _ he)), Memory.read]
      have hd : d.1 ≠ c.1 := hm d List.mem_cons_self
      by_cases hx : c.1 = x
      · rw [if_neg (by omega), if_pos hx, if_pos hx]
      · simp only [if_neg hx]

/-- Read after write: the byte written at its own address, the old byte everywhere else. -/
theorem read_write (m : Memory) (a x : Nat) (b : Byte) :
    Memory.read (Memory.write m a b) x = if a = x then b else Memory.read m x := by
  unfold Memory.write
  split
  · next hb =>
    rw [read_filter, hb]
    by_cases hx : a = x
    · rw [if_pos hx, if_pos hx.symm]
    · rw [if_neg hx, if_neg (Ne.symm hx)]
  · rw [read_insert _ _ _ (by simp), read_filter]
    by_cases hx : a = x
    · rw [if_pos hx, if_pos hx]
    · rw [if_neg hx, if_neg hx, if_neg (Ne.symm hx)]

/-- Read after writing bytes at ascending addresses. -/
theorem read_writeBytes (m : Memory) (a x : Nat) (bs : List Byte) :
    Memory.read (Memory.writeBytes m a bs) x =
      if a ≤ x ∧ x < a + bs.length then bs.getD (x - a) 0 else Memory.read m x := by
  induction bs generalizing m a with
  | nil => rw [Memory.writeBytes, if_neg (by simp)]
  | cons b bs ih =>
    rw [Memory.writeBytes, ih, read_write]
    rcases Nat.lt_trichotomy x a with h | h | h
    · rw [if_neg (by omega), if_neg (by omega), if_neg (by omega)]
    · subst h
      rw [if_neg (by omega), if_pos rfl, if_pos (by simp)]
      simp
    · by_cases hx : x < a + (bs.length + 1)
      · rw [if_pos (by omega), if_pos (by simp; omega)]
        obtain ⟨k, rfl⟩ : ∃ k, x = a + 1 + k := ⟨x - (a + 1), by omega⟩
        simp [show a + 1 + k - a = k + 1 by omega]
      · rw [if_neg (by omega), if_neg (by omega), if_neg (by simp; omega)]

theorem mem_insert (m : Memory) (c d : Host.Cell) : d ∈ Memory.insert c m ↔ d = c ∨ d ∈ m := by
  induction m with
  | nil => simp [Memory.insert]
  | cons e m ih =>
    rw [Memory.insert]
    split
    · simp
    · simp [ih, or_left_comm]

theorem pairwise_insert (m : Memory) (c : Host.Cell) (h : m.Pairwise (fun c d => c.1 < d.1))
    (hm : ∀ d ∈ m, d.1 ≠ c.1) : (Memory.insert c m).Pairwise (fun c d => c.1 < d.1) := by
  induction m with
  | nil => simp [Memory.insert]
  | cons e m ih =>
    rw [List.pairwise_cons] at h
    rw [Memory.insert]
    split
    · next hlt =>
      refine List.pairwise_cons.2 ⟨fun d hd => ?_, List.pairwise_cons.2 h⟩
      rcases List.mem_cons.1 hd with rfl | hd
      · exact hlt
      · exact hlt.trans (h.1 d hd)
    · next hge =>
      refine List.pairwise_cons.2 ⟨fun d hd => ?_, ih h.2 (fun d hd => hm d (List.mem_cons_of_mem _ hd))⟩
      rcases (mem_insert m c d).1 hd with rfl | hd
      · have := hm e List.mem_cons_self
        omega
      · exact h.1 d hd

/-- A write keeps the canonical form. -/
theorem wf_write (m : Memory) (a : Nat) (b : Byte) (h : Memory.wf m) : Memory.wf (Memory.write m a b) := by
  have hf : Memory.wf (m.filter (fun c => c.1 ≠ a)) :=
    ⟨h.1.filter _, fun c hc => h.2 c (List.mem_of_mem_filter hc)⟩
  unfold Memory.write
  split
  · exact hf
  · next hb =>
    refine ⟨pairwise_insert _ _ hf.1 (by simp), fun c hc => ?_⟩
    rcases (mem_insert _ _ c).1 hc with rfl | hc
    · exact hb
    · exact hf.2 c hc

/-- The cells a write can leave: the written one and old ones. -/
theorem mem_write (m : Memory) (a : Nat) (b : Byte) (c : Host.Cell) (h : c ∈ Memory.write m a b) :
    c = (a, b) ∨ c ∈ m := by
  unfold Memory.write at h
  split at h
  · exact .inr (List.mem_of_mem_filter h)
  · rcases (mem_insert _ _ c).1 h with h | h
    · exact .inl h
    · exact .inr (List.mem_of_mem_filter h)

/-- Writing bytes keeps the canonical form. -/
theorem wf_writeBytes (m : Memory) (a : Nat) (bs : List Byte) (h : Memory.wf m) :
    Memory.wf (Memory.writeBytes m a bs) := by
  induction bs generalizing m a with
  | nil => exact h
  | cons b bs ih => exact ih _ _ (wf_write m a b h)

/-- The cells after writing bytes lie in the written range or were there before. -/
theorem mem_writeBytes (m : Memory) (a : Nat) (bs : List Byte) (c : Host.Cell)
    (h : c ∈ Memory.writeBytes m a bs) : (a ≤ c.1 ∧ c.1 < a + bs.length) ∨ c ∈ m := by
  induction bs generalizing m a with
  | nil => exact .inr h
  | cons b bs ih =>
    rcases ih _ _ h with ⟨h1, h2⟩ | h
    · exact .inl ⟨by omega, by simp; omega⟩
    · rcases mem_write _ _ _ _ h with rfl | h
      · exact .inl ⟨le_refl _, by simp⟩
      · exact .inr h

/-- Reset memory is canonical. -/
theorem wf_reset (c : Configuration) : Memory.wf (State.resetWith c).memory :=
  ⟨List.Pairwise.nil, by simp [State.resetWith]⟩

/-- A host write keeps the canonical form. -/
theorem wf_hostWrite (s : State) (a : Nat) (b : Byte) (h : Memory.wf s.memory) :
    Memory.wf (s.hostWrite a b).memory := by
  unfold State.hostWrite
  split
  · exact wf_write _ _ _ h
  · exact h

/-- A load of bytes by the host keeps the canonical form. -/
theorem wf_loadBytes (s : State) (a : Nat) (bs : List Byte) (h : Memory.wf s.memory) :
    Memory.wf (s.loadBytes a bs).memory := by
  induction bs generalizing s a with
  | nil => exact h
  | cons b bs ih => exact ih _ _ (wf_hostWrite s a b h)

/-- An address below every entry reads as unlisted. -/
theorem read_eq_unlisted_of_lt (m : Memory) (x : Nat) (h : ∀ c ∈ m, x < c.1) :
    Memory.read m x = Memory.unlisted := by
  induction m with
  | nil => rfl
  | cons c m ih =>
    have hc := h c List.mem_cons_self
    rw [Memory.read, if_neg (by omega)]
    exact ih (fun d hd => h d (List.mem_cons_of_mem _ hd))

/-- Canonical memories that read alike are equal data. -/
theorem ext_read (m n : Memory) (hm : Memory.wf m) (hn : Memory.wf n)
    (h : ∀ x, Memory.read m x = Memory.read n x) : m = n := by
  induction m generalizing n with
  | nil =>
    cases n with
    | nil => rfl
    | cons d n =>
      have := h d.1
      rw [Memory.read, Memory.read, if_pos rfl] at this
      exact absurd this.symm (hn.2 d List.mem_cons_self)
  | cons c m ih =>
    cases n with
    | nil =>
      have := h c.1
      rw [Memory.read, Memory.read, if_pos rfl] at this
      exact absurd this (hm.2 c List.mem_cons_self)
    | cons d n =>
      have hm' := List.pairwise_cons.1 hm.1
      have hn' := List.pairwise_cons.1 hn.1
      have hc := h c.1
      have hd := h d.1
      rw [Memory.read, Memory.read, if_pos rfl] at hc
      rw [Memory.read, Memory.read, if_pos (rfl : d.1 = d.1)] at hd
      have haddr : d.1 = c.1 := by
        rcases Nat.lt_trichotomy c.1 d.1 with hlt | heq | hlt
        · rw [if_neg (by omega), read_eq_unlisted_of_lt n c.1 (fun e he => hlt.trans (hn'.1 e he))] at hc
          exact absurd hc (hm.2 c List.mem_cons_self)
        · exact heq.symm
        · rw [if_neg (by omega), read_eq_unlisted_of_lt m d.1 (fun e he => hlt.trans (hm'.1 e he))] at hd
          exact absurd hd.symm (hn.2 d List.mem_cons_self)
      rw [if_pos haddr] at hc
      have hcd : c = d := Prod.ext haddr.symm hc
      subst hcd
      congr 1
      refine ih n ⟨hm'.2, fun e he => hm.2 e (List.mem_cons_of_mem _ he)⟩
        ⟨hn'.2, fun e he => hn.2 e (List.mem_cons_of_mem _ he)⟩ (fun x => ?_)
      have hx := h x
      rw [Memory.read, Memory.read] at hx
      by_cases he : c.1 = x
      · subst he
        rw [read_eq_unlisted_of_lt m _ hm'.1, read_eq_unlisted_of_lt n _ hn'.1]
      · rwa [if_neg he, if_neg he] at hx

end Sys2Proof.Laws.Memory
end

