-- ==== Sys2Proof/Laws/PerInstr.lean ====
section
/-! SUPPORT. The family of per-instruction statements `EncodeMatchesRow`: the encoding of each instruction has the bits its row
of spec/opcode_table.json fixes (spec/30_encoding.md R93, R99). -/

namespace Sys2Proof.Laws
open Sys2Proof

/-- The mask and match of an instruction's row (spec/opcode_table.json). -/
def rowOf : Instr → Word × Word
  | .sys _ => (0xF000, 0x0000)
  | .cls => (0xF0FF, 0x00E0)
  | .ret => (0xF0FF, 0x00EE)
  | .jp _ => (0xF000, 0x1000)
  | .call _ => (0xF000, 0x2000)
  | .seImm _ _ => (0xF000, 0x3000)
  | .sneImm _ _ => (0xF000, 0x4000)
  | .seReg _ _ => (0xF000, 0x5000)
  | .ldImm _ _ => (0xF000, 0x6000)
  | .addImm _ _ => (0xF000, 0x7000)
  | .ldReg _ _ => (0xF00F, 0x8000)
  | .orReg _ _ => (0xF00F, 0x8001)
  | .andReg _ _ => (0xF00F, 0x8002)
  | .xorReg _ _ => (0xF00F, 0x8003)
  | .addReg _ _ => (0xF00F, 0x8004)
  | .subReg _ _ => (0xF00F, 0x8005)
  | .shr _ _ => (0xF00F, 0x8006)
  | .subn _ _ => (0xF00F, 0x8007)
  | .shl _ _ => (0xF00F, 0x800E)
  | .sneReg _ _ => (0xF000, 0x9000)
  | .ldI _ => (0xF000, 0xA000)
  | .jpV0 _ => (0xF000, 0xB000)
  | .rnd _ _ => (0xF000, 0xC000)
  | .drw _ _ _ => (0xF000, 0xD000)
  | .skp _ => (0xF0FF, 0xE09E)
  | .sknp _ => (0xF0FF, 0xE0A1)
  | .ldFromDt _ => (0xF0FF, 0xF007)
  | .ldKey _ => (0xF0FF, 0xF00A)
  | .ldDt _ => (0xF0FF, 0xF015)
  | .ldSt _ => (0xF0FF, 0xF018)
  | .addI _ => (0xF0FF, 0xF01E)
  | .ldFont _ => (0xF0FF, 0xF029)
  | .ldBcd _ => (0xF0FF, 0xF033)
  | .storeRegs _ => (0xF0FF, 0xF055)
  | .loadRegs _ => (0xF0FF, 0xF065)

theorem and_F000 (w : Word) : w &&& 0xF000 = fieldF w ++ 0#12 := by
  unfold fieldF
  refine BitVec.eq_of_getLsbD_eq fun k hk => ?_
  simp only [BitVec.getLsbD_and, BitVec.getLsbD_append]
  interval_cases k <;> simp

theorem and_F00F (w : Word) : w &&& 0xF00F = fieldF w ++ 0#8 ++ fieldN w := by
  unfold fieldF fieldN
  refine BitVec.eq_of_getLsbD_eq fun k hk => ?_
  simp only [BitVec.getLsbD_and, BitVec.getLsbD_append]
  interval_cases k <;> simp

theorem and_F0FF (w : Word) : w &&& 0xF0FF = fieldF w ++ 0#4 ++ fieldNN w := by
  unfold fieldF fieldNN
  refine BitVec.eq_of_getLsbD_eq fun k hk => ?_
  simp only [BitVec.getLsbD_and, BitVec.getLsbD_append]
  interval_cases k <;> simp

/-- When a word has the bits a row of the table fixes, by the shape of its mask. -/
theorem and_F000_eq_iff (w : Word) (f : Nibble) : w &&& 0xF000 = f ++ 0#12 ↔ fieldF w = f := by
  rw [and_F000]
  constructor
  · intro h
    have h1 := congrArg fieldF (show encodeA (fieldF w) 0 = encodeA f 0 from h)
    rwa [Decode.fieldF_encodeA, Decode.fieldF_encodeA] at h1
  · rintro rfl; rfl

theorem and_F0FF_eq_iff (w : Word) (f : Nibble) (n : Byte) :
    w &&& 0xF0FF = f ++ 0#4 ++ n ↔ fieldF w = f ∧ fieldNN w = n := by
  rw [and_F0FF]
  constructor
  · intro h
    have h1 := congrArg fieldF (show encodeXI (fieldF w) 0 (fieldNN w) = encodeXI f 0 n from h)
    have h2 := congrArg fieldNN (show encodeXI (fieldF w) 0 (fieldNN w) = encodeXI f 0 n from h)
    simp only [Decode.fieldF_encodeXI, Decode.fieldNN_encodeXI] at h1 h2
    exact ⟨h1, h2⟩
  · rintro ⟨rfl, rfl⟩; rfl

theorem and_F00F_eq_iff (w : Word) (f n : Nibble) :
    w &&& 0xF00F = f ++ 0#8 ++ n ↔ fieldF w = f ∧ fieldN w = n := by
  have sh : ∀ f n : Nibble, f ++ 0#8 ++ n = encodeXYN f 0 0 n := by decide
  rw [and_F00F]
  constructor
  · intro h
    rw [sh, sh] at h
    have h1 := congrArg fieldF h
    have h2 := congrArg fieldN h
    simp only [Decode.fieldF_encodeXYN, Decode.fieldN_encodeXYN] at h1 h2
    exact ⟨h1, h2⟩
  · rintro ⟨rfl, rfl⟩; rfl

namespace EncodeMatchesRow
open Sys2Proof.Laws.Decode

/-- The word of a well-formed instruction, masked by its row's mask, is its row's match. -/
def Statement (i : Instr) : Prop := i.wellFormed = true → encode i &&& (rowOf i).1 = (rowOf i).2

theorem sys (nnn : Addr12) : Statement (.sys nnn) := fun _ => by
  rw [rowOf, encode, and_F000, fieldF_encodeA]; rfl
theorem cls : Statement .cls := fun _ => by decide
theorem ret : Statement .ret := fun _ => by decide
theorem jp (nnn : Addr12) : Statement (.jp nnn) := fun _ => by
  rw [rowOf, encode, and_F000, fieldF_encodeA]; rfl
theorem call (nnn : Addr12) : Statement (.call nnn) := fun _ => by
  rw [rowOf, encode, and_F000, fieldF_encodeA]; rfl
theorem seImm (x : Reg) (nn : Byte) : Statement (.seImm x nn) := fun _ => by
  rw [rowOf, encode, and_F000, fieldF_encodeXI]; rfl
theorem sneImm (x : Reg) (nn : Byte) : Statement (.sneImm x nn) := fun _ => by
  rw [rowOf, encode, and_F000, fieldF_encodeXI]; rfl
theorem seReg (x y : Reg) : Statement (.seReg x y) := fun _ => by
  rw [rowOf, encode, and_F000, fieldF_encodeXYN]; rfl
theorem ldImm (x : Reg) (nn : Byte) : Statement (.ldImm x nn) := fun _ => by
  rw [rowOf, encode, and_F000, fieldF_encodeXI]; rfl
theorem addImm (x : Reg) (nn : Byte) : Statement (.addImm x nn) := fun _ => by
  rw [rowOf, encode, and_F000, fieldF_encodeXI]; rfl
theorem ldReg (x y : Reg) : Statement (.ldReg x y) := fun _ => by
  rw [rowOf, encode, and_F00F, fieldF_encodeXYN, fieldN_encodeXYN]; rfl
theorem orReg (x y : Reg) : Statement (.orReg x y) := fun _ => by
  rw [rowOf, encode, and_F00F, fieldF_encodeXYN, fieldN_encodeXYN]; rfl
theorem andReg (x y : Reg) : Statement (.andReg x y) := fun _ => by
  rw [rowOf, encode, and_F00F, fieldF_encodeXYN, fieldN_encodeXYN]; rfl
theorem xorReg (x y : Reg) : Statement (.xorReg x y) := fun _ => by
  rw [rowOf, encode, and_F00F, fieldF_encodeXYN, fieldN_encodeXYN]; rfl
theorem addReg (x y : Reg) : Statement (.addReg x y) := fun _ => by
  rw [rowOf, encode, and_F00F, fieldF_encodeXYN, fieldN_encodeXYN]; rfl
theorem subReg (x y : Reg) : Statement (.subReg x y) := fun _ => by
  rw [rowOf, encode, and_F00F, fieldF_encodeXYN, fieldN_encodeXYN]; rfl
theorem shr (x y : Reg) : Statement (.shr x y) := fun _ => by
  rw [rowOf, encode, and_F00F, fieldF_encodeXYN, fieldN_encodeXYN]; rfl
theorem subn (x y : Reg) : Statement (.subn x y) := fun _ => by
  rw [rowOf, encode, and_F00F, fieldF_encodeXYN, fieldN_encodeXYN]; rfl
theorem shl (x y : Reg) : Statement (.shl x y) := fun _ => by
  rw [rowOf, encode, and_F00F, fieldF_encodeXYN, fieldN_encodeXYN]; rfl
theorem sneReg (x y : Reg) : Statement (.sneReg x y) := fun _ => by
  rw [rowOf, encode, and_F000, fieldF_encodeXYN]; rfl
theorem ldI (nnn : Addr12) : Statement (.ldI nnn) := fun _ => by
  rw [rowOf, encode, and_F000, fieldF_encodeA]; rfl
theorem jpV0 (nnn : Addr12) : Statement (.jpV0 nnn) := fun _ => by
  rw [rowOf, encode, and_F000, fieldF_encodeA]; rfl
theorem rnd (x : Reg) (nn : Byte) : Statement (.rnd x nn) := fun _ => by
  rw [rowOf, encode, and_F000, fieldF_encodeXI]; rfl
theorem drw (x y : Reg) (n : Nibble) : Statement (.drw x y n) := fun _ => by
  rw [rowOf, encode, and_F000, fieldF_encodeXYN]; rfl
theorem skp (x : Reg) : Statement (.skp x) := fun _ => by
  rw [rowOf, encode, and_F0FF, fieldF_encodeXI, fieldNN_encodeXI]; rfl
theorem sknp (x : Reg) : Statement (.sknp x) := fun _ => by
  rw [rowOf, encode, and_F0FF, fieldF_encodeXI, fieldNN_encodeXI]; rfl
theorem ldFromDt (x : Reg) : Statement (.ldFromDt x) := fun _ => by
  rw [rowOf, encode, and_F0FF, fieldF_encodeXI, fieldNN_encodeXI]; rfl
theorem ldKey (x : Reg) : Statement (.ldKey x) := fun _ => by
  rw [rowOf, encode, and_F0FF, fieldF_encodeXI, fieldNN_encodeXI]; rfl
theorem ldDt (x : Reg) : Statement (.ldDt x) := fun _ => by
  rw [rowOf, encode, and_F0FF, fieldF_encodeXI, fieldNN_encodeXI]; rfl
theorem ldSt (x : Reg) : Statement (.ldSt x) := fun _ => by
  rw [rowOf, encode, and_F0FF, fieldF_encodeXI, fieldNN_encodeXI]; rfl
theorem addI (x : Reg) : Statement (.addI x) := fun _ => by
  rw [rowOf, encode, and_F0FF, fieldF_encodeXI, fieldNN_encodeXI]; rfl
theorem ldFont (x : Reg) : Statement (.ldFont x) := fun _ => by
  rw [rowOf, encode, and_F0FF, fieldF_encodeXI, fieldNN_encodeXI]; rfl
theorem ldBcd (x : Reg) : Statement (.ldBcd x) := fun _ => by
  rw [rowOf, encode, and_F0FF, fieldF_encodeXI, fieldNN_encodeXI]; rfl
theorem storeRegs (x : Reg) : Statement (.storeRegs x) := fun _ => by
  rw [rowOf, encode, and_F0FF, fieldF_encodeXI, fieldNN_encodeXI]; rfl
theorem loadRegs (x : Reg) : Statement (.loadRegs x) := fun _ => by
  rw [rowOf, encode, and_F0FF, fieldF_encodeXI, fieldNN_encodeXI]; rfl

end EncodeMatchesRow

end Sys2Proof.Laws
end

