-- ==== Sys2Proof/Laws/Step.lean ====
section
/-! SUPPORT. Everything a step can do, said once (spec/30_encoding.md R102, spec/60_exceptions.md R259, R260); and what each
port and fault operation answers. -/

namespace Sys2Proof.Laws
open Sys2Proof Sys2Proof.Machine

/-- The five things a step can be: halted, refused, a fetch fault, an instruction, an unknown opcode. -/
theorem step_cases (s : State) :
    (s.fault ≠ none ∧ step s = .next s) ∨
    (s.fault = none ∧ ¬ s.cfg.WellFormed ∧ step s = .refused .illFormedConfiguration) ∨
    (s.fault = none ∧ s.cfg.WellFormed ∧ ¬ s.fetchInBounds ∧
      step s = .next (s.enterFault .fetchOutOfBounds 0 (s.pc.toNat + 1))) ∨
    (s.Ready ∧ ∃ i, decodeWord s.instrWord = some i ∧ step s = exec i s) ∨
    (s.Ready ∧ decodeWord s.instrWord = none ∧ step s = .next s.advance) := by
  unfold step
  by_cases hf : s.fault = none
  · have hh : ¬ (s.halted = true) := by simp [State.halted, hf]
    rw [if_neg hh]
    by_cases hc : s.cfg.WellFormed
    · rw [if_neg (not_not.2 hc)]
      by_cases hb : s.fetchInBounds
      · rw [if_neg (not_not.2 hb)]
        cases hd : decodeWord s.instrWord with
        | some i => exact .inr (.inr (.inr (.inl ⟨⟨hf, hc, hb⟩, i, rfl, rfl⟩)))
        | none => exact .inr (.inr (.inr (.inr ⟨⟨hf, hc, hb⟩, rfl, rfl⟩)))
      · rw [if_pos hb]
        exact .inr (.inr (.inl ⟨hf, hc, hb, rfl⟩))
    · rw [if_pos hc]
      exact .inr (.inl ⟨hf, hc, rfl⟩)
  · have hh : s.halted = true := by simpa [State.halted, Option.isSome_iff_ne_none] using hf
    rw [if_pos hh]
    exact .inl ⟨hf, rfl⟩

/-- A raised fault is a next state that differs in the fault register only. -/
@[simp] theorem raise_eq (s : State) (c : FaultCause) (a : Nat) :
    s.raise c a = .next (s.enterFault c s.instrWord a) := rfl

/-- An answer of the blocking port is the oldest scheduled one, and only that queue changes (R224). -/
theorem awaitKey_eq {s t : State} {k : Key} (h : s.awaitKey = some (k, t)) :
    s.answers.wait = k :: s.answers.wait.tail ∧
      t = { s with answers := { s.answers with wait := s.answers.wait.tail } } := by
  unfold State.awaitKey at h
  split at h
  · next hw =>
    cases h
    simp [hw]
  · cases h

/-- The key consulted does not depend on `pc` (R190). -/
@[simp] theorem consultKey_advance (s : State) : s.advance.consultKey.1 = s.consultKey.1 := by
  simp only [State.consultKey, advance_cfg]
  cases s.cfg.keyMode
  · rfl
  · simp only [State.pollKey, advance_answers]
    split <;> rfl

/-- The 17-bit address of a fault record is the address itself: the sums the rules form are at most 0x1000E (R67). -/
theorem faultAddr_toNat {a : Nat} (h : a < 0x20000) : (BitVec.ofNat 17 a).toNat = a := by
  simpa using Nat.mod_eq_of_lt h

end Sys2Proof.Laws
end

