-- ==== Sys2Proof/Tests/Slice0.lean ====
section
/-! SUPPORT. The model's own tests: the words of spec/30_encoding.md R99 written out bit by bit, single steps with the expected
values of spec/95_test_vectors.md, and for every statement with hypotheses a concrete state that meets them. -/

namespace Sys2Proof.Tests
open Sys2Proof Sys2Proof.Machine

/-! ## Helpers -/

/-- The core after reset with the word `w` at `pc` (0x200). -/
def prog (w : Nat) : State := State.reset.withFetchWord 16 w

/-- The same with `v[1]` and `v[2]` set. -/
def prog12 (w : Nat) (a b : Byte) : State := ((prog w).setReg 1 a).setReg 2 b

/-- The same with `i` set and bytes stored from `i` on. -/
def progAt (w : Nat) (i : Nat) (bs : List Byte) : State :=
  ((prog w).setIndex (BitVec.ofNat 16 i)).setMemory (Memory.writeBytes (prog w).memory i bs)

/-- A state with other quirk flags, in the order of R36. -/
def quirked (s : State) (shift jump fx1e inc : Bool) : State :=
  { s with cfg := { s.cfg with
      quirks := { shiftInplace := shift, jumpVxOffset := jump, fx1eOverflow := fx1e, fx55Fx65IncI := inc } } }

/-- A state under the policy `GET_KEY`. -/
def getKey (s : State) : State := { s with cfg := { s.cfg with keyMode := .getKey } }

/-- What a test reads of a step's outcome; `none` where there is no next state. -/
def look {α : Type} (o : Out) (f : State → α) : Option α :=
  match o with
  | .next t => some (f t)
  | .fault _ => none
  | .refused _ => none

/-- The fault code, address of the instruction, word and address that a state records (R252). -/
def record (s : State) : Option (BitVec 3 × Word × Word × Nat) :=
  s.fault.map (fun f => (f.cause.code, f.pc0, f.word, f.addr.toNat))

/-- The outcome is a next state with this record. -/
def records (o : Out) (code : BitVec 3) (pc0 word : Word) (addr : Nat) : Bool :=
  decide (look o record = some (some (code, pc0, word, addr)))

/-- Bytes of memory from an address on. -/
def bytes (s : State) (a n : Nat) : List Byte := (List.range n).map (fun k => Memory.read s.memory (a + k))

/-! ## WellFormed refuses an ill-formed instruction -/

theorem test_wellFormed_refuses_sys_of_cls_word : (Instr.sys 0x0E0).wellFormed = false := by decide
theorem test_wellFormed_refuses_sys_of_ret_word : (Instr.sys 0x1EE).wellFormed = false := by decide

/-! ## Every constructor's decoding, the word written from its pattern (R99) -/

theorem test_decode_sys : decodeWord 0b0000000100100011 = some (.sys 0x123) := by decide
theorem test_decode_cls : decodeWord 0b0000000011100000 = some .cls := by decide
theorem test_decode_ret : decodeWord 0b0000000011101110 = some .ret := by decide
theorem test_decode_jp : decodeWord 0b0001101010111100 = some (.jp 0xABC) := by decide
theorem test_decode_call : decodeWord 0b0010001100000001 = some (.call 0x301) := by decide
theorem test_decode_seImm : decodeWord 0b0011000101000010 = some (.seImm 1 0x42) := by decide
theorem test_decode_sneImm : decodeWord 0b0100000101000011 = some (.sneImm 1 0x43) := by decide
theorem test_decode_seReg : decodeWord 0b0101000100100000 = some (.seReg 1 2) := by decide
theorem test_decode_ldImm : decodeWord 0b0110101000010010 = some (.ldImm 10 0x12) := by decide
theorem test_decode_addImm : decodeWord 0b0111000100000010 = some (.addImm 1 0x02) := by decide
theorem test_decode_ldReg : decodeWord 0b1000000100100000 = some (.ldReg 1 2) := by decide
theorem test_decode_orReg : decodeWord 0b1000000100100001 = some (.orReg 1 2) := by decide
theorem test_decode_andReg : decodeWord 0b1000000100100010 = some (.andReg 1 2) := by decide
theorem test_decode_xorReg : decodeWord 0b1000000100100011 = some (.xorReg 1 2) := by decide
theorem test_decode_addReg : decodeWord 0b1000000100100100 = some (.addReg 1 2) := by decide
theorem test_decode_subReg : decodeWord 0b1000000100100101 = some (.subReg 1 2) := by decide
theorem test_decode_shr : decodeWord 0b1000000100100110 = some (.shr 1 2) := by decide
theorem test_decode_subn : decodeWord 0b1000000100100111 = some (.subn 1 2) := by decide
theorem test_decode_shl : decodeWord 0b1000000100101110 = some (.shl 1 2) := by decide
theorem test_decode_sneReg : decodeWord 0b1001000100110000 = some (.sneReg 1 3) := by decide
theorem test_decode_ldI : decodeWord 0b1010111111111111 = some (.ldI 0xFFF) := by decide
theorem test_decode_jpV0 : decodeWord 0b1011001100000000 = some (.jpV0 0x300) := by decide
theorem test_decode_rnd : decodeWord 0b1100001100001111 = some (.rnd 3 0x0F) := by decide
theorem test_decode_drw : decodeWord 0b1101111100010101 = some (.drw 15 1 5) := by decide
theorem test_decode_skp : decodeWord 0b1110000110011110 = some (.skp 1) := by decide
theorem test_decode_sknp : decodeWord 0b1110000110100001 = some (.sknp 1) := by decide
theorem test_decode_ldFromDt : decodeWord 0b1111001100000111 = some (.ldFromDt 3) := by decide
theorem test_decode_ldKey : decodeWord 0b1111001100001010 = some (.ldKey 3) := by decide
theorem test_decode_ldDt : decodeWord 0b1111010000010101 = some (.ldDt 4) := by decide
theorem test_decode_ldSt : decodeWord 0b1111010000011000 = some (.ldSt 4) := by decide
theorem test_decode_addI : decodeWord 0b1111000100011110 = some (.addI 1) := by decide
theorem test_decode_ldFont : decodeWord 0b1111000100101001 = some (.ldFont 1) := by decide
theorem test_decode_ldBcd : decodeWord 0b1111000100110011 = some (.ldBcd 1) := by decide
theorem test_decode_storeRegs : decodeWord 0b1111001101010101 = some (.storeRegs 3) := by decide
theorem test_decode_loadRegs : decodeWord 0b1111001101100101 = some (.loadRegs 3) := by decide

/-- Aliases (R96, R97): `X` of 00E0, `N` of 5XY0 and 9XY0. -/
theorem test_decode_aliases : decodeWord 0x01E0 = some .cls ∧ decodeWord 0x5121 = some (.seReg 1 2) ∧
    decodeWord 0x913F = some (.sneReg 1 3) := by decide

/-- The unknown words of spec/95_test_vectors.md. -/
theorem test_decode_unknown : decodeWord 0x8128 = none ∧ decodeWord 0x812F = none ∧ decodeWord 0xE000 = none ∧
    decodeWord 0xE19F = none ∧ decodeWord 0xF000 = none ∧ decodeWord 0xF1FF = none := by decide

/-- Byte order and length (R61, R90): 6A 12 is 0x6A12, and one byte is no instruction. -/
theorem test_decode_bytes : decode [0x6A, 0x12, 0x99] = .ok (.ldImm 10 0x12, [0x99]) ∧
    decode [0x6A] = .error .truncated ∧ decode [0x81, 0x28] = .error (.unknownOpcode 0x8128) := ⟨rfl, rfl, rfl⟩

theorem test_decodeTableWord : decodeTableWord 16 0xD015 = some (.drw 0 1 5) ∧ decodeTableWord 16 0xF0FF = none := by
  decide

/-! ## One step of each instruction; expected values from spec/95_test_vectors.md -/

theorem test_sys : look (step (prog 0x0123)) (fun t => (t.pc, t.fault.isSome)) = some (0x202, false) := by decide
theorem test_cls : look (step ((prog 0x01E0).setDisplay [0, 100])) (fun t => (t.display, t.pc)) = some ([], 0x202) := by
  decide
theorem test_ret : look (step { prog 0x00EE with sp := 1, stack := 0x0ABC :: List.replicate 15 0 })
    (fun t => (t.pc, t.sp, t.stackAt 0)) = some (0x0ABC, 0, 0x0ABC) := by decide
theorem test_ret_underflow : look (step (prog 0x00EE)) (fun t => (record t, t.pc, t.sp)) =
    some (some (3, 0x200, 0x00EE, 0), 0x200, 0) := by decide
theorem test_jp : look (step (prog 0x1ABC)) (fun t => t.pc) = some 0x0ABC := by decide
theorem test_call : look (step { prog 0x2300 with sp := 15 }) (fun t => (t.pc, t.sp, t.stackAt 15)) =
    some (0x300, 16, 0x0202) := by decide
theorem test_call_overflow : look (step { prog 0x2300 with sp := 16 }) (fun t => (record t, t.pc, t.sp)) =
    some (some (2, 0x200, 0x2300, 0), 0x200, 16) := by decide
theorem test_jpV0 : look (step ((prog 0xBFFF).setReg 0 0xFF)) (fun t => t.pc) = some 0x10FE := by decide
theorem test_jpV0_quirk : look (step (quirked (((prog 0xB300).setReg 0 0xFF).setReg 3 4) false true false false))
    (fun t => t.pc) = some 0x304 := by decide
theorem test_seImm : look (step (prog12 0x3142 0x42 0x42)) (fun t => t.pc) = some 0x204 ∧
    look (step (prog12 0x3143 0x42 0x42)) (fun t => t.pc) = some 0x202 := by decide
theorem test_sneImm : look (step (prog12 0x4142 0x42 0x42)) (fun t => t.pc) = some 0x202 ∧
    look (step (prog12 0x4143 0x42 0x42)) (fun t => t.pc) = some 0x204 := by decide
theorem test_seReg : look (step (prog12 0x5121 0x42 0x42)) (fun t => t.pc) = some 0x204 ∧
    look (step (prog12 0x5120 0x42 0x43)) (fun t => t.pc) = some 0x202 := by decide
theorem test_sneReg : look (step (prog12 0x9120 0x42 0x42)) (fun t => t.pc) = some 0x202 ∧
    look (step (prog12 0x912F 0x42 0x43)) (fun t => t.pc) = some 0x204 := by decide
theorem test_ldImm : look (step (prog 0x6AFF)) (fun t => t.reg 10) = some 0xFF := by decide
theorem test_addImm : look (step ((prog12 0x7102 0xFF 0).setReg 15 7)) (fun t => (t.reg 1, t.reg 15)) =
    some (0x01, 7) := by decide
theorem test_addImm_vf : look (step ((prog 0x7F01).setReg 15 7)) (fun t => t.reg 15) = some 8 := by decide
theorem test_ldI : look (step (prog 0xAFFF)) (fun t => t.i) = some 0x0FFF := by decide
theorem test_rnd : look (step ((prog 0xC30F).answerRnd 0xB7)) (fun t => (t.reg 3, t.answers.rnd)) = some (0x07, []) := by
  decide
theorem test_ldReg : look (step (prog12 0x8120 0x01 0x5A)) (fun t => (t.reg 1, t.reg 2)) = some (0x5A, 0x5A) := by decide
theorem test_orReg : look (step (prog12 0x8121 0xF0 0x3C)) (fun t => t.reg 1) = some 0xFC := by decide
theorem test_andReg : look (step (prog12 0x8122 0xF0 0x3C)) (fun t => t.reg 1) = some 0x30 := by decide
theorem test_xorReg : look (step (prog12 0x8123 0xF0 0x3C)) (fun t => t.reg 1) = some 0xCC := by decide
theorem test_addReg : look (step (prog12 0x8124 0xFF 0xFF)) (fun t => (t.reg 1, t.reg 15)) = some (0xFE, 1) ∧
    look (step (prog12 0x8124 0x7F 0x80)) (fun t => (t.reg 1, t.reg 15)) = some (0xFF, 0) := by decide
theorem test_addReg_vf : look (step (((prog 0x8F24).setReg 15 0xF0).setReg 2 0x20)) (fun t => t.reg 15) = some 1 := by
  decide
theorem test_subReg : look (step (prog12 0x8125 0x03 0x05)) (fun t => (t.reg 1, t.reg 15)) = some (0xFE, 0) ∧
    look (step (prog12 0x8125 0x07 0x07)) (fun t => (t.reg 1, t.reg 15)) = some (0x00, 1) := by decide
theorem test_subReg_vf : look (step (((prog 0x81F5).setReg 1 0xFF).setReg 15 2)) (fun t => (t.reg 1, t.reg 15)) =
    some (0xFD, 1) := by decide
theorem test_subn : look (step (prog12 0x8127 0x03 0x05)) (fun t => (t.reg 1, t.reg 15)) = some (0x02, 1) ∧
    look (step (prog12 0x8127 0x05 0x03)) (fun t => (t.reg 1, t.reg 15)) = some (0xFE, 0) := by decide
theorem test_shr : look (step (prog12 0x8126 0x00 0xFF)) (fun t => (t.reg 1, t.reg 2, t.reg 15)) =
    some (0x7F, 0xFF, 1) := by decide
theorem test_shr_quirk : look (step (quirked (prog12 0x8126 0x80 0xFF) true false false false))
    (fun t => (t.reg 1, t.reg 15)) = some (0x40, 0) := by decide
theorem test_shl : look (step (prog12 0x812E 0x00 0x81)) (fun t => (t.reg 1, t.reg 15)) = some (0x02, 1) := by decide
theorem test_shl_vf : look (step ((prog 0x8F2E).setReg 2 0x81)) (fun t => t.reg 15) = some 2 := by decide
/-- S5 and the row of D19: the right edge clips, and a 0 bit over a lit cell is no collision. -/
theorem test_drw : look (step ((progAt 0xD011 0x300 [0xFF]).setReg 0 60)) (fun t => (t.display, t.reg 15)) =
      some ([60, 61, 62, 63], 0) ∧
    look (step ((progAt 0xD011 0x300 [0x40]).setDisplay [0])) (fun t => (t.display, t.reg 15)) = some ([0, 1], 0) ∧
    look (step ((progAt 0xD011 0x300 [0xC0]).setDisplay [0])) (fun t => (t.display, t.reg 15)) = some ([1], 1) := by decide
/-- `i = 0xFFF`: two rows fault, but on the last line the second row is clipped and not fetched. -/
theorem test_drw_bounds : look (step (progAt 0xD012 0xFFF [0x80])) (fun t => (record t, t.display)) =
      some (some (4, 0x200, 0xD012, 0x1000), []) ∧
    look (step ((progAt 0xD012 0xFFF [0x80]).setReg 1 31)) (fun t => (t.fault.isSome, t.display)) =
      some (false, [1984]) := by
  decide
theorem test_skp : look (step ((prog12 0xE19E 5 0).pushKey (some 5))) (fun t => t.pc) = some 0x204 ∧
    look (step (prog12 0xE19E 0xFF 0)) (fun t => t.pc) = some 0x202 := by decide
theorem test_skp_getKey : look (step (((getKey (prog12 0xE19E 7 0)).pushKey (some 1)).answerPoll (some 7)))
    (fun t => t.pc) = some 0x204 := by decide
theorem test_sknp : look (step ((prog12 0xE1A1 5 0).pushKey (some 5))) (fun t => t.pc) = some 0x202 ∧
    look (step (prog12 0xE1A1 0xFF 0)) (fun t => t.pc) = some 0x204 := by decide
theorem test_ldFromDt : look (step ((prog 0xF307).setDelayTimer 0x2A)) (fun t => (t.reg 3, t.delayTimer)) =
    some (0x2A, 0x2A) := by decide
theorem test_ldKey : look (step ((prog 0xF30A).pushKey (some 0x0A))) (fun t => (t.reg 3, t.pc)) = some (0x0A, 0x202) := by
  decide
theorem test_ldKey_getKey : look (step (((getKey (prog 0xF30A)).pushKey (some 1)).answerWait (some 0x0C)))
      (fun t => (t.reg 3, t.pc)) = some (0x0C, 0x202) ∧
    look (step (getKey (prog 0xF30A))) (fun t => t.pc) = none := by decide
theorem test_ldDt : look (step (((prog 0xF415).setReg 4 0x63).setDelayTimer 0x2A))
    (fun t => (t.delayTimer, t.soundTimer)) = some (0x63, 0) := by decide
theorem test_ldSt : look (step (((prog 0xF418).setReg 4 0x63).setDelayTimer 0x2A))
    (fun t => (t.delayTimer, t.soundTimer)) = some (0x2A, 0x63) := by decide
theorem test_addI : look (step ((progAt 0xF11E 0x0FFE []).setReg 1 5)) (fun t => (t.i, t.reg 15)) = some (0x1003, 0) := by
  decide
theorem test_addI_quirk :
    look (step (quirked ((progAt 0xFF1E 0x0FFF []).setReg 15 1) false false true false)) (fun t => (t.i, t.reg 15)) =
      some (0x1000, 1) ∧
    look (step (quirked ((progAt 0xF11E 0xFFFF []).setReg 1 1) false false true false)) (fun t => (t.i, t.reg 15)) =
      some (0, 0) := by decide
theorem test_ldFont : look (step ((prog 0xF129).setReg 1 0x1A)) (fun t => t.i) = some 0x0082 := by decide
theorem test_ldBcd : look (step ((progAt 0xF133 0xFFD []).setReg 1 255)) (fun t => bytes t 0xFFD 3) =
    some [2, 5, 5] := by decide
theorem test_ldBcd_bounds : look (step ((progAt 0xF133 0xFFFF []).setReg 1 255)) (fun t => (record t, bytes t 0xFFE 2)) =
    some (some (4, 0x200, 0xF133, 0x10001), [0, 0]) := by decide
theorem test_storeRegs : look (step (((((prog12 0xF355 2 3).setReg 0 1).setReg 3 4).setReg 4 9).setIndex 0x300))
    (fun t => (bytes t 0x300 5, t.i)) = some ([1, 2, 3, 4, 0], 0x300) := by decide
theorem test_storeRegs_quirk : look (step (quirked ((prog12 0xF355 2 3).setIndex 0xFFC) false false false true))
    (fun t => (bytes t 0xFFC 4, t.i, t.fault.isSome)) =
      some ([0, 2, 3, 0], 0x1000, false) := by decide
theorem test_loadRegs : look (step ((progAt 0xF365 0x300 [0xAA, 0xBB, 0xCC, 0xDD, 0xEE]).setReg 4 9))
    (fun t => (t.reg 0, t.reg 1, t.reg 2, t.reg 3, t.reg 4, t.i)) = some (0xAA, 0xBB, 0xCC, 0xDD, 9, 0x300) := by decide
theorem test_loadRegs_bounds : look (step (progAt 0xF165 0xFFFE [])) record =
    some (some (4, 0x200, 0xF165, 0xFFFF)) := by decide

/-! ## Fetch, unknown opcodes, the halted core, host operations -/

theorem test_unknown : look (step (prog 0x8128)) (fun t => (t.pc, t.fault.isSome)) = some (0x202, false) ∧
    (prog 0x8128).unknownOpcodeEvent = some { pc0 := 0x200, word := 0x8128 } := by decide
theorem test_fetch_last : look (step { State.reset with pc := 0xFFE }) (fun t => (t.pc, record t)) =
    some (0x1000, none) := by decide
theorem test_fetch_fault : look (step { State.reset with pc := 0xFFF }) (fun t => (t.pc, record t)) =
    some (0xFFF, some (1, 0xFFF, 0, 0x1000)) := by decide
theorem test_halted : look (step ((prog 0x6AFF).enterFault .stackUnderflow 0x00EE 0)) (fun t => (t.reg 10, t.pc)) =
    some (0, 0x200) := by decide
theorem test_tick : ((prog 0).setDelayTimer 2).timerTick.delayTimer = 1 ∧ (prog 0).timerTick.soundTimer = 0 := by decide
theorem test_loadProgram : look ((prog 0).loadProgram [0x12, 0x03, 0x00, 0x61]) (fun t => bytes t 0x200 4) =
    some [0x12, 0x03, 0x00, 0x61] := by decide
theorem test_loadFont : look ((prog 0).loadFont [0xF0, 0x90]) (fun t => bytes t 0x050 3) = some [0xF0, 0x90, 0] := by decide
theorem test_displayRead : ((prog 0).setDisplay [2046]).displayRead 62 31 = 1 ∧
    ((prog 0).setDisplay [2046]).displayRead 63 31 = 0 := by decide
theorem test_keyWaitReq : (getKey (prog 0xF30A)).keyWaitReq = true ∧ (prog 0xF30A).keyWaitReq = false := by decide
theorem test_fault_outputs : let s := (prog 0xF133).enterFault .outOfBounds 0xF133 0x1000
    s.faultValid = true ∧ s.faultCauseCode = 4 ∧ s.faultPc = some 0x200 ∧ s.faultWord = some 0xF133 ∧
      s.faultAddr = some 0x1000 ∧ (prog 0).faultValid = false := by decide
theorem test_core_step : core.step = step ∧ core.reset = State.reset := ⟨rfl, rfl⟩

/-! ## Witnesses: for each statement with hypotheses, concrete states and operands that meet them, at the edges of their ranges -/

/-- The core with `pc` set. -/
def atPc (s : State) (a : Word) : State := { s with pc := a }

/-- The core with one return address pushed. -/
def pushed (s : State) : State := { s with sp := 1, stack := 0x0ABC :: List.replicate 15 0 }

/-- The core with `sp` set. -/
def withSp (s : State) (n : Nat) : State := { s with sp := n }

/-- The core as P7 of spec/95_test_vectors.md leaves it. -/
def faulted : State := (prog 0x00EE).enterFault .stackUnderflow 0x00EE 0

theorem witness_ready : (prog 0x6A12).Ready ∧ (atPc State.reset 0xFFE).Ready :=
  ⟨⟨rfl, by decide, by decide⟩, ⟨rfl, by decide, by decide⟩⟩

/-- Every mask and match selects its bare pattern and the word with all fields at their highest values. -/
theorem witness_EncodedAs : ∀ r ∈ opcodeTable, r.pattern &&& r.mask = r.pattern ∧
    (r.pattern ||| ~~~r.mask) &&& r.mask = r.pattern := by decide

theorem witness_EncodedInstructionDecodesBack : (Instr.drw 15 15 15).wellFormed = true ∧
    (Instr.sys 0xFFF).wellFormed = true ∧ (Instr.sys 0x0EF).wellFormed = true := by decide

theorem witness_DecodedWordEncodesBackUpToIgnoredBits : decodeWord 0x0FE0 = some .cls ∧
    decodeWord 0x512F = some (.seReg 1 2) ∧ decodeWord 0xD12F = some (.drw 1 2 15) := by decide

theorem witness_UnknownOpcodeIsTwoByteNoOp : (prog 0x8128).Ready ∧ decodeWord (prog 0x8128).instrWord = none ∧
    (prog 0xFFFF).Ready ∧ decodeWord (prog 0xFFFF).instrWord = none :=
  ⟨⟨rfl, by decide, by decide⟩, by decide, ⟨rfl, by decide, by decide⟩, by decide⟩

theorem witness_StepRunsDecodedInstruction :
    ((prog 0x6A12).fault = none ∧ (prog 0x6A12).cfg.WellFormed ∧ (prog 0x6A12).pc.toNat + 1 < (prog 0x6A12).cfg.memorySize) ∧
    decode [Memory.read (prog 0x6A12).memory 0x200, Memory.read (prog 0x6A12).memory 0x201] = .ok (.ldImm 10 0x12, []) ∧
    (atPc State.reset 0xFFE).pc.toNat + 1 < (atPc State.reset 0xFFE).cfg.memorySize ∧
    decode [Memory.read (atPc State.reset 0xFFE).memory 0xFFE, Memory.read (atPc State.reset 0xFFE).memory 0xFFF] =
      .ok (.sys 0, []) :=
  ⟨⟨rfl, by decide, by decide⟩, rfl, by decide, rfl⟩

/-- Both sides of the bound `memorySize - 2`. -/
theorem witness_FetchFaultsExactlyPastMemorySizeMinusTwo :
    ((atPc State.reset 0xFFF).fault = none ∧ (atPc State.reset 0xFFF).cfg.WellFormed ∧
      (atPc State.reset 0xFFF).pc.toNat > (atPc State.reset 0xFFF).cfg.memorySize - 2) ∧
    ¬ (atPc State.reset 0xFFE).pc.toNat > (atPc State.reset 0xFFE).cfg.memorySize - 2 :=
  ⟨⟨rfl, by decide, by decide⟩, by decide⟩

theorem witness_FaultingStepChangesOnlyFaultRegister : (prog 0x00EE).fault = none ∧ step (prog 0x00EE) = .next faulted ∧
    faulted.fault = some ⟨.stackUnderflow, 0x200, 0x00EE, 0⟩ := ⟨rfl, rfl, rfl⟩

/-- A record of each cause; the memory causes at the first address outside; and no record one address before. -/
theorem witness_FaultRecordsFollowCauseTable :
    records (step (atPc State.reset 0xFFF)) 1 0xFFF 0 0x1000 = true ∧
    records (step (withSp (prog 0x2300) 16)) 2 0x200 0x2300 0 = true ∧
    records (step (prog 0x00EE)) 3 0x200 0x00EE 0 = true := by decide

theorem witness_FaultRecordsFollowCauseTable_memory :
    records (step (progAt 0xD012 0xFFF [])) 4 0x200 0xD012 0x1000 = true ∧
    records (step (progAt 0xF133 0xFFE [])) 4 0x200 0xF133 0x1000 = true ∧
    records (step (progAt 0xF355 0xFFD [])) 4 0x200 0xF355 0x1000 = true ∧
    records (step (progAt 0xF365 0xFFD [])) 4 0x200 0xF365 0x1000 = true := by decide

theorem witness_FaultRecordsFollowCauseTable_none :
    look (step (withSp (prog 0x2300) 15)) (fun t => t.fault.isSome) = some false ∧
    look (step (progAt 0xD011 0xFFF [])) (fun t => t.fault.isSome) = some false ∧
    look (step (progAt 0xF133 0xFFD [])) (fun t => t.fault.isSome) = some false ∧
    look (step (progAt 0xF355 0xFFC [])) (fun t => t.fault.isSome) = some false ∧
    look (step (progAt 0xF365 0xFFC [])) (fun t => t.fault.isSome) = some false := by decide

theorem witness_HaltedCoreStaysHaltedUntilReset : faulted.fault = some ⟨.stackUnderflow, 0x200, 0x00EE, 0⟩ ∧
    (∀ c, HostOp.timerTick ≠ .reset c) ∧ Configuration.suggested.WellFormed :=
  ⟨rfl, fun _ h => HostOp.noConfusion h, by decide⟩

theorem witness_SysOnlyAdvancesPc : (0x0FFF#16 &&& 0xF000 = 0x0000 ∧ fieldNN 0x0FFF ≠ 0xE0 ∧ fieldNN 0x0FFF ≠ 0xEE) ∧
    decodeWord (prog 0x0123).instrWord = some (.sys 0x123) := by decide

theorem witness_RetPopsReturnAddressOrUnderflows : (pushed State.reset).sp ≠ 0 ∧ State.reset.sp = 0 := by decide

/-- The last free entry and the full stack. -/
theorem witness_CallPushesReturnAddressOrOverflows :
    ((withSp State.reset 15).stack.length = (withSp State.reset 15).cfg.stackSize ∧
      (withSp State.reset 15).sp < (withSp State.reset 15).cfg.stackSize) ∧
    (withSp State.reset 16).cfg.stackSize ≤ (withSp State.reset 16).sp ∧ (0 : Nat) ≠ (withSp State.reset 15).sp := by decide

theorem witness_JpV0AddsOffsetRegister : State.reset.cfg.quirks.jumpVxOffset = false ∧
    (quirked State.reset false true false false).cfg.quirks.jumpVxOffset = true ∧
    (15 : Reg).val = (0xFFF : Addr12).toNat / 256 ∧ (0 : Reg).val = (0x0FF : Addr12).toNat / 256 := by decide

theorem witness_RndMasksOneRandomSample : (prog 0xC30F).answers.rnd = [] ∧
    ((prog 0xC30F).answerRnd 0xB7).answers.rnd = 0xB7 :: [] ∧ exec .cls State.reset = .next (State.reset.advance.setDisplay []) ∧
    (∀ x nn, Instr.cls ≠ .rnd x nn) :=
  ⟨rfl, rfl, rfl, fun _ _ h => Instr.noConfusion h⟩

/-- A register other than 15, and the two ends of the register numbers. -/
theorem witness_registers : (0 : Reg) ≠ 15 ∧ (14 : Reg) ≠ 15 ∧ (15 : Reg) = 15 := by decide

/-- The shift operand under both settings of the quirk (ShrShiftsRightByOne, ShlShiftsLeftByOne,
FlagWriteOrderWithRegisterFifteen). -/
theorem witness_ShiftOperand :
    (0xFF : Byte) = (if (prog12 0x8126 0 0xFF).cfg.quirks.shiftInplace then (prog12 0x8126 0 0xFF).reg 1
      else (prog12 0x8126 0 0xFF).reg 2) ∧
    (0x80 : Byte) = (if (quirked (prog12 0x8126 0x80 0xFF) true false false false).cfg.quirks.shiftInplace
      then (quirked (prog12 0x8126 0x80 0xFF) true false false false).reg 1
      else (quirked (prog12 0x8126 0x80 0xFF) true false false false).reg 2) ∧
    (prog12 0x8126 0 0xFF).cfg.quirks.shiftInplace = false := by decide

/-- Draw: no row; the last row that fits memory; the first that does not; cells inside and outside; both values of VF. -/
theorem witness_DrwXorsClippedSprite :
    (0 = ((progAt 0xD011 0xFFF [0x80]).reg 0).toNat % 64 ∧ 1 = min (1 : Nibble).toNat (32 - 0) ∧ 8 = min 8 (64 - 0)) ∧
    (progAt 0xD011 0xFFF [0x80]).i.toNat + 1 - 1 < (progAt 0xD011 0xFFF [0x80]).cfg.memorySize ∧
    0 = min (0 : Nibble).toNat (32 - 0) ∧
    (progAt 0xD012 0xFFF [0x80]).cfg.memorySize ≤ (progAt 0xD012 0xFFF [0x80]).i.toNat + 2 - 1 ∧
    (Memory.read (progAt 0xD011 0xFFF [0x80]).memory 0xFFF).getLsbD 7 = true ∧
    (progAt 0xD011 0xFFF [0x80]).pixel 0 0 = false ∧
    ((progAt 0xD011 0xFFF [0x80]).setDisplay [0]).pixel 0 0 = true ∧
    ¬ (0 ≤ 8 ∧ 8 < 0 + 8 ∧ 0 ≤ 0 ∧ 0 < 0 + 1) := by decide

/-- A state that draws a lit cell's own bit twice, with the hypotheses of both statements on drawing twice. -/
theorem witness_DrawingTwice :
    (State.Inv ((progAt 0xD011 0x300 [0x80]).setDisplay [0])) ∧ (0 : Reg) ≠ 15 ∧ (1 : Reg) ≠ 15 ∧
    look (exec (.drw 0 1 1) ((progAt 0xD011 0x300 [0x80]).setDisplay [0])) (fun t => (t.display, t.reg 15, t.fault.isSome)) =
      some ([], 1, false) ∧
    look (exec (.drw 0 1 1) (progAt 0xD011 0x300 [0x80])) (fun t => (t.display, t.reg 15, t.fault.isSome)) =
      some ([0], 0, false) ∧
    (Memory.read ((progAt 0xD011 0x300 [0x80]).setDisplay [0]).memory 0x300).getLsbD (7 - 0) = true :=
  ⟨⟨by decide, by decide, by decide, by decide, by decide, by decide, by decide, fun k h => absurd h (Nat.not_lt_zero k),
    by decide⟩, by decide, by decide, by decide, by decide, by decide⟩

/-- With `X = 15` the place is the same where the first draw leaves VF at the column it drew at, and another where it does not. -/
theorem witness_DrawingTwiceRestoresDisplay_vf :
    (((progAt 0xDF11 0x300 [0x80]).reg 15).toNat % 64 = 0 ∧ (0 = 0 ∨ 0x300 + 1 - 1 < 4096)) ∧
    look (exec (.drw 15 1 1) (progAt 0xDF11 0x300 [0x80])) (fun t => (t.reg 15).toNat % 64) = some 0 ∧
    look (exec (.drw 15 1 1) ((progAt 0xDF11 0x300 [0x80]).setDisplay [0])) (fun t => (t.reg 15).toNat % 64) = some 1 := by
  decide

theorem witness_KeySkipsCompareConsultedKey : State.reset.cfg.keyMode = .useGivenKey ∧
    (getKey State.reset).cfg.keyMode = .getKey ∧ ((getKey State.reset).answerPoll (some 7)).answers.poll = some 7 :: [] ∧
    ((getKey State.reset).answerPoll none).answers.poll = none :: [] := by decide

theorem witness_LdKeyWaitsForBlockingPort : (State.reset.cfg.keyMode = .useGivenKey ∧ State.reset.key = none ∧
      (State.reset.pushKey (some 5)).key = some 5) ∧
    ((getKey State.reset).cfg.keyMode = .getKey ∧ (getKey State.reset).answers.wait = []) ∧
    ((getKey State.reset).answerWait (some 0x0C)).answers.wait = some 0x0C :: [] ∧
    ((getKey State.reset).answerWait none).answers.wait = none :: [] := by decide

theorem witness_PushKeyIsInvisibleUnderGetKey : (getKey State.reset).cfg.keyMode = .getKey ∧
    exec .cls (getKey State.reset) = .next ((getKey State.reset).advance.setDisplay []) ∧
    exec (.ldKey 3) (getKey State.reset) = .fault .stuckAwaitingKey ∧
    hostStep (.pushKey (some 5)) State.reset = .next (State.reset.pushKey (some 5)) ∧
    (State.reset.pushKey (some 5)).key ≠ State.reset.key := ⟨rfl, rfl, rfl, rfl, by decide⟩

theorem witness_AddIWrapsAndFlagsTwelveBitOverflow : State.reset.cfg.quirks.fx1eOverflow = false ∧
    (quirked State.reset false false true false).cfg.quirks.fx1eOverflow = true := by decide

theorem witness_LdFontPointsAtGlyph : State.reset.cfg.WellFormed := by decide

/-- `i + 2` at the last legal address and one past it. -/
theorem witness_LdBcdStoresThreeDigits :
    (progAt 0xF133 0xFFD []).ea 2 < (progAt 0xF133 0xFFD []).cfg.memorySize ∧
    (progAt 0xF133 0xFFE []).cfg.memorySize ≤ (progAt 0xF133 0xFFE []).ea 2 := by decide

/-- `i + X` at the last legal address and one past it, `X` at 0 and 15, both settings of the quirk (StoreRegsDumpsRange,
LoadRegsLoadsRange, RegisterDumpThenLoadRestores, StoredBytesAreFetchedNext). -/
theorem witness_RegisterRange :
    (progAt 0xFF55 0xFF0 []).ea (15 : Reg).val < (progAt 0xFF55 0xFF0 []).cfg.memorySize ∧
    (progAt 0xFF55 0xFF1 []).cfg.memorySize ≤ (progAt 0xFF55 0xFF1 []).ea (15 : Reg).val ∧
    (progAt 0xF055 0xFFF []).ea (0 : Reg).val < (progAt 0xF055 0xFFF []).cfg.memorySize ∧
    (progAt 0xF055 0x1000 []).cfg.memorySize ≤ (progAt 0xF055 0x1000 []).ea (0 : Reg).val ∧
    (quirked State.reset false false false true).cfg.quirks.fx55Fx65IncI = true ∧
    State.reset.cfg.quirks.fx55Fx65IncI = false ∧
    (15 : Reg) ≤ 15 ∧ (0 : Reg) ≤ 0 ∧ (0 : Reg) < 1 ∧ (15 : Reg).val = (14 : Reg).val + 1 := by decide

/-- A state that loads what another has stored, from the same `i`. -/
theorem witness_RegisterDumpThenLoadRestores : ∃ t, exec (.storeRegs 3) (prog12 0xF355 2 3) = .next t ∧
    ∃ m : State, m.memory = t.memory ∧ m.i = (prog12 0xF355 2 3).i ∧ m.cfg = (prog12 0xF355 2 3).cfg :=
  ⟨_, rfl, _, rfl, rfl, rfl⟩

/-- A state whose `pc` points at a stored byte. -/
theorem witness_StoredBytesAreFetchedNext : (∃ t, exec (.storeRegs 1) (progAt 0xF155 0x208 []) = .next t) ∧
    ∀ t : State, ∃ u : State, u.memory = t.memory ∧ u.pc.toNat = (progAt 0xF155 0x208 []).ea (0 : Reg).val :=
  ⟨⟨_, rfl⟩, fun t => ⟨atPc t 0x208, rfl, rfl⟩⟩

/-- An instruction that writes each piece of state (EachStateHasOnlyItsNamedWriters). -/
theorem witness_EachStateHasOnlyItsNamedWriters :
    look (exec (.ldDt 1) (prog12 0 5 0)) (fun t => t.delayTimer) = some 5 ∧
    look (exec (.ldSt 1) (prog12 0 5 0)) (fun t => t.soundTimer) = some 5 ∧
    look (exec (.call 0x300) State.reset) (fun t => (t.stackAt 0, t.sp)) = some (0x202, 1) ∧
    look (exec .ret (pushed State.reset)) (fun t => t.sp) = some 0 ∧
    look (exec .cls ((prog 0).setDisplay [1])) (fun t => t.display) = some [] ∧
    look (exec (.ldBcd 1) (prog12 0 5 0)) (fun t => Memory.read t.memory 2) = some 5 ∧
    look (exec (.ldI 0x123) State.reset) (fun t => t.i) = some 0x123 ∧
    look (exec .ret State.reset) (fun t => t.fault.isSome) = some true := by decide

theorem witness_OnlyFlagWritersOrNamedDestinationChangeVF :
    look (exec (.addReg 1 2) (prog12 0 0xFF 0xFF)) (fun t => t.reg 15) = some 1 ∧ (prog12 0 0xFF 0xFF).reg 15 = 0 := by
  decide

/-- A step that faults and one that does not (StepMovesPcAsTable). -/
theorem witness_StepMovesPcAsTable : (prog 0x00EE).fault = none ∧ step (prog 0x00EE) = .next faulted ∧
    faulted.fault ≠ none ∧ (prog 0x0123).fault = none ∧ step (prog 0x0123) = .next (prog 0x0123).advance ∧ (prog 0x0123).advance.fault = none :=
  ⟨rfl, rfl, by decide, rfl, rfl, rfl⟩

/-- An ill-formed Configuration, a well-formed one, and the one step that does not complete. -/
theorem witness_OnlyUnansweredKeyWaitDoesNotComplete :
    (¬ { Configuration.suggested with memorySize := 1 }.WellFormed ∧ State.reset.fault = none) ∧
    State.reset.cfg.WellFormed ∧ (getKey (prog 0xF30A)).Ready ∧ (getKey (prog 0xF30A)).answers.wait = [] ∧
    decodeWord (getKey (prog 0xF30A)).instrWord = some (.ldKey 3) :=
  ⟨⟨by decide, rfl⟩, by decide, ⟨rfl, by decide, by decide⟩, rfl, by decide⟩

/-- A next state, a stuck one and a refused one (SoundTimerNeverInfluencesExecution). -/
theorem witness_SoundTimerNeverInfluencesExecution : step (prog 0x0123) = .next (prog 0x0123).advance ∧
    step (getKey (prog 0xF30A)) = .fault .stuckAwaitingKey ∧
    step { State.reset with cfg := { Configuration.suggested with stackSize := 0x10000 } } =
      .refused .illFormedConfiguration := ⟨rfl, rfl, rfl⟩

theorem witness_ReturnUndoesCall : ((withSp State.reset 15).stack.length = (withSp State.reset 15).cfg.stackSize ∧
      (withSp State.reset 15).sp < (withSp State.reset 15).cfg.stackSize) ∧
    ∃ t, exec (.call 0x300) (withSp State.reset 15) = .next t ∧ ∃ m : State, m.stack = t.stack ∧ m.sp = t.sp :=
  ⟨by decide, _, rfl, _, rfl, rfl⟩

theorem witness_FinishedStateIsFixedPoint : (prog 0x1200).Finished :=
  ⟨⟨rfl, by decide, by decide⟩, 0x200, by decide, by decide⟩

theorem witness_ResetSetsEveryStateValue : Configuration.suggested.WellFormed ∧
    { Configuration.suggested with memorySize := 0xFFFC, programAddress := 0xFFFA, stackSize := 0 }.WellFormed := by decide

/-- A write at each side of the bound, and a program and a font that fill memory to its last byte. -/
theorem witness_HostWritesAndLoadsFillMemory : 0xFFF < State.reset.cfg.memorySize ∧
    State.reset.cfg.memorySize ≤ 0x1000 ∧
    State.reset.cfg.programAddress + (List.replicate 3584 (0xFF : Byte)).length ≤ State.reset.cfg.memorySize ∧
    State.reset.cfg.fontAddress + (List.replicate 4016 (0xFF : Byte)).length ≤ State.reset.cfg.memorySize := by
  rw [List.length_replicate, List.length_replicate]
  decide

/-- A state that meets the invariant and its next state. -/
theorem witness_StepKeepsInvariant : (pushed (prog 0x00EE)).Inv ∧
    look (step (pushed (prog 0x00EE))) (fun t => t.pc) = some 0x0ABC :=
  ⟨⟨by decide, by decide, by decide, by decide, by decide, by decide, by decide,
    fun k h => by
      have hk : k = 0 := Nat.lt_one_iff.1 h
      subst hk
      decide, by decide⟩, by decide⟩

theorem witness_ReachableStatesMeetInvariant : Reachable State.reset ∧ State.reset.fetchInBounds :=
  ⟨.reset _ (by decide), by decide⟩

end Sys2Proof.Tests
end

section
/-! SUPPORT. Family 0 (spec/40_family0_system.md): its decoding, the advance over an instruction word as a frame, and 0NNN. -/

namespace Sys2Proof.Proofs
open Sys2Proof Sys2Proof.Machine Sys2Proof.Laws

/-! ## Rules for any instruction -/

/-- A word of family 0 is dispatched on its low byte (R95, R96). -/
theorem decodeWord_of_fieldF_zero {w : Word} (h : fieldF w = 0) : decodeWord w = some (decodeFamily0 w) := by
  unfold decodeWord
  rw [h]
  rfl

/-- The advance of `pc` that every fetch makes (R91) changes nothing that `AgreeBut` compares. -/
theorem advance_agree (s : State) : AgreeBut [] s s.advance :=
  ⟨fun r _ => advance_reg s r, advance_i s, advance_stack s, advance_sp s, advance_delayTimer s, advance_soundTimer s,
    fun a => congrArg (Memory.read · a) (advance_memory s), advance_display s, advance_key s, advance_cfg s, advance_fault s,
    advance_answers s⟩

/-- Only a word that decodes to no instruction raises the `UnknownOpcode` event (R98, R228). -/
theorem unknownOpcodeEvent_eq_none_of_decodeWord {s : State} {i : Instr} (h : decodeWord s.instrWord = some i) :
    s.unknownOpcodeEvent = none := by
  have hd : decodeWord s.instrWord ≠ none := h ▸ Option.some_ne_none i
  exact if_neg fun ⟨_, _, hn⟩ => hd hn

/-! ## 0NNN (R121) -/

/-- Family 0 falls through to 0NNN when the low byte selects neither 00E0 nor 00EE. -/
theorem decodeFamily0_eq_sys {w : Word} (h0 : fieldNN w ≠ 0xE0) (hE : fieldNN w ≠ 0xEE) :
    decodeFamily0 w = .sys (fieldNNN w) :=
  (if_neg h0).trans (if_neg hE)

theorem exec_sys (nnn : Addr12) (s : State) : exec (.sys nnn) s = .next s.advance := rfl

/-- Settles O11: the words of 0NNN are those of family 0 that neither test of its sub-dispatch selects; the effect is the fetch's
advance alone; and the event needs a word that does not decode. -/
theorem sysOnlyAdvancesPc : Obligations.SysOnlyAdvancesPc := by
  refine ⟨fun w hw h0 hE => ?decodes, fun s nnn => ?effect, fun s nnn h => unknownOpcodeEvent_eq_none_of_decodeWord h⟩
  case decodes =>
    have hF : fieldF w = 0 := (and_F000_eq_iff w 0).1 hw
    rw [decodeWord_of_fieldF_zero hF, decodeFamily0_eq_sys h0 hE]
  case effect => exact ⟨s.advance, exec_sys nnn s, advance_pc s, advance_agree s⟩

end Sys2Proof.Proofs
end

section
/-! SUPPORT. Jumps and calls (spec/41_jump_call.md): a jump as a frame, and BNNN with its offset register. -/

namespace Sys2Proof.Proofs
open Sys2Proof Sys2Proof.Machine Sys2Proof.Laws

/-- A jump (R130) writes `pc` alone, so it keeps whatever agreement there was before it. -/
theorem jump_agree {regs : List Reg} {s t : State} (h : AgreeBut regs s t) (a : Word) :
    AgreeBut regs s (t.jump a) :=
  ⟨h.reg, h.i, h.stack, h.sp, h.delayTimer, h.soundTimer, h.memory, h.display, h.key, h.cfg, h.fault, h.answers⟩

/-! ## BNNN (R133) -/

/-- Family B holds BNNN only (R95). -/
theorem decodeWord_of_fieldF_B {w : Word} (h : fieldF w = 0xB) : decodeWord w = some (.jpV0 (fieldNNN w)) := by
  unfold decodeWord
  rw [h]
  rfl

/-- The target of BNNN is at most 0x0FFF + 0xFF, so the 16-bit sum does not wrap (R133). -/
theorem zextAddr_add_zextByte_toNat (nnn : Addr12) (b : Byte) :
    (zextAddr nnn + zextByte b).toNat = nnn.toNat + b.toNat := by
  have hn := nnn.isLt
  have hb := b.isLt
  rw [BitVec.toNat_add, zextAddr_toNat, zextByte_toNat]
  omega

theorem exec_jpV0 (nnn : Addr12) (s : State) :
    exec (.jpV0 nnn) s = .next (s.advance.jump (zextAddr nnn + zextByte (s.jumpOffset nnn))) := rfl

theorem jumpOffset_eq_reg_zero {s : State} (hq : s.cfg.quirks.jumpVxOffset = false) (nnn : Addr12) :
    s.jumpOffset nnn = s.reg 0 :=
  if_neg (Bool.eq_false_iff.1 hq)

/-- Under `JUMP_VX_OFFSET` the offset is the register of the high nibble of `NNN`, that is of `NNN / 256` (R92, R133). -/
theorem jumpOffset_eq_reg_highNibble {s : State} (hq : s.cfg.quirks.jumpVxOffset = true) {nnn : Addr12} {x : Reg}
    (hx : x.val = nnn.toNat / 256) : s.jumpOffset nnn = s.reg x := by
  have hreg : addrHighNibble nnn = x := Fin.ext ((addrHighNibble_val nnn).trans hx.symm)
  exact hreg ▸ if_pos hq

/-- Settles O16: family B is BNNN; its effect is the advance and one jump; and the target is the plain sum of `NNN` and the
offset, which each setting of the quirk takes from its own register. -/
theorem jpV0AddsOffsetRegister : Obligations.JpV0AddsOffsetRegister := by
  refine ⟨fun w hw => decodeWord_of_fieldF_B ((and_F000_eq_iff w 0xB).1 hw), fun s nnn =>
    ⟨_, exec_jpV0 nnn s, jump_agree (advance_agree s) _, fun hq => ?v0, fun hq x hx => ?vX⟩⟩
  case v0 => rw [jump_pc, zextAddr_add_zextByte_toNat, jumpOffset_eq_reg_zero hq]
  case vX => rw [jump_pc, zextAddr_add_zextByte_toNat, jumpOffset_eq_reg_highNibble hq hx]

end Sys2Proof.Proofs
end

section
/-! SUPPORT. The flag-writing instructions of family 8 (spec/44_alu.md R166 to R170): their decoding, a register write as a frame,
and the two orders in which the result and the flag are written (R161). -/

namespace Sys2Proof.Proofs
open Sys2Proof Sys2Proof.Machine Sys2Proof.Laws

/-! ## Decoding (R95, R99) -/

/-- A word of family 8 is dispatched on its low nibble (R95, R96). -/
theorem decodeWord_of_fieldF_eight {w : Word} (h : fieldF w = 0x8) : decodeWord w = decodeFamily8 w := by
  unfold decodeWord
  rw [h]
  rfl

/-- The words of a row of family 8 are those with its sub-opcode in `N`. -/
theorem encodedAs_of_decodeFamily8 (n : Nibble) {build : Word → Instr}
    (h : ∀ w, fieldN w = n → decodeFamily8 w = some (build w)) :
    EncodedAs 0xF00F ((0x8 : Nibble) ++ 0#8 ++ n) build := fun w hw => by
  obtain ⟨hF, hN⟩ := (and_F00F_eq_iff w 0x8 n).1 hw
  rw [decodeWord_of_fieldF_eight hF, h w hN]

/-! ## Register writes as frames -/

/-- A write to a register already listed keeps whatever agreement there was before it. -/
theorem setReg_agree {regs : List Reg} {s t : State} (h : AgreeBut regs s t) {x : Reg} (hx : x ∈ regs) (b : Byte) :
    AgreeBut regs s (t.setReg x b) :=
  { h with reg := fun r hr => (setReg_reg_ne t b (ne_of_mem_of_not_mem hx hr).symm).trans (h.reg r hr) }

theorem setFlag_agree {regs : List Reg} {s t : State} (h : AgreeBut regs s t) (hVF : VF ∈ regs) (c : Bool) :
    AgreeBut regs s (t.setFlag c) :=
  setReg_agree h hVF (flagByte c)

theorem loadShiftOperand_agree {regs : List Reg} {s t : State} (h : AgreeBut regs s t) {x : Reg} (hx : x ∈ regs) (y : Reg) :
    AgreeBut regs s (t.loadShiftOperand x y) := by
  unfold State.loadShiftOperand
  split
  · exact h
  · exact setReg_agree h hx _

/-- The advance keeps every register, so it agrees outside any list of them. -/
theorem advance_agree_but (regs : List Reg) (s : State) : AgreeBut regs s s.advance :=
  { advance_agree s with reg := fun r _ => advance_reg s r }

/-! ## Flags and differences as numbers -/

theorem flagByte_eq_ite {c : Bool} {p : Prop} [Decidable p] (h : c = true ↔ p) : flagByte c = if p then 1 else 0 :=
  if_congr h rfl rfl

theorem flagByte_toNat (c : Bool) : (flagByte c).toNat = c.toNat := by
  cases c <;> rfl

/-- The difference's byte is the mathematical difference modulo 256, on the integers (R167, R169). -/
theorem differenceByte_emod (a b : Byte) : ((differenceByte a b).toNat : Int) = (a.toNat - b.toNat : Int) % 256 := by
  have hb := b.isLt
  rw [differenceByte_toNat]
  omega

/-! ## 8XY4, 8XY5, 8XY7: the result, then the flag (R161) -/

theorem exec_addReg (x y : Reg) (s : State) : exec (.addReg x y) s =
    .next ((s.advance.setReg x (sumByte (s.reg x) (s.reg y))).setFlag (carryOut (s.reg x) (s.reg y))) := rfl

theorem exec_subReg (x y : Reg) (s : State) : exec (.subReg x y) s =
    .next ((s.advance.setReg x (differenceByte (s.reg x) (s.reg y))).setFlag (noBorrow (s.reg x) (s.reg y))) := rfl

theorem exec_subn (x y : Reg) (s : State) : exec (.subn x y) s =
    .next ((s.advance.setReg x (differenceByte (s.reg y) (s.reg x))).setFlag (noBorrow (s.reg y) (s.reg x))) := rfl

/-- The flag, written last, leaves the result in every register but VF. -/
theorem setReg_setFlag_reg (s : State) {x : Reg} (hx : x ≠ VF) (b : Byte) (c : Bool) :
    ((s.setReg x b).setFlag c).reg x = b := by
  rw [setFlag_reg, if_neg hx.symm, setReg_reg_same]

theorem setReg_setFlag_agree (s : State) (x : Reg) (b : Byte) (c : Bool) :
    AgreeBut [x, 15] s ((s.advance.setReg x b).setFlag c) :=
  setFlag_agree (setReg_agree (advance_agree_but _ s) (by simp) b) (by simp) c

/-- Settles O25: the sum's byte stays in `v[X]` unless the carry, written after it, goes to the same register. -/
theorem addRegSetsCarry : Obligations.AddRegSetsCarry := by
  refine ⟨encodedAs_of_decodeFamily8 0x4 fun w hN => ?decodes, fun s x y =>
    ⟨_, exec_addReg x y s, rfl, fun hx => ?sum, ?carry, setReg_setFlag_agree s x _ _⟩⟩
  case decodes => rw [decodeFamily8, hN]; rfl
  case sum => rw [setReg_setFlag_reg _ hx, sumByte_toNat]
  case carry => rw [setFlag_reg_VF, flagByte_eq_ite (carryOut_iff _ _)]

/-- Settles O26: as 8XY4, with the difference `v[X] - v[Y]` and its no-borrow flag. -/
theorem subSetsNoBorrow : Obligations.SubSetsNoBorrow := by
  refine ⟨encodedAs_of_decodeFamily8 0x5 fun w hN => ?decodes, fun s x y =>
    ⟨_, exec_subReg x y s, rfl, fun hx => ?difference, ?noBorrow, setReg_setFlag_agree s x _ _⟩⟩
  case decodes => rw [decodeFamily8, hN]; rfl
  case difference => rw [setReg_setFlag_reg _ hx, differenceByte_emod]
  case noBorrow => rw [setFlag_reg_VF, flagByte_eq_ite (noBorrow_iff _ _)]

/-- Settles O27: as 8XY5, with the operands exchanged. -/
theorem subnSetsNoBorrow : Obligations.SubnSetsNoBorrow := by
  refine ⟨encodedAs_of_decodeFamily8 0x7 fun w hN => ?decodes, fun s x y =>
    ⟨_, exec_subn x y s, rfl, fun hx => ?difference, ?noBorrow, setReg_setFlag_agree s x _ _⟩⟩
  case decodes => rw [decodeFamily8, hN]; rfl
  case difference => rw [setReg_setFlag_reg _ hx, differenceByte_emod]
  case noBorrow => rw [setFlag_reg_VF, flagByte_eq_ite (noBorrow_iff _ _)]

/-! ## 8XY6, 8XYE: the flag, then the shift of `v[X]` as it now stands (R161) -/

/-- The state after the first two lines of a shift: the operand copied, and the flag `c` written. -/
def shiftFlagged (s : State) (x y : Reg) (c : Bool) : State := (s.advance.loadShiftOperand x y).setFlag c

theorem shiftFlagged_setReg_pc (s : State) (x y : Reg) (c : Bool) (b : Byte) :
    ((shiftFlagged s x y c).setReg x b).pc = s.pc + 2 := by
  rw [setReg_pc, shiftFlagged, setFlag_pc, loadShiftOperand_pc, advance_pc]

/-- The result, written last, leaves the flag in VF unless it goes to VF itself. -/
theorem shiftFlagged_setReg_reg_VF (s : State) {x : Reg} (hx : x ≠ VF) (y : Reg) (c : Bool) (b : Byte) :
    ((shiftFlagged s x y c).setReg x b).reg VF = flagByte c := by
  rw [setReg_reg_ne _ b hx.symm, shiftFlagged, setFlag_reg_VF]

theorem shiftFlagged_setReg_agree (s : State) (x y : Reg) (c : Bool) (b : Byte) :
    AgreeBut [x, 15] s ((shiftFlagged s x y c).setReg x b) :=
  setReg_agree (setFlag_agree (loadShiftOperand_agree (advance_agree_but _ s) (by simp) y) (by simp) c) (by simp) b

section Operand
variable {s : State} {x y : Reg} {a : Byte} (ha : a = if s.cfg.quirks.shiftInplace then s.reg x else s.reg y)
include ha

/-- What a shift finds in `v[X]` after its first line is its operand, under either setting of the quirk (R168, R170). -/
theorem loadShiftOperand_reg_operand : (s.advance.loadShiftOperand x y).reg x = a := by
  rw [ha, loadShiftOperand_reg, advance_cfg]
  cases s.cfg.quirks.shiftInplace <;> simp

/-- With `X = 15` the flag has replaced the operand; otherwise the operand is still there. -/
theorem shiftFlagged_reg (c : Bool) : (shiftFlagged s x y c).reg x = if VF = x then flagByte c else a := by
  rw [shiftFlagged, setFlag_reg, loadShiftOperand_reg_operand ha]

/-- 8XY6 on its operand `a`: what it shifts is `a`, or with `X = 15` the flag just written. -/
theorem exec_shr : exec (.shr x y) s = .next ((shiftFlagged s x y (shiftedOutRight a)).setReg x
    ((if VF = x then flagByte (shiftedOutRight a) else a) >>> 1)) := by
  rw [← shiftFlagged_reg ha, ← loadShiftOperand_reg_operand ha]
  rfl

/-- 8XYE on its operand `a`: what it shifts is `a`, or with `X = 15` the flag just written. -/
theorem exec_shl : exec (.shl x y) s = .next ((shiftFlagged s x y (shiftedOutLeft a)).setReg x
    ((if VF = x then flagByte (shiftedOutLeft a) else a) <<< 1)) := by
  rw [← shiftFlagged_reg ha, ← loadShiftOperand_reg_operand ha]
  rfl

end Operand

/-- A byte shifted right by one is its half (R168). -/
theorem byte_shiftRight_one_toNat (a : Byte) : (a >>> 1).toNat = a.toNat / 2 := by
  rw [BitVec.toNat_ushiftRight, Nat.shiftRight_eq_div_pow, pow_one]

/-- A byte shifted left by one is its double modulo 256 (R170). -/
theorem byte_shiftLeft_one_toNat (a : Byte) : (a <<< 1).toNat = 2 * a.toNat % 256 := by
  rw [BitVec.toNat_shiftLeft, Nat.shiftLeft_eq]
  omega

theorem shiftedOutRight_toNat (a : Byte) : (shiftedOutRight a).toNat = a.toNat % 2 := by
  rw [shiftedOutRight, BitVec.getLsbD, Nat.toNat_testBit]
  omega

theorem shiftedOutLeft_toNat (a : Byte) : (shiftedOutLeft a).toNat = a.toNat / 128 := by
  have ha := a.isLt
  rw [shiftedOutLeft, BitVec.getLsbD, Nat.toNat_testBit]
  omega

theorem flagByte_shiftRight_one (c : Bool) : flagByte c >>> 1 = 0 := by
  cases c <;> rfl

theorem flagByte_shiftLeft_one_toNat (c : Bool) : (flagByte c <<< 1).toNat = 2 * c.toNat := by
  cases c <;> rfl

/-- Settles O28: with `X` not 15 the operand is shifted and the flag stays in VF; with `X = 15` the flag is shifted, and nothing is
left of it. -/
theorem shrShiftsRightByOne : Obligations.ShrShiftsRightByOne := by
  refine ⟨encodedAs_of_decodeFamily8 0x6 fun w hN => ?decodes, fun s x y a ha =>
    ⟨_, exec_shr ha, shiftFlagged_setReg_pc s x y _ _, fun hx => ⟨?half, ?flag⟩, fun hx => ?vf,
      shiftFlagged_setReg_agree s x y _ _⟩⟩
  case decodes => rw [decodeFamily8, hN]; rfl
  case half => rw [setReg_reg_same, if_neg hx.symm, byte_shiftRight_one_toNat]
  case flag => rw [shiftFlagged_setReg_reg_VF s hx, flagByte_toNat, shiftedOutRight_toNat]
  case vf => rw [hx, setReg_reg_same, if_pos rfl, flagByte_shiftRight_one]

/-- Settles O29: as 8XY6, but with `X = 15` the shifted flag is twice the bit. -/
theorem shlShiftsLeftByOne : Obligations.ShlShiftsLeftByOne := by
  refine ⟨encodedAs_of_decodeFamily8 0xE fun w hN => ?decodes, fun s x y a ha =>
    ⟨_, exec_shl ha, shiftFlagged_setReg_pc s x y _ _, fun hx => ⟨?double, ?flag⟩, fun hx => ?vf,
      shiftFlagged_setReg_agree s x y _ _⟩⟩
  case decodes => rw [decodeFamily8, hN]; rfl
  case double => rw [setReg_reg_same, if_neg hx.symm, byte_shiftLeft_one_toNat]
  case flag => rw [shiftFlagged_setReg_reg_VF s hx, flagByte_toNat, shiftedOutLeft_toNat]
  case vf => rw [hx, setReg_reg_same, if_pos rfl, flagByte_shiftLeft_one_toNat, shiftedOutLeft_toNat]

end Sys2Proof.Proofs
end

section
/-! SUPPORT. FX1E (spec/47_timer_index_memory.md R204): the decoding of family F, an index write as a frame, and the 12-bit test. -/

namespace Sys2Proof.Proofs
open Sys2Proof Sys2Proof.Machine Sys2Proof.Laws

/-! ## Decoding (R95, R99) -/

/-- A word of family F is dispatched on its low byte (R95, R96). -/
theorem decodeWord_of_fieldF_F {w : Word} (h : fieldF w = 0xF) : decodeWord w = decodeFamilyF w := by
  unfold decodeWord
  rw [h]
  rfl

/-- The words of a row of family F are those with its sub-opcode in `NN`. -/
theorem encodedAs_of_decodeFamilyF (nn : Byte) {build : Word → Instr}
    (h : ∀ w, fieldNN w = nn → decodeFamilyF w = some (build w)) :
    EncodedAs 0xF0FF ((0xF : Nibble) ++ 0#4 ++ nn) build := fun w hw => by
  obtain ⟨hF, hNN⟩ := (and_F0FF_eq_iff w 0xF nn).1 hw
  rw [decodeWord_of_fieldF_F hF, h w hNN]

/-! ## The index register -/

/-- An index write keeps whatever agreement there was before it, with the state that has the new index. -/
theorem setIndex_agree {regs : List Reg} {s t : State} (h : AgreeBut regs s t) (a : Word) :
    AgreeBut regs { s with i := a } (t.setIndex a) :=
  { h with i := rfl }

/-- The index sum wraps at 16 bits (R204). -/
theorem index_add_zextByte_toNat (i : Word) (b : Byte) : (i + zextByte b).toNat = (i.toNat + b.toNat) % 65536 := by
  rw [BitVec.toNat_add, zextByte_toNat]

theorem fieldF_toNat (w : Word) : (fieldF w).toNat = w.toNat / 4096 := by
  have hw := w.isLt
  rw [fieldF, BitVec.extractLsb'_toNat, Nat.shiftRight_eq_div_pow]
  omega

/-- An index exceeds 12 bits when its top nibble, which the mask keeps, is not zero (R204). -/
theorem exceeds12Bits_iff (a : Word) : exceeds12Bits a = true ↔ 0x1000 ≤ a.toNat := by
  have hmask : a &&& 0xF000 = 0 ↔ fieldF a = 0 := and_F000_eq_iff a 0
  have hnibble : fieldF a = 0 ↔ a.toNat / 4096 = 0 := by
    rw [← BitVec.toNat_inj, fieldF_toNat]
    rfl
  rw [exceeds12Bits, bne_iff_ne, ne_eq, hmask, hnibble]
  omega

/-! ## FX1E (R204) -/

/-- FX1E without its quirk: the index write alone. -/
theorem exec_addI_of_noOverflowFlag {s : State} (hq : s.cfg.quirks.fx1eOverflow = false) (x : Reg) :
    exec (.addI x) s = .next (s.advance.setIndex (s.i + zextByte (s.reg x))) :=
  congrArg Host.Outcome.next (if_neg (Bool.eq_false_iff.1 hq))

/-- FX1E under `FX1E_OVERFLOW`: the index write, then the flag from the new index. -/
theorem exec_addI_of_overflowFlag {s : State} (hq : s.cfg.quirks.fx1eOverflow = true) (x : Reg) :
    exec (.addI x) s = .next ((s.advance.setIndex (s.i + zextByte (s.reg x))).setFlag
      (exceeds12Bits (s.i + zextByte (s.reg x)))) :=
  congrArg Host.Outcome.next (if_pos hq)

/-- Settles O38: family F selects FX1E by its low byte; under either setting of the quirk `i` gets the wrapped sum, and the flag
write, where there is one, tests that new `i` and touches VF alone. -/
theorem addIWrapsAndFlagsTwelveBitOverflow : Obligations.AddIWrapsAndFlagsTwelveBitOverflow := by
  refine ⟨encodedAs_of_decodeFamilyF 0x1E fun w hNN => ?decodes, fun s x => ?effect⟩
  case decodes => rw [decodeFamilyF, hNN]; rfl
  case effect =>
    have hsum := index_add_zextByte_toNat s.i (s.reg x)
    cases hq : s.cfg.quirks.fx1eOverflow with
    | false => exact ⟨_, exec_addI_of_noOverflowFlag hq x, hsum, rfl, nofun, fun _ => setIndex_agree (advance_agree s) _⟩
    | true =>
      refine ⟨_, exec_addI_of_overflowFlag hq x, hsum, rfl, fun _ => ⟨?flag, ?frame⟩, nofun⟩
      case flag => rw [setFlag_reg_VF, flagByte_eq_ite (exceeds12Bits_iff _), setFlag_i, setIndex_i]
      case frame => exact setFlag_agree (setIndex_agree (advance_agree_but [15] s) _) (List.mem_singleton_self VF) _

end Sys2Proof.Proofs
end

section
/-! SUPPORT. PushKey (spec/50_interfaces.md R222): it commutes with every update of the state and with every instruction that does not
consult the register `key`, so under `GET_KEY` (spec/46_key.md R190) no instruction depends on `key`, and no step writes it. -/

namespace Sys2Proof.Proofs
open Sys2Proof Sys2Proof.Machine Sys2Proof.Laws

/-- `f` on the next state of an outcome; a stop stays as it is. -/
def mapNext (f : State → State) : Out → Out
  | .next t => .next (f t)
  | .fault r => .fault r
  | .refused r => .refused r

/-- A function passes into a conditional when it passes into both branches. -/
theorem ite_eq_apply_ite {α β : Type} {f : α → β} {c : Prop} [Decidable c] {a b : α} {a' b' : β} (ha : a' = f a)
    (hb : b' = f b) : (if c then a' else b') = f (if c then a else b) := by
  rw [ha, hb, apply_ite f]

/-! ## PushKey commutes with the updates that branch (the others commute by computation) -/

theorem skipIf_pushKey (s : State) (k : Key) (c : Bool) : (s.pushKey k).skipIf c = (s.skipIf c).pushKey k :=
  ite_eq_apply_ite (f := (State.pushKey · k)) rfl rfl

theorem bumpIndex_pushKey (s : State) (k : Key) (x : Reg) : (s.pushKey k).bumpIndex x = (s.bumpIndex x).pushKey k :=
  ite_eq_apply_ite (f := (State.pushKey · k)) rfl rfl

theorem loadShiftOperand_pushKey (s : State) (k : Key) (x y : Reg) :
    (s.pushKey k).loadShiftOperand x y = (s.loadShiftOperand x y).pushKey k :=
  ite_eq_apply_ite (f := (State.pushKey · k)) rfl rfl

theorem setRegs_pushKey (s : State) (k : Key) (g : Reg → Byte) (rs : List Reg) :
    (s.pushKey k).setRegs g rs = (s.setRegs g rs).pushKey k := by
  induction rs generalizing s with
  | nil => rfl
  | cons r rs ih => exact ih (s.setReg r (g r))

theorem drawRnd_pushKey (s : State) (k : Key) : (s.pushKey k).drawRnd = (s.drawRnd.1, s.drawRnd.2.pushKey k) := by
  unfold State.drawRnd
  rw [pushKey_answers]
  split <;> rfl

theorem pollKey_pushKey (s : State) (k : Key) : (s.pushKey k).pollKey = (s.pollKey.1, s.pollKey.2.pushKey k) := by
  unfold State.pollKey
  rw [pushKey_answers]
  split <;> rfl

theorem awaitKey_pushKey (s : State) (k : Key) :
    (s.pushKey k).awaitKey = s.awaitKey.map fun a => (a.1, a.2.pushKey k) := by
  unfold State.awaitKey
  rw [pushKey_answers]
  split <;> rfl

/-! ## The instructions that consult a key

`hk` says that PushKey does not show: where the register is consulted, it already holds `k`. -/

section
variable {s : State} {k : Key} (hk : s.cfg.keyMode = .useGivenKey → k = s.key)
include hk

theorem consultKey_pushKey : (s.pushKey k).consultKey = (s.consultKey.1, s.consultKey.2.pushKey k) := by
  unfold State.consultKey
  rw [pushKey_cfg]
  cases hm : s.cfg.keyMode with
  | useGivenKey => rw [pushKey_key, hk hm]
  | getKey => exact pollKey_pushKey s k

/-- A skip on a test of the consulted key, whatever the test: the effect of EX9E and of EXA1 (R191, R192). -/
theorem skipIf_consultKey_pushKey (test : Key → Bool) :
    (s.pushKey k).advance.consultKey.2.skipIf (test (s.pushKey k).advance.consultKey.1) =
      (s.advance.consultKey.2.skipIf (test s.advance.consultKey.1)).pushKey k := by
  have hconsult : (s.pushKey k).advance.consultKey = (s.advance.consultKey.1, s.advance.consultKey.2.pushKey k) :=
    consultKey_pushKey (s := s.advance) hk
  rw [hconsult, skipIf_pushKey]

theorem execLdKey_pushKey (x : Reg) : execLdKey x (s.pushKey k) = mapNext (State.pushKey · k) (execLdKey x s) := by
  unfold execLdKey
  rw [pushKey_cfg]
  cases hm : s.cfg.keyMode with
  | useGivenKey => rw [pushKey_key, hk hm]; rfl
  | getKey =>
    have hawait : (s.pushKey k).advance.awaitKey = s.advance.awaitKey.map fun a => (a.1, a.2.pushKey k) :=
      awaitKey_pushKey s.advance k
    rw [hawait]
    cases s.advance.awaitKey <;> rfl

/-! ## Every instruction -/

/-- PushKey before an instruction that does not see it is PushKey after it: the instruction neither reads `key` nor writes it. -/
theorem exec_pushKey (i : Instr) : exec i (s.pushKey k) = mapNext (State.pushKey · k) (exec i s) := by
  cases i with
  | skp x => exact congrArg Host.Outcome.next (skipIf_consultKey_pushKey hk (· == some (s.reg x)))
  | sknp x => exact congrArg Host.Outcome.next (skipIf_consultKey_pushKey hk (· != some (s.reg x)))
  | ldKey x => exact execLdKey_pushKey hk x
  | seImm | sneImm | seReg | sneReg => exact congrArg Host.Outcome.next (skipIf_pushKey s.advance k _)
  | shr x y | shl x y =>
    have hload : (s.pushKey k).advance.loadShiftOperand x y = (s.advance.loadShiftOperand x y).pushKey k :=
      loadShiftOperand_pushKey s.advance k x y
    simp only [exec, execShr, execShl, hload]
    rfl
  | rnd x nn =>
    have hdraw : (s.pushKey k).advance.drawRnd = (s.advance.drawRnd.1, s.advance.drawRnd.2.pushKey k) :=
      drawRnd_pushKey s.advance k
    simp only [exec, execRnd, hdraw]
    rfl
  | addI => exact congrArg Host.Outcome.next (ite_eq_apply_ite (f := (State.pushKey · k)) rfl rfl)
  | ret | call | drw | ldBcd => exact ite_eq_apply_ite rfl rfl
  | storeRegs x => exact ite_eq_apply_ite (congrArg Host.Outcome.next (bumpIndex_pushKey (s.advance.setMemory _) k x)) rfl
  | loadRegs x =>
    refine ite_eq_apply_ite (congrArg Host.Outcome.next ?_) rfl
    exact (congrArg (·.bumpIndex x) (setRegs_pushKey s.advance k _ _)).trans (bumpIndex_pushKey _ k x)
  | sys | cls | jp | ldImm | addImm | ldReg | orReg | andReg | xorReg | addReg | subReg | subn | ldI | jpV0 | ldFromDt | ldDt
  | ldSt | ldFont => rfl

end

/-- No instruction writes `key`, under either policy: with the `key` already there PushKey does not show before the instruction,
so it does not show after it. -/
theorem exec_key {i : Instr} {s t : State} (h : exec i s = .next t) : t.key = s.key := by
  have hpush : exec i s = mapNext (State.pushKey · s.key) (exec i s) := exec_pushKey (k := s.key) (fun _ => rfl) i
  rw [h] at hpush
  have ht : t = t.pushKey s.key := Host.Outcome.next.inj hpush
  exact (congrArg State.key ht).trans (pushKey_key t s.key)

theorem step_key {s t : State} (h : step s = .next t) : t.key = s.key := by
  obtain ⟨-, halted⟩ | ⟨-, -, refused⟩ | ⟨-, -, -, fetchFault⟩ | ⟨-, i, -, executes⟩ | ⟨-, -, unknown⟩ := step_cases s
  · cases halted.symm.trans h; rfl
  · cases refused.symm.trans h
  · cases fetchFault.symm.trans h; rfl
  · exact exec_key (executes.symm.trans h)
  · cases unknown.symm.trans h; rfl

/-- Of the host operations only PushKey and Reset write `key` (R222, R281). -/
theorem hostStep_key {op : HostOp} {s t : State} (h : hostStep op s = .next t) :
    t.key = s.key ∨ (∃ k, op = .pushKey k) ∨ ∃ c, op = .reset c := by
  cases op with
  | reset c => exact .inr (.inr ⟨c, rfl⟩)
  | pushKey k => exact .inr (.inl ⟨k, rfl⟩)
  | step => exact .inl (step_key h)
  | hostWrite a b => cases h; exact .inl (hostWrite_key s a b)
  | timerTick | answerRnd | answerPoll | answerWait => cases h; exact .inl rfl

/-- Settles O36: PushKey is one field update; every host operation but PushKey and Reset keeps `key`; and under `GET_KEY` PushKey
commutes with every instruction, for each of its three outcomes. -/
theorem pushKeyIsInvisibleUnderGetKey : Obligations.PushKeyIsInvisibleUnderGetKey := by
  refine ⟨fun s k => ⟨_, rfl, rfl⟩, fun op s t h hne => (hostStep_key h).resolve_left hne, fun s i k hm => ?invisible⟩
  case invisible =>
    have hunseen : s.cfg.keyMode = .useGivenKey → k = s.key := fun hg => nomatch hm.symm.trans hg
    have hpush : exec i { s with key := k } = mapNext (State.pushKey · k) (exec i s) := exec_pushKey hunseen i
    exact ⟨fun t ht => hpush.trans (congrArg _ ht), fun f hf => hpush.trans (congrArg _ hf),
      fun r hr => hpush.trans (congrArg _ hr)⟩

end Sys2Proof.Proofs
end

section
/-! SUPPORT. The decoder and the encoder as inverses (spec/30_encoding.md R92 to R100). -/

namespace Sys2Proof.Proofs
open Sys2Proof Sys2Proof.Machine Sys2Proof.Laws Sys2Proof.Laws.Decode

/-! ## Encode, then decode -/

/-- The word of a well-formed instruction decodes to it, by the shape of its encoding: the family and the sub-opcode select the
instruction again, and the operand fields read back. -/
theorem decodeWord_encode {i : Instr} (h : i.wellFormed = true) : decodeWord (encode i) = some i := by
  cases i with
  | sys nnn =>
    obtain ⟨h0, hE⟩ : lowByte nnn ≠ 0xE0 ∧ lowByte nnn ≠ 0xEE := by simpa [Instr.wellFormed] using h
    rw [encode, decodeWord_of_fieldF_zero (fieldF_encodeA 0x0 nnn), decodeFamily0_eq_sys, fieldNNN_encodeA]
    · rwa [fieldNN_encodeA]
    · rwa [fieldNN_encodeA]
  | cls | ret => rfl
  | jp | call | ldI | jpV0 => simp [encode, decodeWord]
  | seImm | sneImm | ldImm | addImm | rnd => simp [encode, decodeWord]
  | seReg | sneReg | drw => simp [encode, decodeWord]
  | ldReg | orReg | andReg | xorReg | addReg | subReg | shr | subn | shl => simp [encode, decodeWord, decodeFamily8]
  | skp | sknp => simp [encode, decodeWord, decodeFamilyE]
  | ldFromDt | ldKey | ldDt | ldSt | addI | ldFont | ldBcd | storeRegs | loadRegs =>
    simp [encode, decodeWord, decodeFamilyF]

/-- Settles O1: the two bytes are the encoding's word, big-endian, and the word decodes to the instruction. -/
theorem encodedInstructionDecodesBack : Obligations.EncodedInstructionDecodesBack := by
  intro i rest h
  rw [encodeBytes, List.cons_append, List.cons_append, List.nil_append, decode_cons_cons, wordOfBytes_encode,
    decodeWord_encode h]

/-! ## Decode, then encode -/

/-- A word of a known family is the encoding of its own fields, in each of the three shapes. -/
theorem encodeA_fieldNNN {w : Word} {f : Nibble} (hF : fieldF w = f) : encodeA f (fieldNNN w) = w :=
  hF ▸ (word_eq_encodeA w).symm

theorem encodeXI_fieldX {w : Word} {f : Nibble} {nn : Byte} (hF : fieldF w = f) (hNN : fieldNN w = nn) :
    encodeXI f (fieldX w) nn = w := by
  subst hF hNN
  exact (word_eq_encodeXI w).symm

theorem encodeXYN_fieldXY {w : Word} {f n : Nibble} (hF : fieldF w = f) (hN : fieldN w = n) :
    encodeXYN f (fieldX w) (fieldY w) n = w := by
  subst hF hN
  exact (word_eq_encodeXYN w).symm

/-- The mask 0xFFF0 clears the low nibble, which families 5 and 9 do not examine (R97). -/
theorem encodeXYN_zero_eq_and (w : Word) : encodeXYN (fieldF w) (fieldX w) (fieldY w) 0x0 = w &&& 0xFFF0 := by
  have hx : regField (fieldX w) = w.extractLsb' 8 4 := rfl
  have hy : regField (fieldY w) = w.extractLsb' 4 4 := rfl
  rw [encodeXYN, hx, hy]
  unfold fieldF
  refine BitVec.eq_of_getLsbD_eq fun k hk => ?_
  simp only [BitVec.getLsbD_append, BitVec.getLsbD_extractLsb', BitVec.getLsbD_and]
  interval_cases k <;> simp

/-- The word an instruction decoded from `w` encodes to: `w` with the fields its dispatch ignores cleared (R96, R97). -/
def canonicalWord (w : Word) : Word :=
  if fieldF w = 0x0 ∧ (fieldNN w = 0xE0 ∨ fieldNN w = 0xEE) then w &&& 0xF0FF
  else if fieldF w = 0x5 ∨ fieldF w = 0x9 then w &&& 0xFFF0
  else w

/-- Outside families 0, 5 and 9 every field counts. -/
theorem canonicalWord_eq_self {w : Word} (h0 : fieldF w ≠ 0x0) (h5 : fieldF w ≠ 0x5) (h9 : fieldF w ≠ 0x9) :
    canonicalWord w = w := by
  rw [canonicalWord, if_neg fun h => h0 h.1, if_neg fun h => h.elim h5 h9]

theorem canonicalWord_of_family59 {w : Word} (h : fieldF w = 0x5 ∨ fieldF w = 0x9) :
    canonicalWord w = encodeXYN (fieldF w) (fieldX w) (fieldY w) 0x0 := by
  have h0 : fieldF w ≠ 0x0 := by rcases h with h | h <;> rw [h] <;> decide
  rw [canonicalWord, if_neg fun hc => h0 hc.1, if_pos h, encodeXYN_zero_eq_and]

theorem decodeFamily0_eq_cls {w : Word} (h : fieldNN w = 0xE0) : decodeFamily0 w = .cls := if_pos h

theorem decodeFamily0_eq_ret {w : Word} (h : fieldNN w = 0xEE) : decodeFamily0 w = .ret := by
  have h0 : fieldNN w ≠ 0xE0 := by rw [h]; decide
  exact (if_neg h0).trans (if_pos h)

/-- An instruction decoded in family 0 is well-formed, and encodes to the word with `X` cleared where it is ignored (R96). -/
theorem decodeFamily0_encode {w : Word} (hF : fieldF w = 0x0) :
    (decodeFamily0 w).wellFormed = true ∧ encode (decodeFamily0 w) = canonicalWord w := by
  by_cases h0 : fieldNN w = 0xE0
  · rw [decodeFamily0_eq_cls h0, canonicalWord, if_pos ⟨hF, .inl h0⟩]
    exact ⟨rfl, ((and_F0FF_eq_iff w 0x0 0xE0).2 ⟨hF, h0⟩).symm⟩
  by_cases hE : fieldNN w = 0xEE
  · rw [decodeFamily0_eq_ret hE, canonicalWord, if_pos ⟨hF, .inr hE⟩]
    exact ⟨rfl, ((and_F0FF_eq_iff w 0x0 0xEE).2 ⟨hF, hE⟩).symm⟩
  · have h59 : ¬ (fieldF w = 0x5 ∨ fieldF w = 0x9) := by rw [hF]; decide
    rw [decodeFamily0_eq_sys h0 hE, canonicalWord, if_neg fun h => h.2.elim h0 hE, if_neg h59]
    exact ⟨by simpa [Instr.wellFormed] using ⟨h0, hE⟩, encodeA_fieldNNN hF⟩

/-- In family 8 the low nibble of the encoding is the one dispatched on. -/
theorem decodeFamily8_encode {w : Word} {i : Instr} (hF : fieldF w = 0x8) (h : decodeFamily8 w = some i) :
    i.wellFormed = true ∧ encode i = w := by
  unfold decodeFamily8 at h
  split at h <;> cases h <;>
    exact ⟨rfl, encodeXYN_fieldXY hF (BitVec.eq_of_toNat_eq ‹_›)⟩

theorem decodeFamilyE_encode {w : Word} {i : Instr} (hF : fieldF w = 0xE) (h : decodeFamilyE w = some i) :
    i.wellFormed = true ∧ encode i = w := by
  unfold decodeFamilyE at h
  split at h <;> cases h <;> exact ⟨rfl, encodeXI_fieldX hF (BitVec.eq_of_toNat_eq ‹_›)⟩

theorem decodeFamilyF_encode {w : Word} {i : Instr} (hF : fieldF w = 0xF) (h : decodeFamilyF w = some i) :
    i.wellFormed = true ∧ encode i = w := by
  unfold decodeFamilyF at h
  split at h <;> cases h <;> exact ⟨rfl, encodeXI_fieldX hF (BitVec.eq_of_toNat_eq ‹_›)⟩

theorem eq_ofNat_of_toNat_eq {n k : Nat} {b : BitVec n} (h : b.toNat = k) : b = BitVec.ofNat n k := by
  rw [← h, BitVec.ofNat_toNat, BitVec.setWidth_eq]

/-- Each family's dispatch is undone by the encoder, up to the fields it ignores. Cases `h_1` to `h_16` are families 0 to F, in the
order of `decodeWord`. -/
theorem encode_of_decodeWord {w : Word} {i : Instr} (h : decodeWord w = some i) :
    i.wellFormed = true ∧ encode i = canonicalWord w := by
  have whole {f : Nibble} (hF : fieldF w = f) (hf : f ≠ 0x0 ∧ f ≠ 0x5 ∧ f ≠ 0x9) : canonicalWord w = w := by
    obtain ⟨h0, h5, h9⟩ := hF ▸ hf
    exact canonicalWord_eq_self h0 h5 h9
  unfold decodeWord at h
  split at h
  case h_1 hF => cases h; exact decodeFamily0_encode (BitVec.eq_of_toNat_eq hF)
  case h_6 hF | h_10 hF =>
    have hF := eq_ofNat_of_toNat_eq hF
    cases h
    rw [canonicalWord_of_family59 (by simp [hF]), hF]
    exact ⟨rfl, rfl⟩
  case h_9 hF =>
    have hF : fieldF w = 0x8 := BitVec.eq_of_toNat_eq hF
    rw [whole hF (by decide)]
    exact decodeFamily8_encode hF h
  case h_15 hF =>
    have hF : fieldF w = 0xE := BitVec.eq_of_toNat_eq hF
    rw [whole hF (by decide)]
    exact decodeFamilyE_encode hF h
  case h_16 =>
    have hF : fieldF w = 0xF := by
      have hlt := (fieldF w).isLt
      simp only [imp_false] at *
      exact BitVec.eq_of_toNat_eq (show (fieldF w).toNat = 15 by omega)
    rw [whole hF (by decide)]
    exact decodeFamilyF_encode hF h
  case h_2 hF | h_3 hF | h_11 hF | h_12 hF =>
    have hF := eq_ofNat_of_toNat_eq hF
    cases h
    rw [whole hF (by decide)]
    exact ⟨rfl, encodeA_fieldNNN hF⟩
  case h_4 hF | h_5 hF | h_7 hF | h_8 hF | h_13 hF =>
    have hF := eq_ofNat_of_toNat_eq hF
    cases h
    rw [whole hF (by decide)]
    exact ⟨rfl, encodeXI_fieldX hF rfl⟩
  case h_14 hF =>
    have hF : fieldF w = 0xD := BitVec.eq_of_toNat_eq hF
    cases h
    rw [whole hF (by decide)]
    exact ⟨rfl, encodeXYN_fieldXY hF rfl⟩

/-- Settles O2: each family's dispatch is undone by the encoder. -/
theorem decodedWordEncodesBackUpToIgnoredBits : Obligations.DecodedWordEncodesBackUpToIgnoredBits :=
  fun _ _ h => encode_of_decodeWord h


end Sys2Proof.Proofs
end

section
/-! SUPPORT. The dispatch as first match on the opcode table (spec/30_encoding.md R95 to R100). -/

namespace Sys2Proof.Proofs
open Sys2Proof Sys2Proof.Machine Sys2Proof.Laws Sys2Proof.Laws.Decode

/-! ## First match within a family -/

/-- A row whose pattern is of another family is passed over, so first match on a table is first match on the rows of the word's own
family. -/
theorem firstMatch_filter_family (w : Word) (rows : List OpcodeRow)
    (hmask : ∀ r ∈ rows, r.mask.extractLsb' 12 4 = BitVec.allOnes 4) :
    firstMatch rows w = firstMatch (rows.filter fun r => fieldF r.pattern = fieldF w) w := by
  induction rows with
  | nil => rfl
  | cons r rows ih =>
    have ih := ih fun r hr => hmask r (List.mem_cons_of_mem _ hr)
    by_cases hF : fieldF r.pattern = fieldF w
    · rw [List.filter_cons_of_pos (by simpa using hF), firstMatch, firstMatch, ih]
    · have hno : ¬ (w &&& r.mask = r.pattern) := fun h =>
        hF (fieldF_of_match (hmask r List.mem_cons_self) h).symm
      rw [List.filter_cons_of_neg (by simpa using hF), firstMatch, if_neg hno, ih]

/-- The rows of one family, in the table's order. -/
def familyRows (f : Nibble) : List OpcodeRow := opcodeTable.filter fun r => fieldF r.pattern = f

theorem firstMatch_opcodeTable {w : Word} {f : Nibble} (hF : fieldF w = f) :
    firstMatch opcodeTable w = firstMatch (familyRows f) w := by
  rw [firstMatch_filter_family w opcodeTable (by decide), hF]
  rfl


/-- A family with one row and no sub-opcode. -/
theorem firstMatch_of_singleRow {w : Word} {f : Nibble} (hF : fieldF w = f) {r : OpcodeRow} (hrows : familyRows f = [r])
    (hmask : r.mask = 0xF000) (hpattern : r.pattern = f ++ 0#12) : firstMatch opcodeTable w = some (r.build w) := by
  have hmatch : w &&& r.mask = r.pattern := by rw [hmask, hpattern, and_F000, hF]
  rw [firstMatch_opcodeTable hF, hrows, firstMatch, if_pos hmatch]

/-- In rows told apart by a sub-opcode, first match looks that sub-opcode up. -/
theorem firstMatch_eq_find {α : Type} [DecidableEq α] (sub : Word → α) (w : Word) (rows : List OpcodeRow)
    (hrows : ∀ r ∈ rows, (w &&& r.mask = r.pattern ↔ sub w = sub r.pattern)) :
    firstMatch rows w = (rows.find? fun r => sub w = sub r.pattern).map fun r => r.build w := by
  induction rows with
  | nil => rfl
  | cons r rows ih =>
    have ih := ih fun r hr => hrows r (List.mem_cons_of_mem _ hr)
    have hr := hrows r List.mem_cons_self
    by_cases h : sub w = sub r.pattern
    · rw [firstMatch, if_pos (hr.2 h), List.find?_cons_of_pos (by simpa using h)]; rfl
    · rw [firstMatch, if_neg (mt hr.1 h), List.find?_cons_of_neg (by simpa using h), ih]

/-- The rows of families 8, E and F in the table are told apart by the sub-opcode their mask keeps. -/
theorem firstMatch_of_fieldN {w : Word} {f : Nibble} (hF : fieldF w = f)
    (hshape : ∀ r ∈ familyRows f, r.mask = 0xF00F ∧ r.pattern = f ++ 0#8 ++ fieldN r.pattern) :
    firstMatch opcodeTable w = ((familyRows f).find? fun r => fieldN w = fieldN r.pattern).map fun r => r.build w := by
  rw [firstMatch_opcodeTable hF]
  refine firstMatch_eq_find fieldN w _ fun r hr => ?_
  obtain ⟨hmask, hpattern⟩ := hshape r hr
  rw [hmask, hpattern, and_F00F_eq_iff, ← hpattern, and_iff_right hF]

theorem firstMatch_of_fieldNN {w : Word} {f : Nibble} (hF : fieldF w = f)
    (hshape : ∀ r ∈ familyRows f, r.mask = 0xF0FF ∧ r.pattern = f ++ 0#4 ++ fieldNN r.pattern) :
    firstMatch opcodeTable w = ((familyRows f).find? fun r => fieldNN w = fieldNN r.pattern).map fun r => r.build w := by
  rw [firstMatch_opcodeTable hF]
  refine firstMatch_eq_find fieldNN w _ fun r hr => ?_
  obtain ⟨hmask, hpattern⟩ := hshape r hr
  rw [hmask, hpattern, and_F0FF_eq_iff, ← hpattern, and_iff_right hF]

/-- Whether a word of family 8 decodes depends on its low nibble only. -/
theorem decodeFamily8_isSome_congr {w w' : Word} (h : fieldN w = fieldN w') :
    (decodeFamily8 w).isSome = (decodeFamily8 w').isSome := by
  unfold decodeFamily8
  rw [h]
  split <;> rfl

theorem decodeFamilyE_isSome_congr {w w' : Word} (h : fieldNN w = fieldNN w') :
    (decodeFamilyE w).isSome = (decodeFamilyE w').isSome := by
  unfold decodeFamilyE
  rw [h]
  split <;> rfl

theorem decodeFamilyF_isSome_congr {w w' : Word} (h : fieldNN w = fieldNN w') :
    (decodeFamilyF w).isSome = (decodeFamilyF w').isSome := by
  unfold decodeFamilyF
  rw [h]
  split <;> rfl

/-- A sub-dispatch that answers nothing finds no row, because it answers every row's own pattern. -/
theorem find_eq_none_of_isSome_congr {α : Type} [DecidableEq α] {sub : Word → α} {dispatch : Word → Option Instr}
    (hcongr : ∀ w w', sub w = sub w' → (dispatch w).isSome = (dispatch w').isSome) {rows : List OpcodeRow}
    (hrows : ∀ r ∈ rows, (dispatch r.pattern).isSome = true) {w : Word} (h : dispatch w = none) :
    rows.find? (fun r => sub w = sub r.pattern) = none := by
  refine List.find?_eq_none.2 fun r hr hsub => ?_
  have hsome := (hcongr _ _ (of_decide_eq_true hsub)).trans (hrows r hr)
  rw [h] at hsome
  cases hsome

theorem decodeFamily0_eq_firstMatch {w : Word} (hF : fieldF w = 0x0) : some (decodeFamily0 w) = firstMatch opcodeTable w := by
  have hrow (nn : Byte) : w &&& 0xF0FF = (0x0 : Nibble) ++ 0#4 ++ nn ↔ fieldNN w = nn :=
    (and_F0FF_eq_iff w 0x0 nn).trans (and_iff_right hF)
  by_cases h0 : fieldNN w = 0xE0
  · rw [decodeFamily0_eq_cls h0]
    exact (if_pos ((hrow 0xE0).2 h0)).symm
  by_cases hE : fieldNN w = 0xEE
  · rw [decodeFamily0_eq_ret hE]
    exact ((if_neg (mt (hrow 0xE0).1 h0)).trans (if_pos ((hrow 0xEE).2 hE))).symm
  · rw [decodeFamily0_eq_sys h0 hE]
    exact ((if_neg (mt (hrow 0xE0).1 h0)).trans ((if_neg (mt (hrow 0xEE).1 hE)).trans
      (if_pos ((and_F000_eq_iff w 0x0).2 hF)))).symm

theorem decodeFamily8_eq_firstMatch {w : Word} (hF : fieldF w = 0x8) : decodeFamily8 w = firstMatch opcodeTable w := by
  rw [firstMatch_of_fieldN hF (by decide)]
  cases h : decodeFamily8 w with
  | none => rw [find_eq_none_of_isSome_congr (sub := fieldN) (dispatch := decodeFamily8)
      (fun _ _ => decodeFamily8_isSome_congr) (by decide) h]; rfl
  | some i =>
    unfold decodeFamily8 at h
    split at h <;> cases h
    all_goals next hN => rw [eq_ofNat_of_toNat_eq hN]; rfl

theorem decodeFamilyE_eq_firstMatch {w : Word} (hF : fieldF w = 0xE) : decodeFamilyE w = firstMatch opcodeTable w := by
  rw [firstMatch_of_fieldNN hF (by decide)]
  cases h : decodeFamilyE w with
  | none => rw [find_eq_none_of_isSome_congr (sub := fieldNN) (dispatch := decodeFamilyE)
      (fun _ _ => decodeFamilyE_isSome_congr) (by decide) h]; rfl
  | some i =>
    unfold decodeFamilyE at h
    split at h <;> cases h
    all_goals next hNN => rw [eq_ofNat_of_toNat_eq hNN]; rfl

theorem decodeFamilyF_eq_firstMatch {w : Word} (hF : fieldF w = 0xF) : decodeFamilyF w = firstMatch opcodeTable w := by
  rw [firstMatch_of_fieldNN hF (by decide)]
  cases h : decodeFamilyF w with
  | none => rw [find_eq_none_of_isSome_congr (sub := fieldNN) (dispatch := decodeFamilyF)
      (fun _ _ => decodeFamilyF_isSome_congr) (by decide) h]; rfl
  | some i =>
    unfold decodeFamilyF at h
    split at h <;> cases h
    all_goals next hNN => rw [eq_ofNat_of_toNat_eq hNN]; rfl

/-- Settles O3: each family's dispatch is first match on that family's rows. Cases `h_1` to `h_16` are families 0 to F. -/
theorem dispatchIsFirstMatchOfOpcodeTable : Obligations.DispatchIsFirstMatchOfOpcodeTable := by
  intro w
  unfold decodeWord
  split
  case h_1 hF => exact decodeFamily0_eq_firstMatch (eq_ofNat_of_toNat_eq hF)
  case h_9 hF => exact decodeFamily8_eq_firstMatch (eq_ofNat_of_toNat_eq hF)
  case h_15 hF => exact decodeFamilyE_eq_firstMatch (eq_ofNat_of_toNat_eq hF)
  case h_16 =>
    have hlt := (fieldF w).isLt
    simp only [imp_false] at *
    exact decodeFamilyF_eq_firstMatch (BitVec.eq_of_toNat_eq (show (fieldF w).toNat = 15 by omega))
  all_goals next hF => exact (firstMatch_of_singleRow (eq_ofNat_of_toNat_eq hF) rfl rfl rfl).symm

end Sys2Proof.Proofs
end

section
/-! SUPPORT. Unknown opcodes (spec/30_encoding.md R98): which words they are, how many, and what a step on one does. -/

namespace Sys2Proof.Proofs
open Sys2Proof Sys2Proof.Machine Sys2Proof.Laws Sys2Proof.Laws.Decode

/-! ## Which words -/

theorem nibble_eq_iff_toNat (f : Nibble) (k : Nat) (hk : k < 16) : f = BitVec.ofNat 4 k ↔ f.toNat = k := by
  rw [← BitVec.toNat_inj, BitVec.toNat_ofNat, Nat.mod_eq_of_lt hk]

theorem decodeFamily8_eq_none_iff (w : Word) : decodeFamily8 w = none ↔ 8 ≤ (fieldN w).toNat ∧ fieldN w ≠ 0xE := by
  have hlt := (fieldN w).isLt
  have hE : fieldN w = 0xE ↔ (fieldN w).toNat = 14 := nibble_eq_iff_toNat _ 14 (by decide)
  rw [ne_eq, hE]
  unfold decodeFamily8
  split
  case h_10 =>
    simp only [imp_false] at *
    simp only [true_iff]
    omega
  all_goals simp_all

theorem decodeFamilyE_eq_none_iff (w : Word) : decodeFamilyE w = none ↔ fieldNN w ≠ 0x9E ∧ fieldNN w ≠ 0xA1 := by
  simp only [ne_eq, ← BitVec.toNat_inj]
  unfold decodeFamilyE
  split <;> simp_all

theorem decodeFamilyF_eq_none_iff (w : Word) : decodeFamilyF w = none ↔
    fieldNN w ≠ 0x07 ∧ fieldNN w ≠ 0x0A ∧ fieldNN w ≠ 0x15 ∧ fieldNN w ≠ 0x18 ∧ fieldNN w ≠ 0x1E ∧ fieldNN w ≠ 0x29 ∧
      fieldNN w ≠ 0x33 ∧ fieldNN w ≠ 0x55 ∧ fieldNN w ≠ 0x65 := by
  simp only [ne_eq, ← BitVec.toNat_inj]
  unfold decodeFamilyF
  split <;> simp_all

/-- Only families 8, E and F have unknown opcodes. -/
theorem decodeWord_eq_none_iff (w : Word) : decodeWord w = none ↔
    (fieldF w = 0x8 ∧ decodeFamily8 w = none) ∨ (fieldF w = 0xE ∧ decodeFamilyE w = none) ∨
      (fieldF w = 0xF ∧ decodeFamilyF w = none) := by
  have hlt := (fieldF w).isLt
  simp only [← BitVec.toNat_inj (x := fieldF w)]
  unfold decodeWord
  split
  case h_16 =>
    simp only [imp_false] at *
    have hF : (fieldF w).toNat = 15 := by omega
    simp [hF]
  all_goals next hF => simp [hF]

/-- A word of family E is dispatched on its low byte (R95, R96). -/
theorem decodeWord_of_fieldF_E {w : Word} (h : fieldF w = 0xE) : decodeWord w = decodeFamilyE w := by
  unfold decodeWord
  rw [h]
  rfl

/-! ## How many -/

/-- Counting a property of the residues modulo `a` over `m` full periods. -/
theorem countP_range_mul_of_mod (q : Nat → Bool) (a m : Nat) :
    (List.range (m * a)).countP (fun k => q (k % a)) = m * (List.range a).countP q := by
  induction m with
  | zero => simp
  | succ m ih =>
    have hperiod : (List.range a).countP ((fun k => q (k % a)) ∘ (m * a + ·)) = (List.range a).countP q :=
      List.countP_congr fun k hk => by
        simp [Nat.mod_eq_of_lt (List.mem_range.1 hk)]
    rw [Nat.succ_mul, List.range_add, List.countP_append, List.countP_map, ih, hperiod, Nat.succ_mul]

theorem fieldN_toNat (w : Word) : (fieldN w).toNat = w.toNat % 16 := by
  rw [fieldN, BitVec.extractLsb'_toNat, Nat.shiftRight_zero]

theorem fieldNN_toNat (w : Word) : (fieldNN w).toNat = w.toNat % 256 := by
  rw [fieldNN, BitVec.extractLsb'_toNat, Nat.shiftRight_zero]

/-- The `k`-th word of family `f` belongs to it, and shares its low byte and nibble with `k`. -/
theorem fieldF_familyWord {f k : Nat} (hf : f < 16) (hk : k < 4096) :
    fieldF (BitVec.ofNat 16 (f * 4096 + k)) = BitVec.ofNat 4 f := by
  apply (nibble_eq_iff_toNat _ f hf).2
  rw [fieldF_toNat, BitVec.toNat_ofNat]
  omega

theorem fieldN_familyWord (f k : Nat) :
    fieldN (BitVec.ofNat 16 (f * 4096 + k)) = fieldN (BitVec.ofNat 16 (k % 16)) := by
  apply BitVec.eq_of_toNat_eq
  rw [fieldN_toNat, fieldN_toNat, BitVec.toNat_ofNat, BitVec.toNat_ofNat]
  omega

theorem fieldNN_familyWord (f k : Nat) :
    fieldNN (BitVec.ofNat 16 (f * 4096 + k)) = fieldNN (BitVec.ofNat 16 (k % 256)) := by
  apply BitVec.eq_of_toNat_eq
  rw [fieldNN_toNat, fieldNN_toNat, BitVec.toNat_ofNat, BitVec.toNat_ofNat]
  omega

/-- The unknown words of a family are counted by their sub-opcodes: each of the `a` sub-opcodes stands in `m` words. -/
theorem countP_unknown_family {f : Nat} (hf : f < 16) {α : Type} {sub : Word → α} {dispatch : Word → Option Instr}
    (hfamily : ∀ {w}, fieldF w = BitVec.ofNat 4 f → decodeWord w = dispatch w)
    (hcongr : ∀ {w w'}, sub w = sub w' → (dispatch w).isSome = (dispatch w').isSome) {a m : Nat} (ham : m * a = 4096)
    (hsub : ∀ k, sub (BitVec.ofNat 16 (f * 4096 + k)) = sub (BitVec.ofNat 16 (k % a))) :
    (List.range 4096).countP (fun k => (decodeWord (BitVec.ofNat 16 (f * 4096 + k))).isNone) =
      m * (List.range a).countP (fun n => (dispatch (BitVec.ofNat 16 n)).isNone) := by
  rw [← countP_range_mul_of_mod, ham]
  refine List.countP_congr fun k hk => ?_
  rw [hfamily (fieldF_familyWord hf (List.mem_range.1 hk)), ← Option.not_isSome, ← Option.not_isSome, hcongr (hsub k)]

/-! ## The step on one -/

/-- A step on an unknown opcode is the fetch's advance alone. -/
theorem step_unknown {s : State} (hs : s.Ready) (hd : decodeWord s.instrWord = none) : step s = .next s.advance := by
  have hnot : ¬ s.halted = true := by rw [State.halted, hs.noFault]; exact Bool.false_ne_true
  rw [step, if_neg hnot, if_neg (not_not.2 hs.wellFormed), if_neg (not_not.2 hs.fetch), hd]
  rfl

theorem unknownOpcodeEvent_of_ready {s : State} (hs : s.Ready) (hd : decodeWord s.instrWord = none) :
    s.unknownOpcodeEvent = some { pc0 := s.pc, word := s.instrWord } :=
  if_pos ⟨by rw [State.halted, hs.noFault]; rfl, hs.fetch, hd⟩

/-- Settles O4: the three sub-dispatches that can answer nothing, counted over one period of sub-opcodes each; the step is the
advance. -/
theorem unknownOpcodeIsTwoByteNoOp : Obligations.UnknownOpcodeIsTwoByteNoOp := by
  refine ⟨fun w => ?words, ?count8, ?countE, ?countF, fun s hs hd =>
    ⟨s.advance, step_unknown hs hd, advance_pc s, advance_agree s, unknownOpcodeEvent_of_ready hs hd⟩⟩
  case words =>
    rw [decodeWord_eq_none_iff, decodeFamily8_eq_none_iff, decodeFamilyE_eq_none_iff, decodeFamilyF_eq_none_iff]
  case count8 =>
    exact (countP_unknown_family (m := 256) (by decide) decodeWord_of_fieldF_eight decodeFamily8_isSome_congr rfl
      (fieldN_familyWord 8)).trans (by decide)
  case countE =>
    exact (countP_unknown_family (m := 16) (by decide) decodeWord_of_fieldF_E decodeFamilyE_isSome_congr rfl
      (fieldNN_familyWord 14)).trans (by decide +kernel)
  case countF =>
    exact (countP_unknown_family (m := 16) (by decide) decodeWord_of_fieldF_F decodeFamilyF_isSome_congr rfl
      (fieldNN_familyWord 15)).trans (by decide +kernel)

/-- Settles O5: each word, evaluated. -/
theorem specPatternsDecode : Obligations.SpecPatternsDecode := by
  unfold Obligations.SpecPatternsDecode
  decide

end Sys2Proof.Proofs
end

section
/-! SUPPORT. Everything an instruction can do, said once: the fault it raises, the one wait that does not complete, and what it
leaves in every piece of state when it completes (spec/30_encoding.md R102; the writers of spec/10_state.md R20 to R34). -/

namespace Sys2Proof.Proofs
open Sys2Proof Sys2Proof.Machine Sys2Proof.Laws

/-! ## Faults -/

/-- The cause and address of the fault an instruction raises, if any (R255, R256, R257). -/
def faultOf (s : State) : Instr → Option (FaultCause × Nat)
  | .call _ => if s.cfg.stackSize ≤ s.sp then some (.stackOverflow, 0) else none
  | .ret => if s.sp = 0 then some (.stackUnderflow, 0) else none
  | .drw _ y n =>
    if 1 ≤ s.spriteRows y n ∧ ¬ s.inMemory (s.ea (s.spriteRows y n - 1)) then
      some (.outOfBounds, s.ea (s.spriteRows y n - 1))
    else none
  | .ldBcd _ => if s.inMemory (s.ea 2) then none else some (.outOfBounds, s.ea 2)
  | .storeRegs x => if s.inMemory (s.ea x.val) then none else some (.outOfBounds, s.ea x.val)
  | .loadRegs x => if s.inMemory (s.ea x.val) then none else some (.outOfBounds, s.ea x.val)
  | _ => none

/-- An instruction with a fault raises it and does nothing else. -/
theorem exec_of_fault {s : State} {i : Instr} {c : FaultCause} {a : Nat} (h : faultOf s i = some (c, a)) :
    exec i s = .next (s.enterFault c s.instrWord a) := by
  cases i with
  | call | ret | drw =>
    simp only [faultOf, Option.ite_none_right_eq_some, Option.some.injEq, Prod.mk.injEq] at h
    obtain ⟨hc, rfl, rfl⟩ := h
    exact if_pos hc
  | ldBcd | storeRegs | loadRegs =>
    simp only [faultOf, Option.ite_none_left_eq_some, Option.some.injEq, Prod.mk.injEq] at h
    obtain ⟨hc, rfl, rfl⟩ := h
    exact if_neg hc
  | _ => cases h

theorem ite_some_eq_none {α : Type} {p : Prop} [Decidable p] {a : α} : (if p then some a else none) = none ↔ ¬ p := by
  split <;> simp_all

theorem ite_none_some_eq_none {α : Type} {p : Prop} [Decidable p] {a : α} : (if p then none else some a) = none ↔ p := by
  split <;> simp_all

/-! When each of the six instructions that can fault does not. -/

theorem faultOf_call_eq_none {s : State} {nnn : Addr12} : faultOf s (.call nnn) = none ↔ s.sp < s.cfg.stackSize :=
  ite_some_eq_none.trans Nat.not_le

theorem faultOf_ret_eq_none {s : State} : faultOf s .ret = none ↔ s.sp ≠ 0 := ite_some_eq_none

theorem faultOf_drw_eq_none {s : State} {x y : Reg} {n : Nibble} :
    faultOf s (.drw x y n) = none ↔ ¬ (1 ≤ s.spriteRows y n ∧ ¬ s.inMemory (s.ea (s.spriteRows y n - 1))) := ite_some_eq_none

theorem faultOf_ldBcd_eq_none {s : State} {x : Reg} : faultOf s (.ldBcd x) = none ↔ s.inMemory (s.ea 2) :=
  ite_none_some_eq_none

theorem faultOf_storeRegs_eq_none {s : State} {x : Reg} : faultOf s (.storeRegs x) = none ↔ s.inMemory (s.ea x.val) :=
  ite_none_some_eq_none

theorem faultOf_loadRegs_eq_none {s : State} {x : Reg} : faultOf s (.loadRegs x) = none ↔ s.inMemory (s.ea x.val) :=
  ite_none_some_eq_none

/-! ## What a completing instruction leaves -/

/-- The `pc` after an instruction that completes (R25). -/
def pcAfter (s : State) : Instr → Word
  | .jp nnn => zextAddr nnn
  | .call nnn => zextAddr nnn
  | .jpV0 nnn => zextAddr nnn + zextByte (s.jumpOffset nnn)
  | .ret => s.stackAt (s.sp - 1)
  | .seImm x nn => if s.reg x = nn then s.pc + 4 else s.pc + 2
  | .sneImm x nn => if s.reg x = nn then s.pc + 2 else s.pc + 4
  | .seReg x y => if s.reg x = s.reg y then s.pc + 4 else s.pc + 2
  | .sneReg x y => if s.reg x = s.reg y then s.pc + 2 else s.pc + 4
  | .skp x => if s.consultKey.1 = some (s.reg x) then s.pc + 4 else s.pc + 2
  | .sknp x => if s.consultKey.1 = some (s.reg x) then s.pc + 2 else s.pc + 4
  | _ => s.pc + 2

/-- The registers an instruction may write (R22). -/
def writtenRegs (s : State) : Instr → List Reg
  | .ldImm x _ | .addImm x _ | .rnd x _ | .ldReg x _ | .orReg x _ | .andReg x _ | .xorReg x _ | .ldFromDt x | .ldKey x => [x]
  | .addReg x _ | .subReg x _ | .subn x _ | .shr x _ | .shl x _ => [x, VF]
  | .drw _ _ _ => [VF]
  | .addI _ => if s.cfg.quirks.fx1eOverflow then [VF] else []
  | .loadRegs x => regsUpTo x
  | _ => []

/-- The index register after an instruction that completes (R26). -/
def indexAfter (s : State) : Instr → Word
  | .ldI nnn => zextAddr nnn
  | .addI x => s.i + zextByte (s.reg x)
  | .ldFont x => s.glyphAddress (s.reg x)
  | .storeRegs x | .loadRegs x => (s.bumpIndex x).i
  | _ => s.i

/-- The stack entries after an instruction that completes (R27). -/
def stackAfter (s : State) : Instr → List Word
  | .call _ => s.stack.set s.sp (s.pc + 2)
  | _ => s.stack

/-- The stack pointer after an instruction that completes (R28). -/
def spAfter (s : State) : Instr → Nat
  | .call _ => s.sp + 1
  | .ret => s.sp - 1
  | _ => s.sp

/-- The delay timer after an instruction that completes (R29). -/
def delayTimerAfter (s : State) : Instr → Byte
  | .ldDt x => s.reg x
  | _ => s.delayTimer

/-- The sound timer after an instruction that completes (R30). -/
def soundTimerAfter (s : State) : Instr → Byte
  | .ldSt x => s.reg x
  | _ => s.soundTimer

/-- The memory after an instruction that completes (R31). -/
def memoryAfter (s : State) : Instr → Memory
  | .ldBcd x => Memory.writeBytes s.memory (s.ea 0) (bcdDigits (s.reg x))
  | .storeRegs x => Memory.writeBytes s.memory (s.ea 0) (s.regBytes x)
  | _ => s.memory

/-- The framebuffer and collision flag of the sprite DXYN draws. -/
def spriteCanvas (s : State) (x y : Reg) (n : Nibble) : Canvas :=
  s.drawSprite (s.spriteColumn x) (s.spriteRow y) (s.spriteRows y n) (s.spriteCols x) { cells := s.display, hit := false }

/-- The framebuffer after an instruction that completes (R32). -/
def displayAfter (s : State) : Instr → Display
  | .cls => []
  | .drw x y n => (spriteCanvas s x y n).cells
  | _ => s.display

/-- The host's answers after an instruction that completes: each port instruction takes its one sample (R223 to R225). -/
def answersAfter (s : State) : Instr → HostAnswers
  | .rnd _ _ => s.drawRnd.2.answers
  | .skp _ | .sknp _ => s.consultKey.2.answers
  | .ldKey _ =>
    match s.cfg.keyMode with
    | .useGivenKey => s.answers
    | .getKey => { s.answers with wait := s.answers.wait.tail }
  | _ => s.answers

/-- `t` is what instruction `i` leaves of `s` when it completes: every piece of state but the values of the written registers. -/
structure Completes (ins : Instr) (s t : State) : Prop where
  pc : t.pc = pcAfter s ins
  reg : ∀ r, r ∉ writtenRegs s ins → t.reg r = s.reg r
  i : t.i = indexAfter s ins
  stack : t.stack = stackAfter s ins
  sp : t.sp = spAfter s ins
  delayTimer : t.delayTimer = delayTimerAfter s ins
  soundTimer : t.soundTimer = soundTimerAfter s ins
  memory : t.memory = memoryAfter s ins
  display : t.display = displayAfter s ins
  key : t.key = s.key
  cfg : t.cfg = s.cfg
  fault : t.fault = s.fault
  answers : t.answers = answersAfter s ins

/-- The frame of an instruction: what it completes with, as `AgreeBut` says it. -/
theorem Completes.agree {ins : Instr} {s t : State} (h : Completes ins s t) : AgreeBut (writtenRegs s ins)
    { s with i := indexAfter s ins, stack := stackAfter s ins, sp := spAfter s ins, delayTimer := delayTimerAfter s ins,
             soundTimer := soundTimerAfter s ins, memory := memoryAfter s ins, display := displayAfter s ins,
             answers := answersAfter s ins } t :=
  ⟨h.reg, h.i, h.stack, h.sp, h.delayTimer, h.soundTimer, fun a => congrArg (Memory.read · a) h.memory, h.display, h.key, h.cfg,
    h.fault, h.answers⟩

theorem Completes.of_agree {ins : Instr} {s t : State} (h : AgreeBut (writtenRegs s ins)
    { s with i := indexAfter s ins, stack := stackAfter s ins, sp := spAfter s ins, delayTimer := delayTimerAfter s ins,
             soundTimer := soundTimerAfter s ins, memory := memoryAfter s ins, display := displayAfter s ins,
             answers := answersAfter s ins } t) (hpc : t.pc = pcAfter s ins) (hmemory : t.memory = memoryAfter s ins) :
    Completes ins s t :=
  ⟨hpc, h.reg, h.i, h.stack, h.sp, h.delayTimer, h.soundTimer, hmemory, h.display, h.key, h.cfg, h.fault, h.answers⟩

/-! ## Frames of the updates -/

theorem skipIf_agree {regs : List Reg} {s t : State} (h : AgreeBut regs s t) (c : Bool) : AgreeBut regs s (t.skipIf c) := by
  cases c with
  | false => exact h
  | true => exact { h with }

theorem setMemory_agree {regs : List Reg} {s t : State} (h : AgreeBut regs s t) (m : Memory) :
    AgreeBut regs { s with memory := m } (t.setMemory m) :=
  { h with memory := fun _ => rfl }

theorem setDisplay_agree {regs : List Reg} {s t : State} (h : AgreeBut regs s t) (d : Display) :
    AgreeBut regs { s with display := d } (t.setDisplay d) :=
  { h with display := rfl }

theorem setRegs_agree {regs : List Reg} {s t : State} (h : AgreeBut regs s t) (g : Reg → Byte) {rs : List Reg}
    (hrs : ∀ r ∈ rs, r ∈ regs) : AgreeBut regs s (t.setRegs g rs) := by
  induction rs generalizing t with
  | nil => exact h
  | cons r rs ih => 
    exact ih (setReg_agree h (hrs r List.mem_cons_self) (g r)) fun q hq => hrs q (List.mem_cons_of_mem _ hq)

theorem bumpIndex_eq (s : State) (x : Reg) : s.bumpIndex x = { s with i := (s.bumpIndex x).i } := by
  unfold State.bumpIndex
  split <;> rfl

theorem bumpIndex_i_congr {s t : State} (hi : t.i = s.i) (hcfg : t.cfg = s.cfg) (x : Reg) :
    (t.bumpIndex x).i = (s.bumpIndex x).i := by
  rw [bumpIndex_i, bumpIndex_i, hi, hcfg]

theorem bumpIndex_agree {regs : List Reg} {s t : State} (h : AgreeBut regs s t) {x : Reg} {a : Word}
    (hi : (t.bumpIndex x).i = a) : AgreeBut regs { s with i := a } (t.bumpIndex x) := by
  rw [bumpIndex_eq]
  exact { h with i := hi }

theorem push_advance_agree (s : State) :
    AgreeBut [] { s with stack := s.stack.set s.sp (s.pc + 2), sp := s.sp + 1 } (s.advance.push s.advance.pc) :=
  { advance_agree s with stack := rfl, sp := rfl }

/-- A port sample changes the answers only, and does not see the advance. -/
theorem drawRnd_advance_agree (s : State) : AgreeBut [] { s with answers := s.drawRnd.2.answers } s.advance.drawRnd.2 := by
  unfold State.drawRnd
  rw [advance_answers]
  split <;> exact { advance_agree s with answers := rfl }

theorem consultKey_advance_agree (s : State) :
    AgreeBut [] { s with answers := s.consultKey.2.answers } s.advance.consultKey.2 := by
  unfold State.consultKey State.pollKey
  rw [advance_cfg, advance_answers]
  cases s.cfg.keyMode with
  | useGivenKey => exact advance_agree s
  | getKey => cases s.answers.poll <;> exact { advance_agree s with answers := rfl }

/-- Agreement outside fewer registers is agreement outside more. -/
theorem agree_mono {regs : List Reg} {s t : State} (h : AgreeBut [] s t) : AgreeBut regs s t :=
  { h with reg := fun r _ => h.reg r List.not_mem_nil }

/-! The skips -/

theorem add_two_add_two (a : Word) : a + 2 + 2 = a + 4 := by
  rw [BitVec.add_assoc]
  rfl

/-- A skip on a test that means `p` lands at `pc0 + 4` when `p` holds (R140). -/
theorem skipIf_pc_of_iff {s t : State} (ht : t.pc = s.pc + 2) {c : Bool} {p : Prop} [Decidable p] (hc : c = true ↔ p) :
    (t.skipIf c).pc = if p then s.pc + 4 else s.pc + 2 := by
  rw [skipIf_pc, ht, add_two_add_two]
  exact if_congr hc rfl rfl

theorem skipIf_pc_of_iff_not {s t : State} (ht : t.pc = s.pc + 2) {c : Bool} {p : Prop} [Decidable p] (hc : c = true ↔ ¬ p) :
    (t.skipIf c).pc = if p then s.pc + 2 else s.pc + 4 := by
  rw [skipIf_pc_of_iff ht hc, ite_not]

/-! ## FX0A (R193) -/

theorem execLdKey_useGivenKey {s : State} (hm : s.cfg.keyMode = .useGivenKey) (x : Reg) :
    exec (.ldKey x) s = .next (s.advance.setReg x (keyByte s.cfg s.key)) := by
  rw [exec, execLdKey, hm]

theorem execLdKey_getKey {s : State} (hm : s.cfg.keyMode = .getKey) {k : Key} {rest : List Key}
    (hw : s.answers.wait = k :: rest) (x : Reg) : exec (.ldKey x) s =
      .next (State.setReg { s.advance with answers := { s.answers with wait := rest } } x (keyByte s.cfg k)) := by
  have hawait : s.advance.awaitKey = some (k, { s.advance with answers := { s.answers with wait := rest } }) := by
    unfold State.awaitKey
    rw [advance_answers, hw]
  rw [exec, execLdKey, hm]
  dsimp only
  rw [hawait]

theorem execLdKey_stuck {s : State} (hm : s.cfg.keyMode = .getKey) (hw : s.answers.wait = []) (x : Reg) :
    exec (.ldKey x) s = .fault .stuckAwaitingKey := by
  have hawait : s.advance.awaitKey = none := by
    unfold State.awaitKey
    rw [advance_answers, hw]
  rw [exec, execLdKey, hm]
  dsimp only
  rw [hawait]

/-- The one wait that does not complete: FX0A under `GET_KEY` without an answer (R193). -/
def Waits (s : State) (ins : Instr) : Prop := s.cfg.keyMode = .getKey ∧ s.answers.wait = [] ∧ ∃ x, ins = .ldKey x

theorem exec_of_waits {s : State} {ins : Instr} (h : Waits s ins) : exec ins s = .fault .stuckAwaitingKey := by
  obtain ⟨hm, hw, x, rfl⟩ := h
  exact execLdKey_stuck hm hw x

/-! ## The six instructions that can fault, when they do not -/

theorem exec_call {s : State} {nnn : Addr12} (hf : faultOf s (.call nnn) = none) :
    exec (.call nnn) s = .next ((s.advance.push (s.pc + 2)).jump (zextAddr nnn)) :=
  if_neg (Nat.not_le.2 (faultOf_call_eq_none.1 hf))

theorem exec_ret {s : State} (hf : faultOf s .ret = none) : exec .ret s = .next s.advance.popToPc :=
  if_neg (faultOf_ret_eq_none.1 hf)

/-- The state after a draw. -/
def drawn (s : State) (x y : Reg) (n : Nibble) : State :=
  (s.advance.setFlag (spriteCanvas s x y n).hit).setDisplay (spriteCanvas s x y n).cells

theorem exec_drw {s : State} {x y : Reg} {n : Nibble} (hf : faultOf s (.drw x y n) = none) :
    exec (.drw x y n) s = .next (drawn s x y n) := if_neg (faultOf_drw_eq_none.1 hf)

theorem exec_ldBcd {s : State} {x : Reg} (hf : faultOf s (.ldBcd x) = none) : exec (.ldBcd x) s =
    .next (s.advance.setMemory (Memory.writeBytes s.memory (s.ea 0) (bcdDigits (s.reg x)))) :=
  if_pos (faultOf_ldBcd_eq_none.1 hf)

theorem exec_storeRegs {s : State} {x : Reg} (hf : faultOf s (.storeRegs x) = none) : exec (.storeRegs x) s =
    .next ((s.advance.setMemory (Memory.writeBytes s.memory (s.ea 0) (s.regBytes x))).bumpIndex x) :=
  if_pos (faultOf_storeRegs_eq_none.1 hf)

theorem exec_loadRegs {s : State} {x : Reg} (hf : faultOf s (.loadRegs x) = none) : exec (.loadRegs x) s =
    .next ((s.advance.setRegs (fun r => Memory.read s.memory (s.ea r.val)) (regsUpTo x)).bumpIndex x) :=
  if_pos (faultOf_loadRegs_eq_none.1 hf)

/-! ## Every instruction -/

/-- An instruction that neither faults nor waits completes. -/
theorem exec_of_completes {s : State} {ins : Instr} (h : faultOf s ins = none) (hw : ¬ Waits s ins) :
    ∃ t, exec ins s = .next t ∧ Completes ins s t := by
  have adv := advance_agree s
  cases ins with
  | sys => exact ⟨_, rfl, .of_agree adv rfl rfl⟩
  | cls => exact ⟨_, rfl, .of_agree (setDisplay_agree adv _) rfl rfl⟩
  | jp | jpV0 => exact ⟨_, rfl, .of_agree (jump_agree adv _) rfl rfl⟩
  | ldI | ldFont => exact ⟨_, rfl, .of_agree (setIndex_agree adv _) rfl rfl⟩
  | ldDt => exact ⟨_, rfl, .of_agree { adv with delayTimer := rfl } rfl rfl⟩
  | ldSt => exact ⟨_, rfl, .of_agree { adv with soundTimer := rfl } rfl rfl⟩
  | ldImm x | addImm x | ldReg x | orReg x | andReg x | xorReg x | ldFromDt x =>
    exact ⟨_, rfl, .of_agree (setReg_agree (agree_mono adv) (List.mem_singleton_self x) _) rfl rfl⟩
  | addReg x | subReg x | subn x => exact ⟨_, rfl, .of_agree (setReg_setFlag_agree s x _ _) rfl rfl⟩
  | shr x y | shl x y =>
    exact ⟨_, rfl, .of_agree (shiftFlagged_setReg_agree s x y _ _) (shiftFlagged_setReg_pc s x y _ _)
      (loadShiftOperand_memory s.advance x y)⟩
  | seImm | seReg =>
    exact ⟨_, rfl, .of_agree (skipIf_agree adv _) (skipIf_pc_of_iff rfl beq_iff_eq) (skipIf_memory _ _)⟩
  | sneImm | sneReg =>
    exact ⟨_, rfl, .of_agree (skipIf_agree adv _) (skipIf_pc_of_iff_not rfl bne_iff_ne) (skipIf_memory _ _)⟩
  | skp x =>
    refine ⟨_, rfl, .of_agree (skipIf_agree (consultKey_advance_agree s) _) ?_ ((skipIf_memory _ _).trans (consultKey_memory s.advance))⟩
    rw [consultKey_advance]
    exact skipIf_pc_of_iff (consultKey_pc _) beq_iff_eq
  | sknp x =>
    refine ⟨_, rfl, .of_agree (skipIf_agree (consultKey_advance_agree s) _) ?_ ((skipIf_memory _ _).trans (consultKey_memory s.advance))⟩
    rw [consultKey_advance]
    exact skipIf_pc_of_iff_not (consultKey_pc _) bne_iff_ne
  | rnd x =>
    exact ⟨_, rfl, .of_agree (setReg_agree (agree_mono (drawRnd_advance_agree s)) (List.mem_singleton_self x) _)
      (drawRnd_pc s.advance) (drawRnd_memory s.advance)⟩
  | ldKey x =>
    cases hm : s.cfg.keyMode with
    | useGivenKey =>
      refine ⟨_, execLdKey_useGivenKey hm x, .of_agree ?_ rfl rfl⟩
      rw [answersAfter, hm]
      exact setReg_agree (agree_mono adv) (List.mem_singleton_self x) _
    | getKey =>
      obtain ⟨k, rest, hk⟩ := List.exists_cons_of_ne_nil fun h => hw ⟨hm, h, x, rfl⟩
      have hframe : AgreeBut [] { s with answers := { s.answers with wait := rest } }
          { s.advance with answers := { s.answers with wait := rest } } := { adv with answers := rfl }
      refine ⟨_, execLdKey_getKey hm hk x, .of_agree ?_ rfl rfl⟩
      rw [answersAfter, hm, hk]
      exact setReg_agree (agree_mono hframe) (List.mem_singleton_self x) _
  | ret => exact ⟨_, exec_ret h, .of_agree { adv with sp := rfl } rfl rfl⟩
  | call => exact ⟨_, exec_call h, .of_agree (jump_agree (push_advance_agree s) _) rfl rfl⟩
  | addI x =>
    cases hq : s.cfg.quirks.fx1eOverflow with
    | false =>
      refine ⟨_, exec_addI_of_noOverflowFlag hq x, .of_agree ?_ rfl rfl⟩
      exact agree_mono (setIndex_agree adv _)
    | true =>
      refine ⟨_, exec_addI_of_overflowFlag hq x, .of_agree ?_ rfl rfl⟩
      rw [writtenRegs, hq]
      exact setFlag_agree (agree_mono (setIndex_agree adv _)) (List.mem_singleton_self VF) _
  | drw =>
    exact ⟨_, exec_drw h,
      .of_agree (setDisplay_agree (setFlag_agree (agree_mono adv) (List.mem_singleton_self VF) _) _) rfl rfl⟩
  | ldBcd => exact ⟨_, exec_ldBcd h, .of_agree (setMemory_agree adv _) rfl rfl⟩
  | storeRegs x =>
    exact ⟨_, exec_storeRegs h, .of_agree
      (bumpIndex_agree (setMemory_agree adv (memoryAfter s (.storeRegs x)))
        (bumpIndex_i_congr (s := s) (t := s.advance.setMemory _) rfl rfl x))
      (bumpIndex_pc _ x) (bumpIndex_memory _ x)⟩
  | loadRegs x =>
    exact ⟨_, exec_loadRegs h, .of_agree
      (bumpIndex_agree (setRegs_agree (agree_mono adv) _ fun _ => id)
        (bumpIndex_i_congr (s := s) (setRegs_i s.advance _ _) (setRegs_cfg s.advance _ _) x))
      ((bumpIndex_pc _ x).trans (setRegs_pc _ _ _)) ((bumpIndex_memory _ x).trans (setRegs_memory _ _ _))⟩

/-- Everything an instruction can do. -/
theorem exec_cases (ins : Instr) (s : State) :
    (∃ c a, faultOf s ins = some (c, a) ∧ exec ins s = .next (s.enterFault c s.instrWord a)) ∨
    (faultOf s ins = none ∧ Waits s ins ∧ exec ins s = .fault .stuckAwaitingKey) ∨
    (faultOf s ins = none ∧ ∃ t, exec ins s = .next t ∧ Completes ins s t) := by
  cases hf : faultOf s ins with
  | some ca => exact .inl ⟨ca.1, ca.2, rfl, exec_of_fault hf⟩
  | none =>
    by_cases hw : Waits s ins
    · exact .inr (.inl ⟨rfl, hw, exec_of_waits hw⟩)
    · exact .inr (.inr ⟨rfl, exec_of_completes hf hw⟩)

/-- What an instruction that answers a next state has done: entered a fault, or completed. -/
theorem exec_next_cases {ins : Instr} {s t : State} (h : exec ins s = .next t) :
    (∃ c a, faultOf s ins = some (c, a) ∧ t = s.enterFault c s.instrWord a) ∨
    (faultOf s ins = none ∧ Completes ins s t) := by
  obtain ⟨c, a, hf, he⟩ | ⟨-, -, he⟩ | ⟨hf, u, he, hc⟩ := exec_cases ins s
  · exact .inl ⟨c, a, hf, Host.Outcome.next.inj (h.symm.trans he)⟩
  · cases h.symm.trans he
  · cases Host.Outcome.next.inj (h.symm.trans he)
    exact .inr ⟨hf, hc⟩

/-- The frame of a state that an instruction without a fault answers. -/
theorem completes_of_exec {ins : Instr} {s t : State} (hf : faultOf s ins = none) (h : exec ins s = .next t) :
    Completes ins s t := by
  obtain ⟨c, a, hfault, -⟩ | ⟨-, ht⟩ := exec_next_cases h
  · cases hf.symm.trans hfault
  · exact ht

end Sys2Proof.Proofs
end

section
/-! SUPPORT. The invariant (spec/10_state.md R24, R27, R28, spec/20_memory.md R60): it holds after reset, every instruction and every host
operation keeps it, so every reachable state meets it. -/

namespace Sys2Proof.Proofs
open Sys2Proof Sys2Proof.Machine Sys2Proof.Laws

/-! ## Memory and display stay canonical and inside their bounds -/

theorem memoryAfter_wf {s : State} (h : Memory.wf s.memory) (ins : Instr) : Memory.wf (memoryAfter s ins) := by
  cases ins with
  | ldBcd | storeRegs => exact Laws.Memory.wf_writeBytes _ _ _ h
  | _ => exact h

/-- A write of bytes whose last address is in memory adds no cell outside it. -/
theorem writeBytes_bound {s : State} (h : ∀ c ∈ s.memory, c.1 < s.cfg.memorySize) {bs : List Byte} {last : Nat}
    (hlast : s.inMemory (s.ea last)) (hlen : bs.length = last + 1) :
    ∀ c ∈ Memory.writeBytes s.memory (s.ea 0) bs, c.1 < s.cfg.memorySize := by
  intro c hc
  obtain ⟨-, hlt⟩ | hold := Laws.Memory.mem_writeBytes _ _ _ _ hc
  · simp only [State.inMemory, State.ea] at hlast hlt
    omega
  · exact h c hold

theorem memoryAfter_bound {s : State} (h : ∀ c ∈ s.memory, c.1 < s.cfg.memorySize) {ins : Instr}
    (hf : faultOf s ins = none) : ∀ c ∈ memoryAfter s ins, c.1 < s.cfg.memorySize := by
  cases ins with
  | ldBcd x => exact writeBytes_bound h (faultOf_ldBcd_eq_none.1 hf) rfl
  | storeRegs x => exact writeBytes_bound h (faultOf_storeRegs_eq_none.1 hf) (regBytes_length s x)
  | _ => exact h

theorem displayAfter_wf {s : State} (h : Display.wf s.display) (ins : Instr) : Display.wf (displayAfter s ins) := by
  cases ins with
  | cls => exact List.Pairwise.nil
  | drw => exact Laws.Display.wf_drawSprite _ _ _ _ _ _ h
  | _ => exact h

theorem cellNumber_lt {w h x y : Nat} (hx : x < w) (hy : y < h) : cellNumber w x y < w * h := by
  calc cellNumber w x y < y * w + w := by unfold cellNumber; omega
    _ = (y + 1) * w := (Nat.succ_mul y w).symm
    _ ≤ h * w := Nat.mul_le_mul_right w hy
    _ = w * h := Nat.mul_comm h w

theorem displayAfter_bound {s : State} (h : ∀ n ∈ s.display, n < s.cfg.displayWidth * s.cfg.displayHeight) (ins : Instr) :
    ∀ n ∈ displayAfter s ins, n < s.cfg.displayWidth * s.cfg.displayHeight := by
  cases ins with
  | cls => exact fun n hn => nomatch hn
  | drw x y n =>
    intro k hk
    obtain ⟨r, j, hr, hj, rfl⟩ | hold := Laws.Display.mem_drawSprite _ _ _ _ _ _ _ hk
    · unfold State.spriteRows at hr
      unfold State.spriteCols at hj
      exact cellNumber_lt (by omega) (by omega)
    · exact h k hold
  | _ => exact h

/-! ## The stack and `pc` -/

theorem stackAfter_length (s : State) (ins : Instr) : (stackAfter s ins).length = s.stack.length := by
  cases ins with
  | call => exact List.length_set
  | _ => rfl

theorem spAfter_bound {s : State} (h : s.sp ≤ s.cfg.stackSize) {ins : Instr} (hf : faultOf s ins = none) :
    spAfter s ins ≤ s.cfg.stackSize := by
  cases ins with
  | call => exact faultOf_call_eq_none.1 hf
  | ret => exact (Nat.sub_le _ _).trans h
  | _ => exact h

/-- What a well-formed Configuration says of memory and of the program's address (R7). -/
theorem wellFormed_bounds {c : Configuration} (hc : c.WellFormed) :
    2 ≤ c.memorySize ∧ c.memorySize ≤ 0xFFFC ∧ c.programAddress ≤ c.memorySize - 2 := by
  obtain ⟨hmin, hmax, -, -, -, hprogram, -⟩ := hc
  exact ⟨hmin, hmax, hprogram⟩

/-- A fetch in range leaves room below the top of the address space for the advance and a skip (R24). -/
theorem pc_add_toNat {s : State} (hs : s.Ready) :
    (s.pc + 2).toNat = s.pc.toNat + 2 ∧ (s.pc + 4).toNat = s.pc.toNat + 4 := by
  have hfetch : s.pc.toNat + 1 < s.cfg.memorySize := hs.fetch
  obtain ⟨-, hsize, -⟩ := wellFormed_bounds hs.wellFormed
  have h2 : (2 : Word).toNat = 2 := rfl
  have h4 : (4 : Word).toNat = 4 := rfl
  rw [BitVec.toNat_add, BitVec.toNat_add, h2, h4]
  omega

theorem stackAt_eq (s : State) (k : Nat) : s.stackAt k = s.stack.getD k 0 := rfl

/-- A push at a free place is what that place holds, and every other place keeps its entry. -/
theorem push_stackAt (s : State) (a : Word) (hlen : s.sp < s.stack.length) (k : Nat) :
    (s.push a).stackAt k = if k = s.sp then a else s.stackAt k := by
  rw [stackAt_eq, stackAt_eq, push_stack, List.getD_eq_getElem?_getD, List.getD_eq_getElem?_getD, List.getElem?_set]
  by_cases hk : k = s.sp
  · subst hk
    simp [hlen]
  · rw [if_neg (Ne.symm hk), if_neg hk]

/-- The live entries stay return addresses: a call pushes the post-increment `pc` of a fetch in range. -/
theorem returnsAfter {s : State} (hi : s.Inv) (hs : s.Ready) {ins : Instr} (hf : faultOf s ins = none) {t : State}
    (ht : Completes ins s t) (k : Nat) (hk : k < t.sp) :
    2 ≤ (t.stackAt k).toNat ∧ (t.stackAt k).toNat ≤ s.cfg.memorySize := by
  have hold : ∀ k, k < s.sp → 2 ≤ (s.stackAt k).toNat ∧ (s.stackAt k).toNat ≤ s.cfg.memorySize := hi.returns
  rw [ht.sp] at hk
  rw [stackAt_eq, ht.stack]
  cases ins with
  | call nnn =>
    have hlen : s.sp < s.stack.length := hi.stackLength ▸ faultOf_call_eq_none.1 hf
    have hentry := push_stackAt s (s.pc + 2) hlen k
    rw [stackAt_eq, push_stack] at hentry
    change 2 ≤ ((s.stack.set s.sp (s.pc + 2)).getD k 0).toNat ∧ ((s.stack.set s.sp (s.pc + 2)).getD k 0).toNat ≤ _
    rw [hentry]
    split
    · have hfetch : s.pc.toNat + 1 < s.cfg.memorySize := hs.fetch
      rw [(pc_add_toNat hs).1]
      omega
    · next hne =>
      have hlt : k < s.sp + 1 := hk
      exact hold k (by omega)
  | ret =>
    have hlt : k < s.sp - 1 := hk
    exact hold k (by omega)
  | _ => exact hold k hk

/-- A choice between the advance and a skip does not pass the bound. -/
theorem pc_ite_bound {s : State} (hs : s.Ready) {p : Prop} [Decidable p] {a b : Word} (ha : a = s.pc + 2 ∨ a = s.pc + 4)
    (hb : b = s.pc + 2 ∨ b = s.pc + 4) : (if p then a else b).toNat ≤ max (s.cfg.memorySize + 2) 0x10FE := by
  have hfetch : s.pc.toNat + 1 < s.cfg.memorySize := hs.fetch
  obtain ⟨h2, h4⟩ := pc_add_toNat hs
  refine le_trans ?_ (le_max_left _ _)
  split
  · rcases ha with rfl | rfl <;> omega
  · rcases hb with rfl | rfl <;> omega

theorem pcAfter_bound {s : State} (hi : s.Inv) (hs : s.Ready) {ins : Instr} (hf : faultOf s ins = none) :
    (pcAfter s ins).toNat ≤ max (s.cfg.memorySize + 2) 0x10FE := by
  cases ins with
  | jp nnn | call nnn =>
    have hn := nnn.isLt
    refine le_trans ?_ (le_max_right _ _)
    exact (zextAddr_toNat nnn).trans_le (by omega)
  | jpV0 nnn =>
    have hn := nnn.isLt
    have hb := (s.jumpOffset nnn).isLt
    refine le_trans ?_ (le_max_right _ _)
    exact (zextAddr_add_zextByte_toNat nnn _).trans_le (by omega)
  | ret =>
    have hsp : s.sp ≠ 0 := faultOf_ret_eq_none.1 hf
    have hret := (hi.returns (s.sp - 1) (by omega)).2
    exact le_trans hret ((Nat.le_add_right _ 2).trans (le_max_left _ _))
  | seImm | seReg | skp => exact pc_ite_bound hs (.inr rfl) (.inl rfl)
  | sneImm | sneReg | sknp => exact pc_ite_bound hs (.inl rfl) (.inr rfl)
  | _ => exact pc_ite_bound (p := True) hs (.inl rfl) (.inl rfl)

/-! ## The step -/

/-- An instruction that completes keeps the invariant. -/
theorem Completes.inv {s t : State} (hi : s.Inv) (hs : s.Ready) {ins : Instr} (hf : faultOf s ins = none)
    (ht : Completes ins s t) : t.Inv where
  wellFormed := ht.cfg ▸ hi.wellFormed
  memoryWf := ht.memory ▸ memoryAfter_wf hi.memoryWf ins
  memoryBound := by rw [ht.memory, ht.cfg]; exact memoryAfter_bound hi.memoryBound hf
  displayWf := ht.display ▸ displayAfter_wf hi.displayWf ins
  displayBound := by rw [ht.display, ht.cfg]; exact displayAfter_bound hi.displayBound ins
  stackLength := by rw [ht.stack, ht.cfg, stackAfter_length, hi.stackLength]
  spBound := by rw [ht.sp, ht.cfg]; exact spAfter_bound hi.spBound hf
  returns := by rw [ht.cfg]; exact returnsAfter hi hs hf ht
  pcBound := by rw [ht.pc, ht.cfg]; exact pcAfter_bound hi hs hf

/-- The invariant does not speak of the registers, the index, the timers, the key, the fault register or the answers. -/
theorem inv_congr {s t : State} (hi : s.Inv) (hcfg : t.cfg = s.cfg) (hmemory : t.memory = s.memory)
    (hdisplay : t.display = s.display) (hstack : t.stack = s.stack) (hsp : t.sp = s.sp) (hpc : t.pc = s.pc) : t.Inv := by
  obtain ⟨v, pc, i, stack, sp, dt, st, memory, display, key, cfg, fault, answers⟩ := t
  subst hcfg hmemory hdisplay hstack hsp hpc
  exact ⟨hi.wellFormed, hi.memoryWf, hi.memoryBound, hi.displayWf, hi.displayBound, hi.stackLength, hi.spBound, hi.returns,
    hi.pcBound⟩

theorem enterFault_inv {s : State} (hi : s.Inv) (c : FaultCause) (w : Word) (a : Nat) : (s.enterFault c w a).Inv :=
  inv_congr hi rfl rfl rfl rfl rfl rfl

theorem exec_inv {s t : State} (hi : s.Inv) (hs : s.Ready) {ins : Instr} (h : exec ins s = .next t) : t.Inv := by
  obtain ⟨c, a, -, rfl⟩ | ⟨hf, ht⟩ := exec_next_cases h
  · exact enterFault_inv hi c _ a
  · exact ht.inv hi hs hf

/-- An unknown opcode does what 0NNN does. -/
theorem advance_inv {s : State} (hi : s.Inv) (hs : s.Ready) : s.advance.Inv := exec_inv hi hs (exec_sys 0 s)

/-- Settles O56: each of the five things a step can be keeps the invariant. -/
theorem stepKeepsInvariant : Obligations.StepKeepsInvariant := by
  intro s t hi h
  obtain ⟨-, he⟩ | ⟨-, -, he⟩ | ⟨-, -, -, he⟩ | ⟨hs, i, -, he⟩ | ⟨hs, -, he⟩ := step_cases s
  · cases h.symm.trans he; exact hi
  · cases h.symm.trans he
  · cases h.symm.trans he; exact enterFault_inv hi _ _ _
  · exact exec_inv hi hs (he.symm.trans h)
  · cases h.symm.trans he; exact advance_inv hi hs

/-! ## Reset, the host and every reachable state -/

theorem hostStep_reset {c : Configuration} (hc : c.WellFormed) (s : State) :
    hostStep (.reset c) s = .next (s.hostReset c) := if_pos hc

theorem hostStep_reset_refused {c : Configuration} (hc : ¬ c.WellFormed) (s : State) :
    hostStep (.reset c) s = .refused .illFormedConfiguration := if_neg hc

/-- Reset leaves everything empty, and `pc` at the program (R40). -/
theorem hostReset_inv (s : State) {c : Configuration} (hc : c.WellFormed) : (s.hostReset c).Inv where
  wellFormed := hc
  memoryWf := Laws.Memory.wf_reset c
  memoryBound := fun _ h => nomatch h
  displayWf := List.Pairwise.nil
  displayBound := fun _ h => nomatch h
  stackLength := List.length_replicate
  spBound := Nat.zero_le _
  returns := fun k h => absurd h (Nat.not_lt_zero k)
  pcBound := by
    obtain ⟨-, -, hprogram⟩ := wellFormed_bounds hc
    refine le_trans ?_ (le_max_left _ _)
    rw [hostReset_pc, hostReset_cfg, BitVec.toNat_ofNat]
    exact (Nat.mod_le _ _).trans (by omega)

theorem resetWith_inv {c : Configuration} (hc : c.WellFormed) : (State.resetWith c).Inv :=
  hostReset_inv (State.resetWith c) hc

/-- Settles O55: with nothing stored, lit or pushed, only the bound of `pc` is to check. -/
theorem resetStateMeetsInvariant : Obligations.ResetStateMeetsInvariant :=
  ⟨fun _ hc => resetWith_inv hc, resetWith_inv (by decide)⟩

/-- A HostWrite keeps the invariant: a byte outside memory is not written (R227). -/
theorem hostWrite_inv {s : State} (hi : s.Inv) (a : Nat) (b : Byte) : (s.hostWrite a b).Inv := by
  unfold State.hostWrite
  split
  · next ha =>
    have hbound : ∀ c ∈ Memory.write s.memory a b, c.1 < s.cfg.memorySize := fun c hc => by
      obtain rfl | hold := Laws.Memory.mem_write _ _ _ _ hc
      · exact ha
      · exact hi.memoryBound c hold
    exact { hi with memoryWf := Laws.Memory.wf_write _ _ _ hi.memoryWf, memoryBound := hbound }
  · exact hi

theorem hostStep_inv {op : HostOp} {s t : State} (hi : s.Inv) (h : hostStep op s = .next t) : t.Inv := by
  cases op with
  | reset c =>
    by_cases hc : c.WellFormed
    · cases (hostStep_reset hc s).symm.trans h; exact hostReset_inv s hc
    · cases (hostStep_reset_refused hc s).symm.trans h
  | hostWrite a b => cases h; exact hostWrite_inv hi a b
  | step => exact stepKeepsInvariant s t hi h
  | pushKey | timerTick | answerRnd | answerPoll | answerWait => cases h; exact inv_congr hi rfl rfl rfl rfl rfl rfl

theorem reachable_inv {s : State} (h : Reachable s) : s.Inv := by
  induction h with
  | reset c hc => exact resetWith_inv hc
  | op o s t _ ho ih => exact hostStep_inv ih ho

/-- Settles O57: the invariant holds at reset, and every host operation and step keeps it; the bounds on `pc` follow from it and
from `memorySize <= 0xFFFC` (R7). -/
theorem reachableStatesMeetInvariant : Obligations.ReachableStatesMeetInvariant := by
  intro s h
  have hi := reachable_inv h
  obtain ⟨-, hsize, -⟩ := wellFormed_bounds hi.wellFormed
  refine ⟨hi, hi.spBound, hi.pcBound.trans (max_le (by omega) (by omega)), fun hfetch => ?_⟩
  exact pc_add_toNat (s := { s with fault := none }) ⟨rfl, hi.wellFormed, hfetch⟩

end Sys2Proof.Proofs
end

section
/-! SUPPORT. The step around the instruction: when it faults and with which record (spec/60_exceptions.md R252 to R260), where it leaves
`pc` (spec/10_state.md R25), and when it completes (spec/30_encoding.md R102). -/

namespace Sys2Proof.Proofs
open Sys2Proof Sys2Proof.Machine Sys2Proof.Laws

/-! ## The step, by what it finds at `pc` -/

theorem step_of_fault {s : State} (h : s.fault ≠ none) : step s = .next s := by
  obtain ⟨-, he⟩ | ⟨h0, -⟩ | ⟨h0, -⟩ | ⟨hs, -⟩ | ⟨hs, -⟩ := step_cases s
  · exact he
  · exact absurd h0 h
  · exact absurd h0 h
  · exact absurd hs.noFault h
  · exact absurd hs.noFault h

theorem step_of_illFormed {s : State} (h0 : s.fault = none) (hc : ¬ s.cfg.WellFormed) :
    step s = .refused .illFormedConfiguration := by
  obtain ⟨hf, -⟩ | ⟨-, -, he⟩ | ⟨-, hw, -⟩ | ⟨hs, -⟩ | ⟨hs, -⟩ := step_cases s
  · exact absurd h0 hf
  · exact he
  · exact absurd hw hc
  · exact absurd hs.wellFormed hc
  · exact absurd hs.wellFormed hc

theorem step_of_fetchOutOfBounds {s : State} (h0 : s.fault = none) (hc : s.cfg.WellFormed) (hb : ¬ s.fetchInBounds) :
    step s = .next (s.enterFault .fetchOutOfBounds 0 (s.pc.toNat + 1)) := by
  obtain ⟨hf, -⟩ | ⟨-, hw, -⟩ | ⟨-, -, -, he⟩ | ⟨hs, -⟩ | ⟨hs, -⟩ := step_cases s
  · exact absurd h0 hf
  · exact absurd hc hw
  · exact he
  · exact absurd hs.fetch hb
  · exact absurd hs.fetch hb

theorem step_of_decodeWord {s : State} (hs : s.Ready) {i : Instr} (hd : decodeWord s.instrWord = some i) :
    step s = exec i s := by
  obtain ⟨hf, -⟩ | ⟨-, hw, -⟩ | ⟨-, -, hb, -⟩ | ⟨-, j, hj, he⟩ | ⟨-, hn, -⟩ := step_cases s
  · exact absurd hs.noFault hf
  · exact absurd hs.wellFormed hw
  · exact absurd hs.fetch hb
  · cases hd.symm.trans hj; exact he
  · cases hd.symm.trans hn

/-- Settles O6: two bytes decode as their big-endian word does, and that word is what the step decodes. -/
theorem stepRunsDecodedInstruction : Obligations.StepRunsDecodedInstruction := by
  intro s i h0 hc hb hdecode
  refine step_of_decodeWord ⟨h0, hc, hb⟩ ?_
  rw [Laws.Decode.decode_cons_cons] at hdecode
  change decodeWord (wordOfBytes _ _) = some i
  split at hdecode
  · next j hj => cases hdecode; exact hj
  · cases hdecode

/-- Settles O51: the self-jump writes to `pc` the value it has. -/
theorem finishedStateIsFixedPoint : Obligations.FinishedStateIsFixedPoint := by
  intro s hfin
  obtain ⟨nnn, hd, hpc⟩ := hfin.selfJump
  calc step s = exec (.jp nnn) s := step_of_decodeWord hfin.ready hd
    _ = .next { s with pc := zextAddr nnn } := rfl
    _ = .next s := by rw [hpc]

/-! ## Which fault -/

/-- From a state with no fault a step that records one has failed to fetch, or runs an instruction that faults. -/
theorem step_fault_cases {s t : State} {f : FaultRecord} (h0 : s.fault = none) (h : step s = .next t)
    (hf : t.fault = some f) :
    (¬ s.fetchInBounds ∧ t = s.enterFault .fetchOutOfBounds 0 (s.pc.toNat + 1)) ∨
    (s.Ready ∧ ∃ i c a, decodeWord s.instrWord = some i ∧ faultOf s i = some (c, a) ∧
      t = s.enterFault c s.instrWord a) := by
  obtain ⟨hn, -⟩ | ⟨-, -, he⟩ | ⟨-, -, hb, he⟩ | ⟨hs, i, hd, he⟩ | ⟨-, -, he⟩ := step_cases s
  · exact absurd h0 hn
  · cases h.symm.trans he
  · exact .inl ⟨hb, Host.Outcome.next.inj (h.symm.trans he)⟩
  · obtain ⟨c, a, hfault, ht⟩ | ⟨-, ht⟩ := exec_next_cases (he.symm.trans h)
    · exact .inr ⟨hs, i, c, a, hd, hfault, ht⟩
    · rw [ht.fault, h0] at hf
      cases hf
  · cases h.symm.trans he
    cases h0.symm.trans hf

/-- Settles O8: both ways to a fault enter it from the old state, at its `pc`; the fetch did not decode, or decoded to an
instruction, so there is no event. -/
theorem faultingStepChangesOnlyFaultRegister : Obligations.FaultingStepChangesOnlyFaultRegister := by
  intro s t f h0 h hf
  obtain ⟨hb, rfl⟩ | ⟨-, i, c, a, hd, -, rfl⟩ := step_fault_cases h0 h hf
  · cases hf
    exact ⟨rfl, rfl, rfl, if_neg fun ⟨_, hfetch, _⟩ => hb hfetch⟩
  · cases hf
    exact ⟨rfl, rfl, rfl, unknownOpcodeEvent_eq_none_of_decodeWord hd⟩

/-- An access of memory: `last` is the offset from `i` of the highest byte the decoded instruction needs (R257). -/
def NeedsByte (s : State) (decoded : Option Instr) (last : Nat) : Prop :=
  (∃ x y n, decoded = some (.drw x y n) ∧
      1 ≤ min n.toNat (s.cfg.displayHeight - (s.reg y).toNat % s.cfg.displayHeight) ∧
      last = min n.toNat (s.cfg.displayHeight - (s.reg y).toNat % s.cfg.displayHeight) - 1) ∨
    (∃ x, decoded = some (.ldBcd x) ∧ last = 2) ∨
    (∃ x, decoded = some (.storeRegs x) ∧ last = x.val) ∨
    (∃ x, decoded = some (.loadRegs x) ∧ last = x.val)

/-- The table of causes, for the decoded instruction (R255, R256, R257). -/
def FaultTable (s : State) (decoded : Option Instr) (c : FaultCause) (a : Nat) : Prop :=
  ((∃ nnn, decoded = some (.call nnn)) ∧ s.cfg.stackSize ≤ s.sp ∧ c = .stackOverflow ∧ a = 0) ∨
  (decoded = some .ret ∧ s.sp = 0 ∧ c = .stackUnderflow ∧ a = 0) ∨
  (∃ last, NeedsByte s decoded last ∧ s.cfg.memorySize ≤ s.i.toNat + last ∧ c = .outOfBounds ∧ a = s.i.toNat + last)

theorem faultTable_of_faultOf {s : State} {i : Instr} {c : FaultCause} {a : Nat} (h : faultOf s i = some (c, a)) :
    FaultTable s (some i) c a := by
  cases i with
  | call nnn =>
    simp only [faultOf, Option.ite_none_right_eq_some, Option.some.injEq, Prod.mk.injEq] at h
    obtain ⟨hfull, rfl, rfl⟩ := h
    exact .inl ⟨⟨nnn, rfl⟩, hfull, rfl, rfl⟩
  | ret =>
    simp only [faultOf, Option.ite_none_right_eq_some, Option.some.injEq, Prod.mk.injEq] at h
    obtain ⟨hempty, rfl, rfl⟩ := h
    exact .inr (.inl ⟨rfl, hempty, rfl, rfl⟩)
  | drw x y n =>
    simp only [faultOf, Option.ite_none_right_eq_some, Option.some.injEq, Prod.mk.injEq] at h
    obtain ⟨⟨hrows, hout⟩, rfl, rfl⟩ := h
    exact .inr (.inr ⟨_, .inl ⟨x, y, n, rfl, hrows, rfl⟩, Nat.le_of_not_lt hout, rfl, rfl⟩)
  | ldBcd x =>
    simp only [faultOf, Option.ite_none_left_eq_some, Option.some.injEq, Prod.mk.injEq] at h
    obtain ⟨hout, rfl, rfl⟩ := h
    exact .inr (.inr ⟨_, .inr (.inl ⟨x, rfl, rfl⟩), Nat.le_of_not_lt hout, rfl, rfl⟩)
  | storeRegs x =>
    simp only [faultOf, Option.ite_none_left_eq_some, Option.some.injEq, Prod.mk.injEq] at h
    obtain ⟨hout, rfl, rfl⟩ := h
    exact .inr (.inr ⟨_, .inr (.inr (.inl ⟨x, rfl, rfl⟩)), Nat.le_of_not_lt hout, rfl, rfl⟩)
  | loadRegs x =>
    simp only [faultOf, Option.ite_none_left_eq_some, Option.some.injEq, Prod.mk.injEq] at h
    obtain ⟨hout, rfl, rfl⟩ := h
    exact .inr (.inr ⟨_, .inr (.inr (.inr ⟨x, rfl, rfl⟩)), Nat.le_of_not_lt hout, rfl, rfl⟩)
  | _ => cases h

theorem faultOf_of_faultTable {s : State} {d : Option Instr} {c : FaultCause} {a : Nat} (h : FaultTable s d c a) :
    ∃ i, d = some i ∧ faultOf s i = some (c, a) := by
  obtain ⟨⟨nnn, rfl⟩, hfull, rfl, rfl⟩ | ⟨rfl, hempty, rfl, rfl⟩ | ⟨last, hneeds, hout, rfl, rfl⟩ := h
  · exact ⟨_, rfl, if_pos hfull⟩
  · exact ⟨_, rfl, if_pos hempty⟩
  · have hnot : ¬ s.inMemory (s.ea last) := Nat.not_lt_of_le hout
    obtain ⟨x, y, n, rfl, hrows, rfl⟩ | ⟨x, rfl, rfl⟩ | ⟨x, rfl, rfl⟩ | ⟨x, rfl, rfl⟩ := hneeds
    · exact ⟨_, rfl, if_pos ⟨hrows, hnot⟩⟩
    · exact ⟨_, rfl, if_neg hnot⟩
    · exact ⟨_, rfl, if_neg hnot⟩
    · exact ⟨_, rfl, if_neg hnot⟩

theorem faultTable_cause_ne_fetch {s : State} {d : Option Instr} {c : FaultCause} {a : Nat} (h : FaultTable s d c a) :
    c ≠ .fetchOutOfBounds := by
  obtain ⟨-, -, rfl, -⟩ | ⟨-, -, rfl, -⟩ | ⟨_, -, -, rfl, -⟩ := h <;> decide

theorem not_fetchInBounds_iff {s : State} (hc : s.cfg.WellFormed) : ¬ s.fetchInBounds ↔ s.pc.toNat > s.cfg.memorySize - 2 := by
  obtain ⟨hsize, -⟩ := wellFormed_bounds hc
  simp only [State.fetchInBounds, State.inMemory]
  omega

/-- Settles O7: the fetch check comes first, and no instruction records its cause. -/
theorem fetchFaultsExactlyPastMemorySizeMinusTwo : Obligations.FetchFaultsExactlyPastMemorySizeMinusTwo := by
  intro s h0 hc
  rw [← not_fetchInBounds_iff hc]
  refine ⟨⟨fun hb => ⟨_, _, step_of_fetchOutOfBounds h0 hc hb, rfl, rfl⟩, ?only⟩, fun hb =>
    ⟨_, _, step_of_fetchOutOfBounds h0 hc hb, rfl, rfl, rfl, rfl, ?addr⟩⟩
  case only =>
    rintro ⟨t, f, h, hf, hcause⟩
    obtain ⟨hb, -⟩ | ⟨-, i, c, a, -, hfault, rfl⟩ := step_fault_cases h0 h hf
    · exact hb
    · cases hf
      exact absurd hcause (faultTable_cause_ne_fetch (faultTable_of_faultOf hfault))
  case addr =>
    have hpc := s.pc.isLt
    exact faultAddr_toNat (by omega)

theorem step_records_iff {s : State} (h0 : s.fault = none) (hc : s.cfg.WellFormed) (f : FaultRecord) :
    (∃ t, step s = .next t ∧ t.fault = some f) ↔
      (¬ s.fetchInBounds ∧ f = ⟨.fetchOutOfBounds, s.pc, 0, BitVec.ofNat 17 (s.pc.toNat + 1)⟩) ∨
      (s.fetchInBounds ∧ ∃ c a, FaultTable s (decodeWord s.instrWord) c a ∧
        f = ⟨c, s.pc, s.instrWord, BitVec.ofNat 17 a⟩) := by
  constructor
  · rintro ⟨t, h, hf⟩
    obtain ⟨hb, rfl⟩ | ⟨hs, i, c, a, hd, hfault, rfl⟩ := step_fault_cases h0 h hf
    · exact .inl ⟨hb, (Option.some.inj hf).symm⟩
    · exact .inr ⟨hs.fetch, c, a, hd ▸ faultTable_of_faultOf hfault, (Option.some.inj hf).symm⟩
  · rintro (⟨hb, rfl⟩ | ⟨hb, c, a, htable, rfl⟩)
    · exact ⟨_, step_of_fetchOutOfBounds h0 hc hb, rfl⟩
    · obtain ⟨i, hd, hfault⟩ := faultOf_of_faultTable htable
      exact ⟨_, (step_of_decodeWord ⟨h0, hc, hb⟩ hd).trans (exec_of_fault hfault), rfl⟩

/-- Settles O9: the record of a fault is its row of the table, with `pc0` and the word at it. -/
theorem faultRecordsFollowCauseTable : Obligations.FaultRecordsFollowCauseTable := by
  refine ⟨rfl, rfl, rfl, rfl, fun s f h0 hc => (step_records_iff h0 hc f).trans (or_congr_right ?_)⟩
  constructor
  · rintro ⟨hb, c, a, ⟨hcall, hfull, rfl, rfl⟩ | ⟨hret, hempty, rfl, rfl⟩ | ⟨last, hneeds, hout, rfl, rfl⟩, hf⟩
    · exact .inl ⟨hb, hcall, hfull, hf⟩
    · exact .inr (.inl ⟨hb, hret, hempty, hf⟩)
    · exact .inr (.inr ⟨hb, last, hneeds, hout, hf⟩)
  · rintro (⟨hb, hcall, hfull, hf⟩ | ⟨hb, hret, hempty, hf⟩ | ⟨hb, last, hneeds, hout, hf⟩)
    · exact ⟨hb, _, _, .inl ⟨hcall, hfull, rfl, rfl⟩, hf⟩
    · exact ⟨hb, _, _, .inr (.inl ⟨hret, hempty, rfl, rfl⟩), hf⟩
    · exact ⟨hb, _, _, .inr (.inr ⟨last, hneeds, hout, rfl, rfl⟩), hf⟩

end Sys2Proof.Proofs
end

section
/-! SUPPORT. Who writes what (spec/10_state.md sections 2 to 6), how each step moves `pc`, which step does not complete, the halted core,
and that nothing reads the sound timer. -/

namespace Sys2Proof.Proofs
open Sys2Proof Sys2Proof.Machine Sys2Proof.Laws

/-! ## The writers of each piece of state -/

section Writers
variable {s : State} {ins : Instr}

theorem delayTimer_writer (h : delayTimerAfter s ins ≠ s.delayTimer) : ∃ x, ins = .ldDt x := by
  cases ins with
  | ldDt x => exact ⟨x, rfl⟩
  | _ => exact absurd rfl h

theorem soundTimer_writer (h : soundTimerAfter s ins ≠ s.soundTimer) : ∃ x, ins = .ldSt x := by
  cases ins with
  | ldSt x => exact ⟨x, rfl⟩
  | _ => exact absurd rfl h

theorem stack_writer (h : stackAfter s ins ≠ s.stack) : ∃ nnn, ins = .call nnn := by
  cases ins with
  | call nnn => exact ⟨nnn, rfl⟩
  | _ => exact absurd rfl h

theorem sp_writer (h : spAfter s ins ≠ s.sp) : ins = .ret ∨ ∃ nnn, ins = .call nnn := by
  cases ins with
  | ret => exact .inl rfl
  | call nnn => exact .inr ⟨nnn, rfl⟩
  | _ => exact absurd rfl h

theorem display_writer (h : displayAfter s ins ≠ s.display) : ins = .cls ∨ ∃ x y n, ins = .drw x y n := by
  cases ins with
  | cls => exact .inl rfl
  | drw x y n => exact .inr ⟨x, y, n, rfl⟩
  | _ => exact absurd rfl h

theorem memory_writer (h : memoryAfter s ins ≠ s.memory) : ∃ x, ins = .ldBcd x ∨ ins = .storeRegs x := by
  cases ins with
  | ldBcd x => exact ⟨x, .inl rfl⟩
  | storeRegs x => exact ⟨x, .inr rfl⟩
  | _ => exact absurd rfl h

theorem index_writer (h : indexAfter s ins ≠ s.i) :
    (∃ nnn, ins = .ldI nnn) ∨ ∃ x, ins = .addI x ∨ ins = .ldFont x ∨ ins = .storeRegs x ∨ ins = .loadRegs x := by
  cases ins with
  | ldI nnn => exact .inl ⟨nnn, rfl⟩
  | addI x => exact .inr ⟨x, .inl rfl⟩
  | ldFont x => exact .inr ⟨x, .inr (.inl rfl)⟩
  | storeRegs x => exact .inr ⟨x, .inr (.inr (.inl rfl))⟩
  | loadRegs x => exact .inr ⟨x, .inr (.inr (.inr rfl))⟩
  | _ => exact absurd rfl h

theorem fault_writer (h : faultOf s ins ≠ none) :
    ins = .ret ∨ (∃ nnn, ins = .call nnn) ∨ (∃ x y n, ins = .drw x y n) ∨ ∃ x, ins = .ldBcd x ∨ ins = .storeRegs x ∨ ins = .loadRegs x := by
  cases ins with
  | ret => exact .inl rfl
  | call nnn => exact .inr (.inl ⟨nnn, rfl⟩)
  | drw x y n => exact .inr (.inr (.inl ⟨x, y, n, rfl⟩))
  | ldBcd x => exact .inr (.inr (.inr ⟨x, .inl rfl⟩))
  | storeRegs x => exact .inr (.inr (.inr ⟨x, .inr (.inl rfl)⟩))
  | loadRegs x => exact .inr (.inr (.inr ⟨x, .inr (.inr rfl)⟩))
  | _ => exact absurd rfl h

/-- The instructions that may write VF, as a flag or as their destination (R22). -/
theorem VF_writer (h : VF ∈ writtenRegs s ins) :
    (∃ x y, ins = .addReg x y ∨ ins = .subReg x y ∨ ins = .subn x y ∨ ins = .shr x y ∨ ins = .shl x y) ∨
    (∃ x y n, ins = .drw x y n) ∨
    (∃ x, ins = .addI x ∧ s.cfg.quirks.fx1eOverflow = true) ∨
    (∃ nn, ins = .ldImm 15 nn ∨ ins = .addImm 15 nn ∨ ins = .rnd 15 nn) ∨
    (∃ y, ins = .ldReg 15 y ∨ ins = .orReg 15 y ∨ ins = .andReg 15 y ∨ ins = .xorReg 15 y) ∨
    ins = .ldFromDt 15 ∨ ins = .ldKey 15 ∨ ins = .loadRegs 15 := by
  cases ins with
  | addReg x y => exact .inl ⟨x, y, .inl rfl⟩
  | subReg x y => exact .inl ⟨x, y, .inr (.inl rfl)⟩
  | subn x y => exact .inl ⟨x, y, .inr (.inr (.inl rfl))⟩
  | shr x y => exact .inl ⟨x, y, .inr (.inr (.inr (.inl rfl)))⟩
  | shl x y => exact .inl ⟨x, y, .inr (.inr (.inr (.inr rfl)))⟩
  | drw x y n => exact .inr (.inl ⟨x, y, n, rfl⟩)
  | addI x =>
    refine .inr (.inr (.inl ⟨x, rfl, ?_⟩))
    have hmem : VF ∈ (if s.cfg.quirks.fx1eOverflow then [VF] else []) := h
    split at hmem
    · assumption
    · cases hmem
  | ldImm x nn | addImm x nn | rnd x nn =>
    cases List.mem_singleton.1 h
    exact .inr (.inr (.inr (.inl ⟨nn, by simp⟩)))
  | ldReg x y | orReg x y | andReg x y | xorReg x y =>
    cases List.mem_singleton.1 h
    exact .inr (.inr (.inr (.inr (.inl ⟨y, by simp⟩))))
  | ldFromDt x | ldKey x =>
    cases List.mem_singleton.1 h
    exact .inr (.inr (.inr (.inr (.inr (by simp)))))
  | loadRegs x =>
    have hx : x = 15 := Fin.last_le_iff.1 ((mem_regsUpTo x VF).1 h)
    exact .inr (.inr (.inr (.inr (.inr (.inr (.inr (congrArg _ hx)))))))
  | _ => cases h

end Writers

/-- Settles O44: a fault changes the fault register alone, and a completing instruction leaves each piece of state as its own
function of the instruction says. -/
theorem eachStateHasOnlyItsNamedWriters : Obligations.EachStateHasOnlyItsNamedWriters := by
  intro s t ins h
  obtain ⟨c, a, hf, rfl⟩ | ⟨-, ht⟩ := exec_next_cases h
  · have same {α : Type} {p : Prop} {b : α} (hne : b ≠ b) : p := absurd rfl hne
    exact ⟨rfl, rfl, same, same, same, same, same, same, same, fun _ => fault_writer (hf ▸ Option.some_ne_none (c, a))⟩
  · exact ⟨ht.cfg, ht.key, ht.delayTimer ▸ delayTimer_writer, ht.soundTimer ▸ soundTimer_writer, ht.stack ▸ stack_writer,
      ht.sp ▸ sp_writer, ht.display ▸ display_writer, ht.memory ▸ memory_writer, ht.i ▸ index_writer,
      fun hne => absurd ht.fault hne⟩

/-- Settles O45: VF changes only where it is among the written registers. -/
theorem onlyFlagWritersOrNamedDestinationChangeVF : Obligations.OnlyFlagWritersOrNamedDestinationChangeVF := by
  intro s t ins h hne
  obtain ⟨c, a, -, rfl⟩ | ⟨-, ht⟩ := exec_next_cases h
  · exact absurd rfl hne
  · exact VF_writer (not_not.1 fun hmem => hne (ht.reg VF hmem))

/-! ## `pc` -/

/-- Settles O46: a step that faults keeps `pc`; an instruction that completes leaves `pcAfter`, an unknown opcode the advance. -/
theorem stepMovesPcAsTable : Obligations.StepMovesPcAsTable := by
  intro s t h0 h
  refine ⟨fun hne => ?faults, fun hnone => ?completes⟩
  case faults =>
    obtain ⟨f, hf⟩ := Option.ne_none_iff_exists'.1 hne
    obtain ⟨-, rfl⟩ | ⟨-, i, c, a, -, -, rfl⟩ := step_fault_cases h0 h hf <;> rfl
  case completes =>
    obtain ⟨hn, -⟩ | ⟨-, -, he⟩ | ⟨-, -, -, he⟩ | ⟨-, i, hd, he⟩ | ⟨-, hd, he⟩ := step_cases s
    · exact absurd h0 hn
    · cases h.symm.trans he
    · cases h.symm.trans he
      cases hnone
    · obtain ⟨c, a, -, rfl⟩ | ⟨-, ht⟩ := exec_next_cases (he.symm.trans h)
      · cases hnone
      · rw [hd, ht.pc]
        cases i <;> rfl
    · cases h.symm.trans he
      rw [hd]
      rfl

/-! ## Completion -/

/-- The step that waits is the one that has no next state. -/
theorem step_next_or_waits {s : State} (hc : s.cfg.WellFormed) : (∃ t, step s = .next t) ∨
    (step s = .fault .stuckAwaitingKey ∧ s.Ready ∧ ∃ i, decodeWord s.instrWord = some i ∧ Waits s i) := by
  obtain ⟨-, he⟩ | ⟨-, hw, -⟩ | ⟨-, -, -, he⟩ | ⟨hs, i, hd, he⟩ | ⟨-, -, he⟩ := step_cases s
  · exact .inl ⟨_, he⟩
  · exact absurd hc hw
  · exact .inl ⟨_, he⟩
  · obtain ⟨c, a, -, hx⟩ | ⟨-, hw, hx⟩ | ⟨-, t, hx, -⟩ := exec_cases i s
    · exact .inl ⟨_, he.trans hx⟩
    · exact .inr ⟨he.trans hx, hs, i, hd, hw⟩
    · exact .inl ⟨t, he.trans hx⟩
  · exact .inl ⟨_, he⟩

/-- Settles O47: only the wait has no next state, and with an answer scheduled nothing waits. -/
theorem onlyUnansweredKeyWaitDoesNotComplete : Obligations.OnlyUnansweredKeyWaitDoesNotComplete := by
  refine ⟨fun s => step_of_illFormed, fun s hc => ⟨(step_next_or_waits hc).imp_right And.left,
    ⟨fun h => ?stuck, ?waits⟩, fun k => ?answered⟩⟩
  case stuck =>
    obtain ⟨t, ht⟩ | ⟨-, hs, i, hd, hm, hw, x, rfl⟩ := step_next_or_waits hc
    · cases h.symm.trans ht
    · exact ⟨hs, hm, hw, x, hd⟩
  case waits =>
    rintro ⟨hs, hm, hw, x, hd⟩
    exact (step_of_decodeWord hs hd).trans (execLdKey_stuck hm hw x)
  case answered =>
    refine (step_next_or_waits (s := s.answerWait k) hc).resolve_right ?_
    rintro ⟨-, -, i, -, -, hw, -⟩
    exact List.append_ne_nil_of_right_ne_nil _ (List.cons_ne_nil k []) hw

/-! ## The halted core -/

/-- Settles O10: a halted core steps to itself; the other host operations do not touch the fault register; Reset clears all. -/
theorem haltedCoreStaysHaltedUntilReset : Obligations.HaltedCoreStaysHaltedUntilReset := by
  intro s f hf
  have hstep : step s = .next s := step_of_fault (hf ▸ Option.some_ne_none f)
  refine ⟨hstep, fun op hop => ?_, fun c hc => ⟨s.hostReset c, hostStep_reset hc s, rfl, rfl⟩⟩
  cases op with
  | reset c => exact absurd rfl (hop c)
  | step => exact ⟨s, hstep, hf⟩
  | hostWrite a b => exact ⟨_, rfl, (hostWrite_fault s a b).trans hf⟩
  | pushKey | timerTick | answerRnd | answerPoll | answerWait => exact ⟨_, rfl, hf⟩

end Sys2Proof.Proofs
end

section
/-! SUPPORT. Nothing reads the sound timer (spec/10_state.md R30): writing it commutes with every update and with every instruction but
FX18, which overwrites it. -/

namespace Sys2Proof.Proofs
open Sys2Proof Sys2Proof.Machine Sys2Proof.Laws

/-! ## A write of the sound timer commutes with the updates that branch (the others commute by computation) -/

section
variable (s : State) (b : Byte)

theorem skipIf_setSoundTimer (c : Bool) : (s.setSoundTimer b).skipIf c = (s.skipIf c).setSoundTimer b :=
  ite_eq_apply_ite (f := (State.setSoundTimer · b)) rfl rfl

theorem bumpIndex_setSoundTimer (x : Reg) : (s.setSoundTimer b).bumpIndex x = (s.bumpIndex x).setSoundTimer b :=
  ite_eq_apply_ite (f := (State.setSoundTimer · b)) rfl rfl

theorem loadShiftOperand_setSoundTimer (x y : Reg) :
    (s.setSoundTimer b).loadShiftOperand x y = (s.loadShiftOperand x y).setSoundTimer b :=
  ite_eq_apply_ite (f := (State.setSoundTimer · b)) rfl rfl

theorem setRegs_setSoundTimer (g : Reg → Byte) (rs : List Reg) :
    (s.setSoundTimer b).setRegs g rs = (s.setRegs g rs).setSoundTimer b := by
  induction rs generalizing s with
  | nil => rfl
  | cons r rs ih => exact ih (s.setReg r (g r))

theorem drawRnd_setSoundTimer : (s.setSoundTimer b).drawRnd = (s.drawRnd.1, s.drawRnd.2.setSoundTimer b) := by
  unfold State.drawRnd
  rw [setSoundTimer_answers]
  split <;> rfl

theorem consultKey_setSoundTimer : (s.setSoundTimer b).consultKey = (s.consultKey.1, s.consultKey.2.setSoundTimer b) := by
  unfold State.consultKey State.pollKey
  rw [setSoundTimer_cfg, setSoundTimer_answers]
  cases s.cfg.keyMode with
  | useGivenKey => rfl
  | getKey => cases s.answers.poll <;> rfl

/-- A skip on a test of the consulted key, whatever the test. -/
theorem skipIf_consultKey_setSoundTimer (test : Key → Bool) :
    (s.setSoundTimer b).advance.consultKey.2.skipIf (test (s.setSoundTimer b).advance.consultKey.1) =
      (s.advance.consultKey.2.skipIf (test s.advance.consultKey.1)).setSoundTimer b := by
  have hconsult : (s.setSoundTimer b).advance.consultKey =
      (s.advance.consultKey.1, s.advance.consultKey.2.setSoundTimer b) := consultKey_setSoundTimer s.advance b
  rw [hconsult, skipIf_setSoundTimer]

theorem execLdKey_setSoundTimer (x : Reg) :
    execLdKey x (s.setSoundTimer b) = mapNext (State.setSoundTimer · b) (execLdKey x s) := by
  unfold execLdKey State.awaitKey
  rw [setSoundTimer_cfg, advance_answers, advance_answers, setSoundTimer_answers]
  cases s.cfg.keyMode with
  | useGivenKey => rfl
  | getKey => cases s.answers.wait <;> rfl

/-! ## Every instruction and the step -/

/-- An instruction other than FX18 neither reads the sound timer nor writes it. -/
theorem exec_setSoundTimer {ins : Instr} (hne : ∀ x, ins ≠ .ldSt x) :
    exec ins (s.setSoundTimer b) = mapNext (State.setSoundTimer · b) (exec ins s) := by
  cases ins with
  | ldSt x => exact absurd rfl (hne x)
  | skp x => exact congrArg Host.Outcome.next (skipIf_consultKey_setSoundTimer s b (· == some (s.reg x)))
  | sknp x => exact congrArg Host.Outcome.next (skipIf_consultKey_setSoundTimer s b (· != some (s.reg x)))
  | ldKey x => exact execLdKey_setSoundTimer s b x
  | seImm | sneImm | seReg | sneReg => exact congrArg Host.Outcome.next (skipIf_setSoundTimer s.advance b _)
  | shr x y | shl x y =>
    have hload : (s.setSoundTimer b).advance.loadShiftOperand x y = (s.advance.loadShiftOperand x y).setSoundTimer b :=
      loadShiftOperand_setSoundTimer s.advance b x y
    simp only [exec, execShr, execShl, hload]
    rfl
  | rnd x nn =>
    have hdraw : (s.setSoundTimer b).advance.drawRnd = (s.advance.drawRnd.1, s.advance.drawRnd.2.setSoundTimer b) :=
      drawRnd_setSoundTimer s.advance b
    simp only [exec, execRnd, hdraw]
    rfl
  | addI => exact congrArg Host.Outcome.next (ite_eq_apply_ite (f := (State.setSoundTimer · b)) rfl rfl)
  | ret | call | drw | ldBcd => exact ite_eq_apply_ite rfl rfl
  | storeRegs x =>
    exact ite_eq_apply_ite (congrArg Host.Outcome.next (bumpIndex_setSoundTimer (s.advance.setMemory _) b x)) rfl
  | loadRegs x =>
    refine ite_eq_apply_ite (congrArg Host.Outcome.next ?_) rfl
    exact (congrArg (·.bumpIndex x) (setRegs_setSoundTimer s.advance b _ _)).trans (bumpIndex_setSoundTimer _ b x)
  | sys | cls | jp | ldImm | addImm | ldReg | orReg | andReg | xorReg | addReg | subReg | subn | ldI | jpV0 | ldFromDt | ldDt
  | ldFont => rfl

/-- A step carries a written sound timer along, or is FX18, which overwrites it. -/
theorem step_setSoundTimer :
    step (s.setSoundTimer b) = mapNext (State.setSoundTimer · b) (step s) ∨ step (s.setSoundTimer b) = step s := by
  obtain ⟨hf, he⟩ | ⟨h0, hc, he⟩ | ⟨h0, hc, hb, he⟩ | ⟨hs, i, hd, he⟩ | ⟨hs, hd, he⟩ := step_cases s
  · exact .inl (by rw [he]; exact step_of_fault (s := s.setSoundTimer b) hf)
  · exact .inl (by rw [he]; exact step_of_illFormed (s := s.setSoundTimer b) h0 hc)
  · exact .inl (by rw [he]; exact step_of_fetchOutOfBounds (s := s.setSoundTimer b) h0 hc hb)
  · have hrun : step (s.setSoundTimer b) = exec i (s.setSoundTimer b) :=
      step_of_decodeWord (s := s.setSoundTimer b) ⟨hs.noFault, hs.wellFormed, hs.fetch⟩ hd
    rw [hrun, he]
    by_cases hldSt : ∃ x, i = .ldSt x
    · obtain ⟨x, rfl⟩ := hldSt
      exact .inr rfl
    · exact .inl (exec_setSoundTimer s b fun x hx => hldSt ⟨x, hx⟩)
  · exact .inl (by rw [he]; exact step_unknown (s := s.setSoundTimer b) ⟨hs.noFault, hs.wellFormed, hs.fetch⟩ hd)

end

/-- Settles O48: whichever of the two a step does with the sound timer, the rest of its outcome is the same. -/
theorem soundTimerNeverInfluencesExecution : Obligations.SoundTimerNeverInfluencesExecution := by
  intro s b
  obtain hcarried | hoverwritten := step_setSoundTimer s b
  · refine ⟨fun t ht => ⟨t.setSoundTimer b, ?_, rfl, .inl rfl⟩, fun f hf => ?_, fun r hr => ?_⟩
    · exact hcarried.trans (congrArg _ ht)
    · exact hcarried.trans (congrArg _ hf)
    · exact hcarried.trans (congrArg _ hr)
  · exact ⟨fun t ht => ⟨t, hoverwritten.trans ht, rfl, .inr rfl⟩, fun f hf => hoverwritten.trans hf,
      fun r hr => hoverwritten.trans hr⟩

end Sys2Proof.Proofs
end

section
/-! SUPPORT. Draw (spec/45_draw.md R181, R182): a sprite as an exclusive-or of pixels, and drawing it twice. -/

namespace Sys2Proof.Proofs
open Sys2Proof Sys2Proof.Machine Sys2Proof.Laws

/-! ## The clipped rectangle -/

/-- The clipped rectangle of the sprite DXYN draws, in columns and rows of the display (R181). -/
abbrev InRect (s : State) (x y : Reg) (n : Nibble) (px py : Nat) : Prop :=
  s.spriteColumn x ≤ px ∧ px < s.spriteColumn x + s.spriteCols x ∧
    s.spriteRow y ≤ py ∧ py < s.spriteRow y + s.spriteRows y n

/-- The sprite bit over a cell of the rectangle: the most significant bit is leftmost (R181). -/
def spriteBit (s : State) (x y : Reg) (px py : Nat) : Bool :=
  (Memory.read s.memory (s.ea (py - s.spriteRow y))).getLsbD (7 - (px - s.spriteColumn x))

/-- The rectangle is clipped to the display. -/
theorem inRect_inside {s : State} {x y : Reg} {n : Nibble} {px py : Nat} (h : InRect s x y n px py) :
    px < s.cfg.displayWidth ∧ py < s.cfg.displayHeight := by
  obtain ⟨hx, hx', hy, hy'⟩ := h
  unfold State.spriteCols at hx'
  unfold State.spriteRows at hy'
  omega

/-- A cell of the rectangle, by its column and row inside it. -/
theorem inRect_add_iff (s : State) (x y : Reg) (n : Nibble) (c r : Nat) :
    InRect s x y n (s.spriteColumn x + c) (s.spriteRow y + r) ↔ c < s.spriteCols x ∧ r < s.spriteRows y n := by
  unfold InRect
  omega

theorem spriteBit_add (s : State) (x y : Reg) (c r : Nat) :
    spriteBit s x y (s.spriteColumn x + c) (s.spriteRow y + r) = (Memory.read s.memory (s.i.toNat + r)).getLsbD (7 - c) := by
  rw [spriteBit, Nat.add_sub_cancel_left, Nat.add_sub_cancel_left, State.ea]

/-- Where the display has a column, the rectangle does not pass its width. -/
theorem spriteColumn_add_spriteCols_le {s : State} {x : Reg} (hw : 0 < s.cfg.displayWidth) :
    s.spriteColumn x + s.spriteCols x ≤ s.cfg.displayWidth := by
  have hlt : s.spriteColumn x < s.cfg.displayWidth := Nat.mod_lt _ hw
  unfold State.spriteCols
  omega

theorem pixel_eq (s : State) (px py : Nat) : s.pixel px py = (decide (px < s.cfg.displayWidth) &&
    decide (py < s.cfg.displayHeight) && Display.lit s.display (cellNumber s.cfg.displayWidth px py)) := rfl

theorem pixel_of_outside {s : State} {px py : Nat} (h : ¬ (px < s.cfg.displayWidth ∧ py < s.cfg.displayHeight)) :
    s.pixel px py = false := by
  rw [pixel_eq, ← Bool.decide_and, decide_eq_false h, Bool.false_and]

theorem pixel_of_inside {s : State} {px py : Nat} (h : px < s.cfg.displayWidth ∧ py < s.cfg.displayHeight) :
    s.pixel px py = Display.lit s.display (cellNumber s.cfg.displayWidth px py) := by
  rw [pixel_eq, ← Bool.decide_and, decide_eq_true h, Bool.true_and]

/-! ## One draw -/

/-- What DXYN leaves of each pixel: those of the rectangle are exclusive-ored with their sprite bits (R182). -/
theorem pixel_drawn {s t : State} {x y : Reg} {n : Nibble} (ht : Completes (.drw x y n) s t) (px py : Nat) :
    t.pixel px py = (s.pixel px py ^^ (decide (InRect s x y n px py) && spriteBit s x y px py)) := by
  by_cases hin : px < s.cfg.displayWidth ∧ py < s.cfg.displayHeight
  · have hin' : px < t.cfg.displayWidth ∧ py < t.cfg.displayHeight := ht.cfg.symm ▸ hin
    rw [pixel_of_inside hin, pixel_of_inside hin', ht.cfg, ht.display]
    exact Laws.Display.lit_drawSprite s _ _ _ _ _ (spriteColumn_add_spriteCols_le (by omega)) px py hin.1
  · have hin' : ¬ (px < t.cfg.displayWidth ∧ py < t.cfg.displayHeight) := ht.cfg.symm ▸ hin
    rw [pixel_of_outside hin, pixel_of_outside hin', decide_eq_false (mt inRect_inside hin)]
    rfl

theorem pixel_drawn_inside {s t : State} {x y : Reg} {n : Nibble} (ht : Completes (.drw x y n) s t) {r c : Nat}
    (hr : r < s.spriteRows y n) (hc : c < s.spriteCols x) : t.pixel (s.spriteColumn x + c) (s.spriteRow y + r) =
      (s.pixel (s.spriteColumn x + c) (s.spriteRow y + r) ^^ (Memory.read s.memory (s.i.toNat + r)).getLsbD (7 - c)) := by
  rw [pixel_drawn ht, decide_eq_true ((inRect_add_iff s x y n c r).2 ⟨hc, hr⟩), Bool.true_and, spriteBit_add]

theorem pixel_drawn_outside {s t : State} {x y : Reg} {n : Nibble} (ht : Completes (.drw x y n) s t) {px py : Nat}
    (h : ¬ InRect s x y n px py) : t.pixel px py = s.pixel px py := by
  rw [pixel_drawn ht, decide_eq_false h, Bool.false_and, Bool.xor_false]

/-- Without columns nothing is drawn. -/
theorem drawSprite_zero_cols (s : State) (xs ys rows : Nat) (c : Canvas) : s.drawSprite xs ys rows 0 c = c := by
  induction rows with
  | zero => rfl
  | succ rows ih => rw [Laws.Display.drawSprite_succ, ih]; rfl

/-- A collision: a sprite bit that is 1 over a pixel that is lit. -/
def Collides (s : State) (x y : Reg) (n : Nibble) : Prop :=
  ∃ r c, r < s.spriteRows y n ∧ c < s.spriteCols x ∧ (Memory.read s.memory (s.i.toNat + r)).getLsbD (7 - c) = true ∧
    s.pixel (s.spriteColumn x + c) (s.spriteRow y + r) = true

/-- The flag of a draw is set exactly on a collision (R182). -/
theorem spriteCanvas_hit_iff (s : State) (x y : Reg) (n : Nibble) : (spriteCanvas s x y n).hit = true ↔ Collides s x y n := by
  by_cases hw : 0 < s.cfg.displayWidth
  · refine (Laws.Display.hit_drawSprite s _ _ _ _ _ (spriteColumn_add_spriteCols_le hw) rfl).trans ?_
    refine exists_congr fun r => exists_congr fun c => and_congr_right fun hr => and_congr_right fun hc => ?_
    rw [pixel_of_inside (inRect_inside ((inRect_add_iff s x y n c r).2 ⟨hc, hr⟩))]
    rfl
  · have hcols : s.spriteCols x = 0 := by unfold State.spriteCols; omega
    rw [spriteCanvas, hcols, drawSprite_zero_cols]
    refine ⟨fun h => (Bool.false_ne_true h).elim, fun ⟨r, c, _, hc, _⟩ => ?_⟩
    omega

/-- DXYN with its last drawn row in memory, or with no row to draw. -/
theorem faultOf_drw_of_inMemory {s : State} {y : Reg} {n : Nibble}
    (h : s.spriteRows y n = 0 ∨ s.i.toNat + s.spriteRows y n - 1 < s.cfg.memorySize) (x : Reg) :
    faultOf s (.drw x y n) = none := by
  refine faultOf_drw_eq_none.2 fun ⟨hrows, hout⟩ => hout ?_
  show s.i.toNat + (s.spriteRows y n - 1) < s.cfg.memorySize
  omega

theorem faultOf_drw_of_outside {s : State} {y : Reg} {n : Nibble} (hrows : s.spriteRows y n ≠ 0)
    (h : s.cfg.memorySize ≤ s.i.toNat + s.spriteRows y n - 1) (x : Reg) :
    faultOf s (.drw x y n) = some (.outOfBounds, s.i.toNat + s.spriteRows y n - 1) := by
  have hlast : s.ea (s.spriteRows y n - 1) = s.i.toNat + s.spriteRows y n - 1 := by unfold State.ea; omega
  have hout : 1 ≤ s.spriteRows y n ∧ ¬ s.inMemory (s.ea (s.spriteRows y n - 1)) :=
    ⟨by omega, by rw [hlast]; exact Nat.not_lt_of_le h⟩
  exact hlast ▸ if_pos hout

theorem drawn_reg (s : State) (x y : Reg) (n : Nibble) (r : Reg) :
    (drawn s x y n).reg r = if VF = r then flagByte (spriteCanvas s x y n).hit else s.reg r :=
  setFlag_reg _ _ r

theorem drawn_reg_VF (s : State) (x y : Reg) (n : Nibble) :
    (drawn s x y n).reg VF = flagByte (spriteCanvas s x y n).hit := by
  rw [drawn_reg, if_pos rfl]

theorem flagByte_eq_one_iff (c : Bool) : flagByte c = 1 ↔ c = true := by
  cases c <;> decide

/-- Settles O31: the draw exclusive-ors its rectangle, sets VF on a collision and changes nothing else; or it faults. -/
theorem drwXorsClippedSprite : Obligations.DrwXorsClippedSprite := by
  refine ⟨fun w hw => ?decodes, ?effect⟩
  case decodes =>
    have hF : fieldF w = 0xD := (and_F000_eq_iff w 0xD).1 hw
    rw [decodeWord, hF]
    rfl
  case effect =>
    rintro s x y n _ _ _ _ rfl rfl rfl rfl
    refine ⟨fun hin => ?completes, fun hrows hout => exec_of_fault (faultOf_drw_of_outside hrows hout x)⟩
    have hf : faultOf s (.drw x y n) = none := faultOf_drw_of_inMemory hin x
    have ht : Completes (.drw x y n) s (drawn s x y n) := completes_of_exec hf (exec_drw hf)
    refine ⟨_, exec_drw hf, ht.pc, fun r c => pixel_drawn_inside ht, fun px py => pixel_drawn_outside ht, fun hit => ?lit,
      fun hno => ?unlit, ht.agree⟩
    case lit =>
      have hhit := (spriteCanvas_hit_iff s x y n).2 hit
      rw [drawn_reg_VF, hhit]; rfl
    case unlit =>
      have hhit := mt (spriteCanvas_hit_iff s x y n).1 hno
      rw [drawn_reg_VF, Bool.eq_false_iff.2 hhit]; rfl

/-! ## Two draws -/

/-- The second draw at the same place has the first one's rectangle and sprite. -/
structure SamePlace (s t : State) (x y : Reg) : Prop where
  cfg : t.cfg = s.cfg
  i : t.i = s.i
  memory : t.memory = s.memory
  column : t.spriteColumn x = s.spriteColumn x
  row : t.spriteRow y = s.spriteRow y

namespace SamePlace
variable {s t : State} {x y : Reg} (h : SamePlace s t x y)
include h

theorem rows (n : Nibble) : t.spriteRows y n = s.spriteRows y n := by
  rw [State.spriteRows, State.spriteRows, h.cfg, h.row]

theorem cols : t.spriteCols x = s.spriteCols x := by
  rw [State.spriteCols, State.spriteCols, h.cfg, h.column]

theorem inRect_iff (n : Nibble) (px py : Nat) : InRect t x y n px py ↔ InRect s x y n px py := by
  rw [InRect, InRect, h.rows, h.cols, h.column, h.row]

theorem spriteBit_eq (px py : Nat) : spriteBit t x y px py = spriteBit s x y px py := by
  rw [spriteBit, spriteBit, h.memory, h.row, h.column, State.ea, State.ea, h.i]

end SamePlace

/-- The place is the same when the first draw has not written a coordinate register, or has written the same coordinate. -/
theorem samePlace_drawn {s : State} {x y : Reg} {n : Nibble} (hf : faultOf s (.drw x y n) = none)
    (h : (x ≠ 15 ∧ y ≠ 15) ∨
      ((drawn s x y n).spriteColumn x = s.spriteColumn x ∧ (drawn s x y n).spriteRow y = s.spriteRow y)) :
    SamePlace s (drawn s x y n) x y := by
  have ht : Completes (.drw x y n) s (drawn s x y n) := completes_of_exec hf (exec_drw hf)
  have hplace : (drawn s x y n).spriteColumn x = s.spriteColumn x ∧ (drawn s x y n).spriteRow y = s.spriteRow y := by
    obtain ⟨hx, hy⟩ | hplace := h
    · have hkept (r : Reg) (hr : r ≠ 15) : (drawn s x y n).reg r = s.reg r := by rw [drawn_reg, if_neg hr.symm]
      exact ⟨by rw [State.spriteColumn, State.spriteColumn, hkept x hx, ht.cfg],
        by rw [State.spriteRow, State.spriteRow, hkept y hy, ht.cfg]⟩
    · exact hplace
  exact ⟨ht.cfg, ht.i, ht.memory, hplace.1, hplace.2⟩

theorem pixel_drawn_twice {s t u : State} {x y : Reg} {n : Nibble} (ht : Completes (.drw x y n) s t)
    (hu : Completes (.drw x y n) t u) (h : SamePlace s t x y) (px py : Nat) : u.pixel px py = s.pixel px py := by
  rw [pixel_drawn hu, pixel_drawn ht, h.spriteBit_eq, decide_eq_decide.2 (h.inRect_iff n px py), Bool.xor_assoc, Bool.xor_self,
    Bool.xor_false]

/-- The second draw collides where a sprite bit fell on a pixel that was dark at first. -/
theorem collides_again_iff {s t : State} {x y : Reg} {n : Nibble} (ht : Completes (.drw x y n) s t) (h : SamePlace s t x y) :
    Collides t x y n ↔ ∃ r c, r < s.spriteRows y n ∧ c < s.spriteCols x ∧
      (Memory.read s.memory (s.i.toNat + r)).getLsbD (7 - c) = true ∧
      s.pixel (s.spriteColumn x + c) (s.spriteRow y + r) = false := by
  rw [Collides, h.rows, h.cols, h.memory, h.i, h.column, h.row]
  refine exists_congr fun r => exists_congr fun c => and_congr_right fun hr => and_congr_right fun hc =>
    and_congr_right fun hbit => ?_
  rw [pixel_drawn_inside ht hr hc, hbit]
  cases s.pixel (s.spriteColumn x + c) (s.spriteRow y + r) <;> decide

/-- Settles O32: the second exclusive-or undoes the first, and collides where the first lit a pixel. -/
theorem drawingTwiceRestoresDisplay : Obligations.DrawingTwiceRestoresDisplay := by
  rintro s x y n _ _ _ _ rfl rfl rfl rfl hin
  have hf : faultOf s (.drw x y n) = none := faultOf_drw_of_inMemory hin x
  have ht : Completes (.drw x y n) s (drawn s x y n) := completes_of_exec hf (exec_drw hf)
  refine ⟨drawn s x y n, exec_drw hf, fun hplace => ?_⟩
  have h : SamePlace s (drawn s x y n) x y := samePlace_drawn hf hplace
  have hf' : faultOf (drawn s x y n) (.drw x y n) = none := by
    refine faultOf_drw_of_inMemory ?_ x
    rw [h.rows, h.i, h.cfg]
    exact hin
  have hu : Completes (.drw x y n) (drawn s x y n) (drawn (drawn s x y n) x y n) := completes_of_exec hf' (exec_drw hf')
  refine ⟨_, exec_drw hf', pixel_drawn_twice ht hu h, ?_⟩
  rw [drawn_reg_VF, flagByte_eq_one_iff, spriteCanvas_hit_iff]
  exact collides_again_iff ht h

/-! ## The literal corner sentence -/

/-- The counterexample: a sprite of one bit at the top left corner, where the display is lit. -/
def litCorner : State := { State.reset with i := 0x300, memory := [(0x300, 0x80)], display := [0] }

theorem litCorner_inv : litCorner.Inv where
  wellFormed := by decide
  memoryWf := by decide
  memoryBound := by decide
  displayWf := by decide
  displayBound := by decide
  stackLength := rfl
  spBound := by decide
  returns := fun k h => absurd h (Nat.not_lt_zero k)
  pcBound := by decide

/-- Refutes O33: the first draw clears the lit pixel, so the second meets none, and VF is 0 though the sprite has a 1 bit. -/
theorem not_drawingTwiceAlwaysLeavesCollision : ¬ Obligations.DrawingTwiceAlwaysLeavesCollision := by
  intro h
  have hVF := h litCorner (drawn litCorner 0 1 1) (drawn (drawn litCorner 0 1 1) 0 1 1) 0 1 1 0 0 1 8
    litCorner_inv (by decide) (by decide) (by decide) (by decide) (by decide) (by decide) rfl rfl rfl rfl ⟨0, 0, by decide⟩
  exact absurd hVF (by decide)

end Sys2Proof.Proofs
end

section
/-! SUPPORT. The instructions that write `pc`, one register or the index (spec/40_family0_system.md to spec/44_alu.md): each by its value,
its decoding and its frame. -/

namespace Sys2Proof.Proofs
open Sys2Proof Sys2Proof.Machine Sys2Proof.Laws

/-! ## Decoding (R95, R99) -/

/-- The words of a family with one row are those of the family. -/
theorem encodedAs_of_family (f : Nibble) {build : Word → Instr} (h : ∀ w, fieldF w = f → decodeWord w = some (build w)) :
    EncodedAs 0xF000 (f ++ 0#12) build := fun w hw => h w ((and_F000_eq_iff w f).1 hw)

/-- The words of a row of family E are those with its sub-opcode in `NN`. -/
theorem encodedAs_of_decodeFamilyE (nn : Byte) {build : Word → Instr}
    (h : ∀ w, fieldNN w = nn → decodeFamilyE w = some (build w)) :
    EncodedAs 0xF0FF ((0xE : Nibble) ++ 0#4 ++ nn) build := fun w hw => by
  obtain ⟨hF, hNN⟩ := (and_F0FF_eq_iff w 0xE nn).1 hw
  rw [decodeWord_of_fieldF_E hF, h w hNN]

/-- The words of 00E0 and 00EE are those of family 0 with that low byte. -/
theorem encodedAs_of_decodeFamily0 (nn : Byte) {ins : Instr} (h : ∀ w, fieldNN w = nn → decodeFamily0 w = ins) :
    EncodedAs 0xF0FF ((0x0 : Nibble) ++ 0#4 ++ nn) fun _ => ins := fun w hw => by
  obtain ⟨hF, hNN⟩ := (and_F0FF_eq_iff w 0x0 nn).1 hw
  rw [decodeWord_of_fieldF_zero hF, h w hNN]

/-! ## Family 0 (R122, R123) -/

theorem pixel_of_empty {s : State} (h : s.display = []) (px py : Nat) : s.pixel px py = false := by
  have hdark : Display.lit s.display (cellNumber s.cfg.displayWidth px py) = false := by rw [h]; rfl
  rw [pixel_eq, hdark, Bool.and_false]

/-- Settles O12: the display is emptied; the frame is that of every completing instruction. -/
theorem clsClearsEveryCell : Obligations.ClsClearsEveryCell :=
  ⟨encodedAs_of_decodeFamily0 0xE0 fun _ => decodeFamily0_eq_cls, fun s =>
    ⟨_, rfl, rfl, pixel_of_empty rfl, (completes_of_exec (ins := .cls) (s := s) rfl rfl).agree⟩⟩

/-- Settles O13: the pop, or the fault of an empty stack. -/
theorem retPopsReturnAddressOrUnderflows : Obligations.RetPopsReturnAddressOrUnderflows :=
  ⟨encodedAs_of_decodeFamily0 0xEE fun _ => decodeFamily0_eq_ret,
    fun _ hsp =>
      have hf := faultOf_ret_eq_none.2 hsp
      ⟨_, exec_ret hf, rfl, rfl, (completes_of_exec hf (exec_ret hf)).agree⟩,
    fun _ hsp => exec_of_fault (if_pos hsp)⟩

/-! ## 1NNN and 2NNN (R131, R132) -/

/-- Settles O14: the jump's target is the address, zero-extended. -/
theorem jpLoadsAddress : Obligations.JpLoadsAddress :=
  ⟨encodedAs_of_family 0x1 fun w hF => by rw [decodeWord, hF]; rfl, fun s nnn =>
    ⟨_, rfl, zextAddr_toNat nnn, (completes_of_exec (ins := .jp nnn) (s := s) rfl rfl).agree⟩⟩

/-- What each place of the stack holds after a call. -/
theorem call_stackAt (s : State) (nnn : Addr12) (hlen : s.sp < s.stack.length) (k : Nat) :
    ((s.advance.push (s.pc + 2)).jump (zextAddr nnn)).stackAt k = if k = s.sp then s.pc + 2 else s.stackAt k :=
  push_stackAt s.advance (s.pc + 2) hlen k

/-- Settles O15: the push at the first free place and the jump, or the fault of a full stack. -/
theorem callPushesReturnAddressOrOverflows : Obligations.CallPushesReturnAddressOrOverflows := by
  refine ⟨encodedAs_of_family 0x2 fun w hF => by rw [decodeWord, hF]; rfl, fun s nnn hlen hsp => ?pushes,
    fun s nnn hfull => exec_of_fault (if_pos hfull)⟩
  case pushes =>
    have hplace : s.sp < s.stack.length := hlen ▸ hsp
    have hf : faultOf s (.call nnn) = none := faultOf_call_eq_none.2 hsp
    have ht := completes_of_exec hf (exec_call hf)
    refine ⟨_, exec_call hf, ?_, fun k hk => ?_, List.length_set, rfl, zextAddr_toNat nnn, ht.agree⟩
    · rw [call_stackAt s nnn hplace, if_pos rfl]
    · rw [call_stackAt s nnn hplace, if_neg hk]

/-- Settles O50: the return pops the entry the call pushed. -/
theorem returnUndoesCall : Obligations.ReturnUndoesCall := by
  intro s nnn hlen hsp
  refine ⟨_, exec_call (faultOf_call_eq_none.2 hsp), fun m hstack hm => ?_⟩
  have hne : m.sp ≠ 0 := hm ▸ Nat.succ_ne_zero s.sp
  have hback : m.sp - 1 = s.sp := by rw [hm]; rfl
  refine ⟨_, exec_ret (faultOf_ret_eq_none.2 hne), ?_, hback⟩
  change m.stackAt (m.sp - 1) = s.pc + 2
  rw [hback, stackAt_eq, hstack, ← stackAt_eq, call_stackAt s nnn (hlen ▸ hsp), if_pos rfl]

/-! ## Skips (R141 to R144) -/

/-- Settles O17: the test of each skip, and that `pc` alone is written. -/
theorem skipsCompareRegisters : Obligations.SkipsCompareRegisters := by
  refine ⟨encodedAs_of_family 0x3 fun w hF => ?_, encodedAs_of_family 0x4 fun w hF => ?_,
    encodedAs_of_family 0x5 fun w hF => ?_, encodedAs_of_family 0x9 fun w hF => ?_, fun s x y nn => ⟨?_, ?_, ?_, ?_⟩⟩
  iterate 4 rw [decodeWord, hF]; rfl
  · have ht := completes_of_exec (ins := .seImm x nn) (s := s) rfl rfl
    exact ⟨_, rfl, ht.pc, ht.agree⟩
  · have ht := completes_of_exec (ins := .sneImm x nn) (s := s) rfl rfl
    exact ⟨_, rfl, ht.pc, ht.agree⟩
  · have ht := completes_of_exec (ins := .seReg x y) (s := s) rfl rfl
    exact ⟨_, rfl, ht.pc, ht.agree⟩
  · have ht := completes_of_exec (ins := .sneReg x y) (s := s) rfl rfl
    exact ⟨_, rfl, ht.pc, ht.agree⟩

/-! ## Immediate loads, immediate add, random (R151 to R154) -/

/-- Settles O18: one register write. -/
theorem ldImmLoadsByte : Obligations.LdImmLoadsByte :=
  ⟨encodedAs_of_family 0x6 fun w hF => by rw [decodeWord, hF]; rfl, fun s x nn =>
    ⟨_, rfl, setReg_reg_same _ x nn, rfl, (completes_of_exec (ins := .ldImm x nn) (s := s) rfl rfl).agree⟩⟩

theorem addImm_reg (s : State) (x : Reg) (nn : Byte) :
    ((s.advance.setReg x (s.reg x + nn)).reg x).toNat = ((s.reg x).toNat + nn.toNat) % 256 := by
  rw [setReg_reg_same, BitVec.toNat_add]

/-- Settles O19: one register write, of the sum modulo 256. -/
theorem addImmWrapsWithoutFlag : Obligations.AddImmWrapsWithoutFlag :=
  ⟨encodedAs_of_family 0x7 fun w hF => by rw [decodeWord, hF]; rfl, fun s x nn =>
    ⟨_, rfl, addImm_reg s x nn, rfl, (completes_of_exec (ins := .addImm x nn) (s := s) rfl rfl).agree⟩⟩

/-- Settles O20: one index write. -/
theorem ldILoadsAddress : Obligations.LdILoadsAddress :=
  ⟨encodedAs_of_family 0xA fun w hF => by rw [decodeWord, hF]; rfl, fun s nnn =>
    ⟨_, rfl, zextAddr_toNat nnn, rfl, (completes_of_exec (ins := .ldI nnn) (s := s) rfl rfl).agree⟩⟩

/-- Settles O22: the two writes in turn; neither is to VF when `X` is not 15. -/
theorem loadThenAddGivesSum : Obligations.LoadThenAddGivesSum := by
  intro s x nn nn'
  refine ⟨_, _, rfl, rfl, ?_, fun hx => ?_⟩
  · rw [addImm_reg, setReg_reg_same]
  · rw [setReg_reg_ne _ _ hx.symm, advance_reg, setReg_reg_ne _ _ hx.symm, advance_reg]

theorem drawRnd_of_scheduled {s : State} {r : Byte} {rest : List Byte} (h : s.answers.rnd = r :: rest) : s.drawRnd.1 = r := by
  unfold State.drawRnd
  rw [h]

/-- A poll of the key port takes no random sample. -/
theorem consultKey_rnd (s : State) :
    s.consultKey.2.answers.rnd = s.answers.rnd ∧ s.consultKey.2.answers.rndTaken = s.answers.rndTaken := by
  unfold State.consultKey
  cases s.cfg.keyMode with
  | useGivenKey => exact ⟨rfl, rfl⟩
  | getKey => simp [pollKey_answers]

/-- No instruction but CXNN takes a random sample (R154). -/
theorem answersAfter_rnd (s : State) {ins : Instr} (h : ∀ x nn, ins ≠ .rnd x nn) :
    (answersAfter s ins).rnd = s.answers.rnd ∧ (answersAfter s ins).rndTaken = s.answers.rndTaken := by
  cases ins with
  | rnd x nn => exact absurd rfl (h x nn)
  | skp | sknp => exact consultKey_rnd s
  | ldKey =>
    unfold answersAfter
    cases s.cfg.keyMode <;> exact ⟨rfl, rfl⟩
  | _ => exact ⟨rfl, rfl⟩

/-- Settles O21: the sample is masked by `NN`; taking it changes the answers as `drawRnd_answers` says; and `answersAfter` of every
other instruction keeps the port. -/
theorem rndMasksOneRandomSample : Obligations.RndMasksOneRandomSample := by
  refine ⟨encodedAs_of_family 0xC fun w hF => ?decodes, fun s x nn => ?effect, fun s x nn r rest hr => ⟨_, rfl, ?scheduled⟩,
    fun s t ins h hne => ?others⟩
  case decodes => rw [decodeWord, hF]; rfl
  case effect =>
    have ht := completes_of_exec (ins := .rnd x nn) (s := s) rfl rfl
    refine ⟨_, rfl, ⟨_, setReg_reg_same _ x _⟩, ?masked, ht.pc, ht.answers.trans (drawRnd_answers s), ?frame⟩
    case masked => rw [setReg_reg_same, BitVec.and_assoc, BitVec.and_not_self]; exact BitVec.and_zero
    case frame => rw [ht.answers]; exact ht.agree
  case scheduled => rw [setReg_reg_same, drawRnd_of_scheduled (s := s.advance) hr]
  case others =>
    obtain ⟨c, a, -, rfl⟩ | ⟨-, ht⟩ := exec_next_cases h
    · exact ⟨rfl, rfl⟩
    · rw [ht.answers]; exact answersAfter_rnd s hne

/-! ## 8XY0 to 8XY3 (R162 to R165) -/

/-- Settles O23: one register write. -/
theorem ldRegCopies : Obligations.LdRegCopies :=
  ⟨encodedAs_of_decodeFamily8 0x0 fun w hN => by rw [decodeFamily8, hN]; rfl, fun s x y =>
    ⟨_, rfl, setReg_reg_same _ x _, rfl, (completes_of_exec (ins := .ldReg x y) (s := s) rfl rfl).agree⟩⟩

/-- Settles O24: one register write, of the bitwise result. -/
theorem logicalOpsAreBitwiseWithoutFlag : Obligations.LogicalOpsAreBitwiseWithoutFlag := by
  refine ⟨encodedAs_of_decodeFamily8 0x1 fun w hN => ?_, encodedAs_of_decodeFamily8 0x2 fun w hN => ?_,
    encodedAs_of_decodeFamily8 0x3 fun w hN => ?_, fun s x y =>
      ⟨⟨_, rfl, rfl, (completes_of_exec (ins := .orReg x y) (s := s) rfl rfl).agree, fun k _ => ?or⟩,
        ⟨_, rfl, rfl, (completes_of_exec (ins := .andReg x y) (s := s) rfl rfl).agree, fun k _ => ?and⟩,
        ⟨_, rfl, rfl, (completes_of_exec (ins := .xorReg x y) (s := s) rfl rfl).agree, fun k _ => ?xor⟩⟩⟩
  iterate 3 rw [decodeFamily8, hN]; rfl
  case or => rw [setReg_reg_same, BitVec.getLsbD_or]
  case and => rw [setReg_reg_same, BitVec.getLsbD_and]
  case xor => rw [setReg_reg_same, BitVec.getLsbD_xor]

/-- Settles O30: each line of the table is the instruction's own statement at `X = 15` or at `Y = 15`. -/
theorem flagWriteOrderWithRegisterFifteen : Obligations.FlagWriteOrderWithRegisterFifteen := by
  intro s y a ha
  obtain ⟨-, hadd⟩ := addRegSetsCarry
  obtain ⟨-, hsub⟩ := subSetsNoBorrow
  obtain ⟨-, hsubn⟩ := subnSetsNoBorrow
  obtain ⟨-, hshr⟩ := shrShiftsRightByOne
  obtain ⟨-, hshl⟩ := shlShiftsLeftByOne
  refine ⟨?_, ?_, ?_, ?_, ?_, fun x hx => ⟨?_, ?_, ?_, fun hq => ⟨?_, ?_⟩⟩⟩
  · obtain ⟨t, he, -, -, hVF, -⟩ := hadd s 15 y
    exact ⟨t, he, hVF⟩
  · obtain ⟨t, he, -, -, hVF, -⟩ := hsub s 15 y
    exact ⟨t, he, hVF⟩
  · obtain ⟨t, he, -, -, hVF, -⟩ := hsubn s 15 y
    exact ⟨t, he, hVF⟩
  · obtain ⟨t, he, -, -, hVF, -⟩ := hshr s 15 y a ha
    exact ⟨t, he, hVF rfl⟩
  · obtain ⟨t, he, -, -, hVF, -⟩ := hshl s 15 y a ha
    exact ⟨t, he, hVF rfl⟩
  · obtain ⟨t, he, -, hresult, -⟩ := hadd s x 15
    exact ⟨t, he, hresult hx⟩
  · obtain ⟨t, he, -, hresult, -⟩ := hsub s x 15
    exact ⟨t, he, hresult hx⟩
  · obtain ⟨t, he, -, hresult, -⟩ := hsubn s x 15
    exact ⟨t, he, hresult hx⟩
  · obtain ⟨t, he, -, hresult, -⟩ := hshr s x 15 (s.reg 15) (by rw [hq]; rfl)
    exact ⟨t, he, (hresult hx).1⟩
  · obtain ⟨t, he, -, hresult, -⟩ := hshl s x 15 (s.reg 15) (by rw [hq]; rfl)
    exact ⟨t, he, (hresult hx).1⟩

end Sys2Proof.Proofs
end

section
/-! SUPPORT. Key input (spec/46_key.md) and family F (spec/47_timer_index_memory.md): the consulted key, the copies between registers and
timers, the font, and the instructions that move bytes between registers and memory. -/

namespace Sys2Proof.Proofs
open Sys2Proof Sys2Proof.Machine Sys2Proof.Laws

/-! ## EX9E, EXA1, FX0A (R190 to R193) -/

theorem consultKey_useGivenKey {s : State} (hm : s.cfg.keyMode = .useGivenKey) : s.consultKey = (s.key, s) := by
  rw [State.consultKey, hm]

theorem consultKey_getKey {s : State} (hm : s.cfg.keyMode = .getKey) : s.consultKey = s.pollKey := by
  rw [State.consultKey, hm]

theorem pollKey_of_scheduled {s : State} {k : Key} {rest : List Key} (h : s.answers.poll = k :: rest) : s.pollKey.1 = k := by
  unfold State.pollKey
  rw [h]

/-- Settles O34: the key and the answers are those of one consultation, and both skips compare that key. -/
theorem keySkipsCompareConsultedKey : Obligations.KeySkipsCompareConsultedKey := by
  refine ⟨encodedAs_of_decodeFamilyE 0x9E fun w hNN => ?_, encodedAs_of_decodeFamilyE 0xA1 fun w hNN => ?_, fun s x =>
    ⟨s.consultKey.1, s.consultKey.2.answers, fun hm => ?given, fun hm => ?polled, ?skp, ?sknp⟩⟩
  iterate 2 rw [decodeFamilyE, hNN]; rfl
  case given => rw [consultKey_useGivenKey hm]; exact ⟨rfl, rfl⟩
  case polled =>
    rw [consultKey_getKey hm]
    exact ⟨fun k rest => pollKey_of_scheduled, pollKey_answers s⟩
  case skp =>
    have ht := completes_of_exec (ins := .skp x) (s := s) rfl rfl
    exact ⟨_, rfl, ht.pc, ht.answers, ht.agree⟩
  case sknp =>
    have ht := completes_of_exec (ins := .sknp x) (s := s) rfl rfl
    exact ⟨_, rfl, ht.pc, ht.answers, ht.agree⟩

/-- Settles O35: under each policy FX0A stores the byte of its key, and without an answer it has no next state. -/
theorem ldKeyWaitsForBlockingPort : Obligations.LdKeyWaitsForBlockingPort := by
  refine ⟨encodedAs_of_decodeFamilyF 0x0A fun w hNN => ?decodes, fun s x hm => ?given, fun s x k rest hm hw => ?answered,
    fun s x hm hw => execLdKey_stuck hm hw x⟩
  case decodes => rw [decodeFamilyF, hNN]; rfl
  case given =>
    have ht := completes_of_exec rfl (execLdKey_useGivenKey hm x)
    have hframe := ht.agree
    rw [answersAfter, hm] at hframe
    refine ⟨_, execLdKey_useGivenKey hm x, fun k hk => ?_, fun hk => ?_, rfl, hframe⟩
    · rw [setReg_reg_same, hk]; rfl
    · rw [setReg_reg_same, hk]; rfl
  case answered =>
    have ht := completes_of_exec rfl (execLdKey_getKey hm hw x)
    have hframe := ht.agree
    rw [answersAfter, hm, hw] at hframe
    refine ⟨_, execLdKey_getKey hm hw x, fun b hb => ?_, fun hk => ?_, rfl, hframe⟩
    · rw [setReg_reg_same, hb]; rfl
    · rw [setReg_reg_same, hk]; rfl

/-! ## FX07, FX15, FX18, FX29 (R201 to R205) -/

/-- Settles O37: one register write and two timer writes. -/
theorem timerInstructionsAreCopies : Obligations.TimerInstructionsAreCopies := by
  refine ⟨encodedAs_of_decodeFamilyF 0x07 fun w hNN => ?_, encodedAs_of_decodeFamilyF 0x15 fun w hNN => ?_,
    encodedAs_of_decodeFamilyF 0x18 fun w hNN => ?_, fun s x =>
      ⟨⟨_, rfl, setReg_reg_same _ x _, rfl, (completes_of_exec (ins := .ldFromDt x) (s := s) rfl rfl).agree⟩,
        ⟨_, rfl, rfl, rfl, (completes_of_exec (ins := .ldDt x) (s := s) rfl rfl).agree⟩,
        ⟨_, rfl, rfl, rfl, (completes_of_exec (ins := .ldSt x) (s := s) rfl rfl).agree⟩⟩⟩
  iterate 3 rw [decodeFamilyF, hNN]; rfl

theorem glyphAddress_toNat (s : State) (b : Byte) :
    (s.glyphAddress b).toNat = (s.cfg.fontAddress + 5 * (b.toNat % 16)) % 65536 := by
  have hmask : (b &&& 0x0F).toNat = b.toNat % 16 := by
    rw [BitVec.toNat_and]
    exact Nat.and_two_pow_sub_one_eq_mod b.toNat 4
  rw [State.glyphAddress, BitVec.toNat_ofNat, hmask]

/-- Settles O39: one index write; the font table ends inside memory, and memory below 65536. -/
theorem ldFontPointsAtGlyph : Obligations.LdFontPointsAtGlyph := by
  refine ⟨encodedAs_of_decodeFamilyF 0x29 fun w hNN => ?decodes, fun s x => ⟨_, rfl, glyphAddress_toNat s _, rfl,
    (completes_of_exec (ins := .ldFont x) (s := s) rfl rfl).agree, fun hc => ?bound⟩⟩
  case decodes => rw [decodeFamilyF, hNN]; rfl
  case bound =>
    obtain ⟨-, hsize, -, -, -, -, hfont⟩ := hc
    have hglyph : (s.glyphAddress (s.reg x)).toNat = s.cfg.fontAddress + 5 * ((s.reg x).toNat % 16) := by
      rw [glyphAddress_toNat, Nat.mod_eq_of_lt (by omega)]
    refine ⟨hglyph, ?_⟩
    rw [setIndex_i, hglyph]
    omega

/-! ## FX33 (R206) -/

/-- A byte written by an access that starts at `i` (R62). -/
theorem read_writeBytes_ea (s : State) (bs : List Byte) {k : Nat} (hk : k < bs.length) :
    Memory.read (Memory.writeBytes s.memory (s.ea 0) bs) (s.ea k) = bs.getD k 0 := by
  rw [Laws.Memory.read_writeBytes, if_pos (by unfold State.ea; omega)]
  congr 1
  unfold State.ea
  omega

theorem read_writeBytes_of_ne_ea (s : State) (bs : List Byte) {a : Nat} (ha : ∀ k, k < bs.length → a ≠ s.ea k) :
    Memory.read (Memory.writeBytes s.memory (s.ea 0) bs) a = Memory.read s.memory a := by
  rw [Laws.Memory.read_writeBytes, if_neg]
  rintro ⟨hle, hlt⟩
  refine ha (a - s.ea 0) (by omega) ?_
  unfold State.ea at *
  omega

/-- Settles O40: the three digits are the three bytes written. -/
theorem ldBcdStoresThreeDigits : Obligations.LdBcdStoresThreeDigits := by
  refine ⟨encodedAs_of_decodeFamilyF 0x33 fun w hNN => ?decodes, fun s x hin => ?stores, fun s x hout =>
    exec_of_fault (if_neg (Nat.not_lt_of_le hout))⟩
  case decodes => rw [decodeFamilyF, hNN]; rfl
  case stores =>
    have hf : faultOf s (.ldBcd x) = none := faultOf_ldBcd_eq_none.2 hin
    have ht := completes_of_exec hf (exec_ldBcd hf)
    have hdigits := bcdDigits_eq (s.reg x)
    simp only [bcdDigits, List.map_cons, List.map_nil, List.cons.injEq, and_true] at hdigits
    obtain ⟨hundreds, tens, units⟩ := hdigits
    refine ⟨_, exec_ldBcd hf, ?_, ?_, ?_, fun a h0 h1 h2 => read_writeBytes_of_ne_ea s _ fun k hk => ?_, rfl, ht.agree⟩
    · rw [setMemory_memory, read_writeBytes_ea s _ (by decide : 0 < 3)]; exact hundreds
    · rw [setMemory_memory, read_writeBytes_ea s _ (by decide : 1 < 3)]; exact tens
    · rw [setMemory_memory, read_writeBytes_ea s _ (by decide : 2 < 3)]; exact units
    · have hk : k < 3 := hk
      interval_cases k
      · exact h0
      · exact h1
      · exact h2

/-! ## FX55 and FX65 (R207, R208) -/

/-- The memory after FX55: `v[r]` at `i + r` for each `r` up to `X`. -/
theorem read_regBytes (s : State) {x r : Reg} (hr : r ≤ x) :
    Memory.read (Memory.writeBytes s.memory (s.ea 0) (s.regBytes x)) (s.ea r.val) = s.reg r := by
  rw [read_writeBytes_ea s _ (by rw [regBytes_length]; exact Nat.lt_succ_of_le hr), regBytes_getD s x r hr]

/-- The index after FX55 or FX65, under each setting of the quirk. -/
theorem bumpIndex_i_of_quirk {s : State} (hq : s.cfg.quirks.fx55Fx65IncI = true) (x : Reg) :
    (s.bumpIndex x).i.toNat = (s.i.toNat + x.val + 1) % 65536 := by
  rw [bumpIndex_i, if_pos hq, BitVec.toNat_ofNat]

theorem bumpIndex_i_of_noQuirk {s : State} (hq : s.cfg.quirks.fx55Fx65IncI = false) (x : Reg) : (s.bumpIndex x).i = s.i := by
  rw [bumpIndex_i, if_neg (Bool.eq_false_iff.1 hq)]

/-- Settles O41: the bytes written are the registers', the index is bumped, and nothing else changes; or it faults. -/
theorem storeRegsDumpsRange : Obligations.StoreRegsDumpsRange := by
  refine ⟨encodedAs_of_decodeFamilyF 0x55 fun w hNN => ?decodes, fun s x hin => ?stores, fun s x hout =>
    exec_of_fault (if_neg (Nat.not_lt_of_le hout))⟩
  case decodes => rw [decodeFamilyF, hNN]; rfl
  case stores =>
    have hf : faultOf s (.storeRegs x) = none := faultOf_storeRegs_eq_none.2 hin
    have ht := completes_of_exec hf (exec_storeRegs hf)
    refine ⟨_, exec_storeRegs hf, fun r hr => ?inside, fun a ha => ?outside, fun hq => ?bumped, fun hq => ?kept, ht.pc, ?frame⟩
    case inside => rw [ht.memory]; exact read_regBytes s hr
    case outside =>
      rw [ht.memory]
      refine read_writeBytes_of_ne_ea s _ fun k hk => ?_
      rw [regBytes_length] at hk
      have hle : k ≤ x.val := Nat.le_of_lt_succ hk
      exact ha ⟨k, by omega⟩ hle
    case bumped => rw [ht.i]; exact bumpIndex_i_of_quirk hq x
    case kept => rw [ht.i]; exact bumpIndex_i_of_noQuirk hq x
    case frame => rw [ht.memory, ht.i]; exact ht.agree

/-- Settles O42: the registers up to `X` get the bytes, the index is bumped, and nothing else changes; or it faults. -/
theorem loadRegsLoadsRange : Obligations.LoadRegsLoadsRange := by
  refine ⟨encodedAs_of_decodeFamilyF 0x65 fun w hNN => ?decodes, fun s x hin => ?loads, fun s x hout =>
    exec_of_fault (if_neg (Nat.not_lt_of_le hout))⟩
  case decodes => rw [decodeFamilyF, hNN]; rfl
  case loads =>
    have hf : faultOf s (.loadRegs x) = none := faultOf_loadRegs_eq_none.2 hin
    have ht := completes_of_exec hf (exec_loadRegs hf)
    refine ⟨_, exec_loadRegs hf, fun r hr => ?loaded, fun r hr => ht.reg r ?above, fun hq => ?bumped, fun hq => ?kept, ht.pc,
      ?frame⟩
    case loaded => rw [bumpIndex_reg, setRegs_reg, if_pos ((mem_regsUpTo x r).2 hr)]
    case above => exact fun hmem => absurd ((mem_regsUpTo x r).1 hmem) (not_le_of_gt hr)
    case bumped => rw [ht.i]; exact bumpIndex_i_of_quirk hq x
    case kept => rw [ht.i]; exact bumpIndex_i_of_noQuirk hq x
    case frame => rw [ht.i]; exact ht.agree

/-- Settles O43: FX65 reads back, from the same addresses, the bytes FX55 wrote. -/
theorem registerDumpThenLoadRestores : Obligations.RegisterDumpThenLoadRestores := by
  intro s x hin
  obtain ⟨-, hstore, -⟩ := storeRegsDumpsRange
  obtain ⟨-, hload, -⟩ := loadRegsLoadsRange
  obtain ⟨t, he, hstored, -⟩ := hstore s x hin
  refine ⟨t, he, fun m hmemory hi hcfg => ?_⟩
  have hea (k : Nat) : m.ea k = s.ea k := by rw [State.ea, State.ea, hi]
  obtain ⟨u, hu, hloaded, -⟩ := hload m x (by rw [hea, hcfg]; exact hin)
  exact ⟨u, hu, fun r hr => by rw [hloaded r hr, hmemory, hea, hstored r hr]⟩

/-- Settles O49: the fetch reads the two bytes FX55 wrote, the one at the lower address high (R61). -/
theorem storedBytesAreFetchedNext : Obligations.StoredBytesAreFetchedNext := by
  intro s x r q hin hq hnext
  obtain ⟨-, hstore, -⟩ := storeRegsDumpsRange
  obtain ⟨t, he, hstored, -⟩ := hstore s x hin
  refine ⟨t, he, fun u hmemory hpc => ?_⟩
  have hr : r ≤ x := le_trans (Fin.le_def.2 (by omega)) hq
  have hlow : s.ea r.val + 1 = s.ea q.val := by rw [State.ea, State.ea, hnext]; rfl
  rw [State.instrWord, hpc, hlow, hmemory, hstored r hr, hstored q hq]
  rfl

end Sys2Proof.Proofs
end

section
/-! SUPPORT. Reset and the host operations (spec/10_state.md R40, spec/50_interfaces.md R226, R227). -/

namespace Sys2Proof.Proofs
open Sys2Proof Sys2Proof.Machine Sys2Proof.Laws

/-! ## Reset (R40) -/

theorem read_of_empty {m : Memory} (h : m = []) (a : Nat) : Memory.read m a = 0 := by
  rw [h]; rfl

theorem stackAt_of_zeros {s : State} {n : Nat} (h : s.stack = List.replicate n 0) (k : Nat) : s.stackAt k = 0 := by
  rw [stackAt_eq, h, List.getD_eq_getElem?_getD, List.getElem?_replicate]
  split <;> rfl

theorem hostReset_reg (s : State) (c : Configuration) (r : Reg) : (s.hostReset c).reg r = 0 := by
  simp [State.reg]

/-- The program's first address has room for a word below `memorySize` (R7). -/
theorem hostReset_ready (s : State) {c : Configuration} (hc : c.WellFormed) :
    (s.hostReset c).Ready ∧ (s.hostReset c).pc.toNat = c.programAddress := by
  obtain ⟨hsize, hlimit, hprogram⟩ := wellFormed_bounds hc
  have hpc : (s.hostReset c).pc.toNat = c.programAddress := by
    rw [hostReset_pc, BitVec.toNat_ofNat, Nat.mod_eq_of_lt (by omega)]
  refine ⟨⟨rfl, hc, ?_⟩, hpc⟩
  rw [State.fetchInBounds, State.inMemory, hpc, hostReset_cfg]
  omega

theorem hostReset_instrWord (s : State) (c : Configuration) : (s.hostReset c).instrWord = 0 := by
  rw [State.instrWord, hostReset_memory, read_of_empty rfl, read_of_empty rfl]
  rfl

/-- Settles O52: every field is at the value `hostReset` gives it, and empty memory reads as the word of 0NNN. -/
theorem resetSetsEveryStateValue : Obligations.ResetSetsEveryStateValue := by
  intro s c hc
  obtain ⟨hready, hpc⟩ := hostReset_ready s hc
  refine ⟨_, hostStep_reset hc s, hostReset_reg s c, hpc, rfl, rfl, ⟨List.length_replicate, stackAt_of_zeros rfl⟩, rfl, rfl,
    read_of_empty rfl, pixel_of_empty rfl, rfl, rfl, rfl, hready, ?_⟩
  rw [hostReset_instrWord]
  rfl

/-! ## TimerTick (R226) -/

theorem tickTimer_toNat (b : Byte) : (tickTimer b).toNat = b.toNat - 1 := by
  unfold tickTimer
  split
  · next h => rw [h]; rfl
  · next h =>
    have hpos : b.toNat ≠ 0 := fun h0 => h (BitVec.eq_of_toNat_eq h0)
    have hb := b.isLt
    have h1 : (1 : Byte).toNat = 1 := rfl
    rw [BitVec.toNat_sub, h1]
    omega

/-- Settles O53: both timers tick, and nothing else is written. -/
theorem timerTickCountsDownToZero : Obligations.TimerTickCountsDownToZero := fun _ =>
  ⟨_, rfl, tickTimer_toNat _, tickTimer_toNat _, rfl⟩

/-! ## HostWrite and the loads (R227) -/

theorem hostWrite_of_inMemory {s : State} {a : Nat} (h : a < s.cfg.memorySize) (b : Byte) :
    s.hostWrite a b = s.setMemory (Memory.write s.memory a b) := if_pos h

theorem hostWrite_of_outside {s : State} {a : Nat} (h : s.cfg.memorySize ≤ a) (b : Byte) : s.hostWrite a b = s :=
  if_neg (Nat.not_lt_of_le h)

/-- A load that fits writes its bytes to memory and nothing else. -/
theorem loadBytes_eq (s : State) (a : Nat) (bs : List Byte) (h : a + bs.length ≤ s.cfg.memorySize) :
    s.loadBytes a bs = s.setMemory (Memory.writeBytes s.memory a bs) := by
  induction bs generalizing s a with
  | nil => rfl
  | cons b bs ih =>
    rw [List.length_cons] at h
    rw [State.loadBytes, hostWrite_of_inMemory (by omega), ih _ _ (by rw [setMemory_cfg]; omega)]
    rfl

/-- Settles O54: HostWrite is one write, and a load that fits is the write of its bytes. -/
theorem hostWritesAndLoadsFillMemory : Obligations.HostWritesAndLoadsFillMemory := by
  refine ⟨fun s a b => ⟨_, rfl, fun ha => ?written, fun x hx => ?kept, ?frame⟩, fun s prog hfit => ?program,
    fun s font hfit => ?font⟩
  case written => rw [hostWrite_of_inMemory ha, setMemory_memory, Laws.Memory.read_write, if_pos rfl]
  case kept =>
    rcases Nat.lt_or_ge a s.cfg.memorySize with ha | ha
    · have hne : a ≠ x := fun h => hx.elim (· h.symm) (Nat.not_le_of_lt ha)
      rw [hostWrite_of_inMemory ha, setMemory_memory, Laws.Memory.read_write, if_neg hne]
    · rw [hostWrite_of_outside ha]
  case frame =>
    rcases Nat.lt_or_ge a s.cfg.memorySize with ha | ha
    · rw [hostWrite_of_inMemory ha]; rfl
    · rw [hostWrite_of_outside ha]
  case program =>
    have hload : s.loadProgram prog = .next (s.setMemory (Memory.writeBytes s.memory s.cfg.programAddress prog)) :=
      (if_pos hfit).trans (congrArg _ (loadBytes_eq s _ prog hfit))
    exact ⟨_, hload, rfl, fun x => Laws.Memory.read_writeBytes _ _ _ _⟩
  case font =>
    have hload : s.loadFont font = .next (s.setMemory (Memory.writeBytes s.memory s.cfg.fontAddress font)) :=
      (if_pos hfit).trans (congrArg _ (loadBytes_eq s _ font hfit))
    exact ⟨_, hload, rfl, fun x => Laws.Memory.read_writeBytes _ _ _ _⟩

end Sys2Proof.Proofs
end
